-- ==== Sys2Proof/Word.lean ====
section
/-! DEFINITION. The bit-vector types of the block: one name for each width the spec gives
(00_scope.md R5, 10_state.md R22 to R33, 30_encoding.md R70 and R80). Every value is unsigned (R9). -/

namespace Sys2Proof

/-- A command word, `CMD_W` = 48 bits (30_encoding.md R70). -/
abbrev Word := BitVec 48

/-- A token as the response port carries it, `TOK_W` = 40 bits (30_encoding.md R80). -/
abbrev TokenWord := BitVec 40

/-- A symbol, `SYM_W` = 8 bits (00_scope.md R5). -/
abbrev Symbol := BitVec 8

/-- A node handle, `H_W` = 9 bits (00_scope.md R5). -/
abbrev Handle := BitVec 9

/-- A frequency counter, `FW` = 32 bits (00_scope.md R5). -/
abbrev Count := BitVec 32

/-- A node's frequency field, `NF_W` = 40 bits (00_scope.md R5). -/
abbrev NodeFreq := BitVec 40

/-- A code-length field, `CLEN_W` = 8 bits (00_scope.md R5). -/
abbrev CodeLen := BitVec 8

/-- One entry of `CBITS`, 255 bits; bit index 0 is the first bit in stream order (10_state.md R33). -/
abbrev CodeBits := BitVec 255

/-- A status or error code, 4 bits (60_exceptions.md R210). -/
abbrev StatusCode := BitVec 4

end Sys2Proof
end

