-- ==== Sys2Proof/Config.lean ====
section
/-! DEFINITION. The parameters of 00_scope.md R5: the fixed ones as constants, and the one open parameter,
`ARENA_SIZE`, as a record that State carries and no step writes. -/

namespace Sys2Proof

/-- The handle that means "absent" (00_scope.md R5). -/
abbrev NIL : Handle := 0x1FF#9

/-- `NSYM`, the number of symbols (00_scope.md R5). -/
abbrev NSYM : Nat := 256

/-- `MAXLEN`, the longest possible code in bits (00_scope.md R5, 42_tree_builder.md R128). -/
abbrev MAXLEN : Nat := 255

/-- The bit of a left edge, 0 (00_scope.md R5). -/
abbrev LEFT_BIT : Bool := false

/-- The bit of a right edge, 1 (00_scope.md R5). -/
abbrev RIGHT_BIT : Bool := true

/-- The configuration of one block: `ARENA_SIZE`, any value 1 to 511 (00_scope.md R5, 92_eei_decisions.md D6).
The bounds are carried with the value, so no state has an illegal arena (log 1). -/
structure Config where
  arenaSize : Nat
  arenaPos  : 1 ≤ arenaSize
  arenaMax  : arenaSize ≤ 511
deriving DecidableEq, Repr

/-- The default `ARENA_SIZE`, 511, at which `AllocationFailure` cannot occur (00_scope.md R5). -/
def Config.standard : Config := ⟨511, by decide, by decide⟩

end Sys2Proof
end

