-- ==== Sys2Proof/Syntax.lean ====
section
/-! DEFINITION. The command set of 30_encoding.md R76: one constructor per row of spec/opcode_table.json, in its
order. Every operand is an unsigned immediate of its field's own width (R72). -/

namespace Sys2Proof

/-- The 18 commands (30_encoding.md R76). -/
inductive Instr where
  | nop
  | rdstat
  | clrerr
  | fclr
  | count  (sym : Symbol)
  | ldf    (sym : Symbol) (cnt : Count)
  | rdfreq (sym : Symbol)
  | build
  | rdnode (handle : Handle)
  | release
  | gen
  | rdcode (sym : Symbol)
  | ebegin
  | enc    (sym : Symbol)
  | eend
  | dbegin
  /-- All eight bits of the operand are kept: 0 and 1 are the recognized bit values (R72, R78). -/
  | dec    (bitval : BitVec 8)
  | dend
deriving DecidableEq, Repr

end Sys2Proof
end

