-- ==== Sys2Proof/WellFormed.lean ====
section
/-! DEFINITION. What may be written as a command. In `Instr` an operand has exactly its field's width, so every
`Instr` has an encoding. What can be ill formed is a line of the assembler (30_encoding.md R85), whose
operands are numbers of any size, and a pseudo-instruction built from them (R86). -/

namespace Sys2Proof

/-- A line of the assembler, operands as the numbers written (30_encoding.md R85), and the six
pseudo-instructions (R86). A text is the list of its characters' byte values, a bit-string the list of its
digits. -/
inductive Asm where
  | nop | rdstat | clrerr | fclr
  | count  (sym : Nat)
  | ldf    (sym cnt : Nat)
  | rdfreq (sym : Nat)
  | build
  | rdnode (handle : Nat)
  | release | gen
  | rdcode (sym : Nat)
  | ebegin
  | enc    (sym : Nat)
  | eend | dbegin
  | dec    (bitval : Nat)
  | dend
  | counts     (text : List Nat)
  | encs       (text : List Nat)
  | decs       (bits : List Nat)
  | ldft       (entries : List (Nat × Nat))
  | compress   (text : List Nat)
  | decompress (bits : List Nat)
deriving DecidableEq, Repr

/-- `sym` or `bitval` fits field `a` (R85: "`sym` or `bitval` above 255"). -/
def fitsByte (n : Nat) : Bool := decide (n ≤ 255)

/-- `count` fits field `d` (R85: "`count` above `2^32 - 1`"). -/
def fitsCount (n : Nat) : Bool := decide (n ≤ 2 ^ 32 - 1)

/-- `handle` fits `d[8:0]` (R85: "`handle` above 511"). -/
def fitsHandle (n : Nat) : Bool := decide (n ≤ 511)

/-- A digit of a bit-string (R10, R86: "one `DEC 0` or `DEC 1` for each digit"). -/
def isDigit (n : Nat) : Bool := decide (n ≤ 1)

/-- The assembler accepts the line: every operand fits its field. `DEC 2` is accepted (R85: "it does not reject
`DEC 2`, which is a legal encoding"). -/
def Asm.wellFormed : Asm → Bool
  | .nop => true
  | .rdstat => true
  | .clrerr => true
  | .fclr => true
  | .count sym => fitsByte sym
  | .ldf sym cnt => fitsByte sym && fitsCount cnt
  | .rdfreq sym => fitsByte sym
  | .build => true
  | .rdnode h => fitsHandle h
  | .release => true
  | .gen => true
  | .rdcode sym => fitsByte sym
  | .ebegin => true
  | .enc sym => fitsByte sym
  | .eend => true
  | .dbegin => true
  | .dec v => fitsByte v
  | .dend => true
  | .counts text => text.all fitsByte
  | .encs text => text.all fitsByte
  | .decs bits => bits.all isDigit
  | .ldft entries => entries.all fun e => fitsByte e.1 && fitsCount e.2
  | .compress text => text.all fitsByte
  | .decompress bits => bits.all isDigit

end Sys2Proof
end

