-- ==== Sys2Proof/Decode.lean ====
section
/-! DEFINITION. The command word (30_encoding.md R70 to R78): its fields, the total decoder that refuses a
reserved word by name, the encoder, the opcode map as a table of match and mask, and the assembler (R85, R86). -/

namespace Sys2Proof

/-! ### Fields (R70) -/

/-- `op`, bits 47:40. -/
def opField (w : Word) : BitVec 8 := w.extractLsb' 40 8

/-- `a`, bits 39:32. -/
def aField (w : Word) : BitVec 8 := w.extractLsb' 32 8

/-- `d`, bits 31:0. -/
def dField (w : Word) : BitVec 32 := w.extractLsb' 0 32

/-- `d[8:0]`, the handle operand of RDNODE. -/
def handleField (w : Word) : Handle := w.extractLsb' 0 9

/-- `d[31:9]`, which format `H` requires to be zero. -/
def aboveHandleField (w : Word) : BitVec 23 := w.extractLsb' 9 23

/-- The word `{op, a, d}`. -/
def packWord (op a : BitVec 8) (d : BitVec 32) : Word := op ++ a ++ d

/-! ### Decoder (R71, R72, R73) -/

/-- Why a word is reserved (R77): (a) its opcode is none of the 18, (b) a must-be-zero field is not zero. -/
inductive Reserved where
  | opcode (op : BitVec 8)
  | field  (op : BitVec 8)
deriving DecidableEq, Repr

/-- Format `Z`: `a` and `d` must be zero (R71). -/
def formatZ (w : Word) (i : Instr) : Except Reserved Instr :=
  if aField w = 0 ∧ dField w = 0 then .ok i else .error (.field (opField w))

/-- Format `A`: `a` is the operand, `d` must be zero (R71). -/
def formatA (w : Word) (i : BitVec 8 → Instr) : Except Reserved Instr :=
  if dField w = 0 then .ok (i (aField w)) else .error (.field (opField w))

/-- Format `AD`: both are operands (R71). -/
def formatAD (w : Word) (i : BitVec 8 → BitVec 32 → Instr) : Except Reserved Instr :=
  .ok (i (aField w) (dField w))

/-- Format `H`: `d[8:0]` is the operand, `a` and `d[31:9]` must be zero (R71). -/
def formatH (w : Word) (i : Handle → Instr) : Except Reserved Instr :=
  if aField w = 0 ∧ aboveHandleField w = 0 then .ok (i (handleField w)) else .error (.field (opField w))

/-- Decoding is total (R73): the row whose `op` equals `W[47:40]`, if its must-be-zero fields are zero. -/
def decode (w : Word) : Except Reserved Instr :=
  match opField w with
  | 0x00#8 => formatZ w .nop
  | 0x01#8 => formatZ w .rdstat
  | 0x02#8 => formatZ w .clrerr
  | 0x10#8 => formatZ w .fclr
  | 0x11#8 => formatA w .count
  | 0x12#8 => formatAD w .ldf
  | 0x13#8 => formatA w .rdfreq
  | 0x20#8 => formatZ w .build
  | 0x21#8 => formatH w .rdnode
  | 0x22#8 => formatZ w .release
  | 0x30#8 => formatZ w .gen
  | 0x31#8 => formatA w .rdcode
  | 0x40#8 => formatZ w .ebegin
  | 0x41#8 => formatA w .enc
  | 0x42#8 => formatZ w .eend
  | 0x50#8 => formatZ w .dbegin
  | 0x51#8 => formatA w .dec
  | 0x52#8 => formatZ w .dend
  | op     => .error (.opcode op)

/-- The decoder on a table word (log 11): a command is one 48-bit word, numbered as the table numbers it, and a
number that needs more than 48 bits is no command. The table gives every row all 48 bits, so `nbits` adds
nothing to `w`. -/
def decodeTableWord (_nbits w : Nat) : Option Instr :=
  if w < 2 ^ 48 then
    match decode (BitVec.ofNat 48 w) with
    | .ok i    => some i
    | .error _ => none
  else none

/-! ### Encoder (R76) -/

/-- The word of a command: opcode of R76, operands at the places of R72, zero elsewhere. -/
def encode : Instr → Word
  | .nop        => packWord 0x00#8 0#8 0#32
  | .rdstat     => packWord 0x01#8 0#8 0#32
  | .clrerr     => packWord 0x02#8 0#8 0#32
  | .fclr       => packWord 0x10#8 0#8 0#32
  | .count sym  => packWord 0x11#8 sym 0#32
  | .ldf sym c  => packWord 0x12#8 sym c
  | .rdfreq sym => packWord 0x13#8 sym 0#32
  | .build      => packWord 0x20#8 0#8 0#32
  | .rdnode h   => packWord 0x21#8 0#8 (h.setWidth 32)
  | .release    => packWord 0x22#8 0#8 0#32
  | .gen        => packWord 0x30#8 0#8 0#32
  | .rdcode sym => packWord 0x31#8 sym 0#32
  | .ebegin     => packWord 0x40#8 0#8 0#32
  | .enc sym    => packWord 0x41#8 sym 0#32
  | .eend       => packWord 0x42#8 0#8 0#32
  | .dbegin     => packWord 0x50#8 0#8 0#32
  | .dec v      => packWord 0x51#8 v 0#32
  | .dend       => packWord 0x52#8 0#8 0#32

/-! ### The opcode map as match and mask (R73, R76) -/

/-- One row of the opcode map: `W` is the command when `W AND mask = pattern`. -/
structure OpRow where
  mnemonic : String
  pattern  : Word
  mask     : Word
deriving DecidableEq, Repr

/-- The rows of R76, and of spec/opcode_table.json, in order. -/
def opcodeTable : List OpRow :=
  [⟨"NOP",     0x000000000000#48, 0xFFFFFFFFFFFF#48⟩,
   ⟨"RDSTAT",  0x010000000000#48, 0xFFFFFFFFFFFF#48⟩,
   ⟨"CLRERR",  0x020000000000#48, 0xFFFFFFFFFFFF#48⟩,
   ⟨"FCLR",    0x100000000000#48, 0xFFFFFFFFFFFF#48⟩,
   ⟨"COUNT",   0x110000000000#48, 0xFF00FFFFFFFF#48⟩,
   ⟨"LDF",     0x120000000000#48, 0xFF0000000000#48⟩,
   ⟨"RDFREQ",  0x130000000000#48, 0xFF00FFFFFFFF#48⟩,
   ⟨"BUILD",   0x200000000000#48, 0xFFFFFFFFFFFF#48⟩,
   ⟨"RDNODE",  0x210000000000#48, 0xFFFFFFFFFE00#48⟩] ++
  [⟨"RELEASE", 0x220000000000#48, 0xFFFFFFFFFFFF#48⟩,
   ⟨"GEN",     0x300000000000#48, 0xFFFFFFFFFFFF#48⟩,
   ⟨"RDCODE",  0x310000000000#48, 0xFF00FFFFFFFF#48⟩,
   ⟨"EBEGIN",  0x400000000000#48, 0xFFFFFFFFFFFF#48⟩,
   ⟨"ENC",     0x410000000000#48, 0xFF00FFFFFFFF#48⟩,
   ⟨"EEND",    0x420000000000#48, 0xFFFFFFFFFFFF#48⟩,
   ⟨"DBEGIN",  0x500000000000#48, 0xFFFFFFFFFFFF#48⟩,
   ⟨"DEC",     0x510000000000#48, 0xFF00FFFFFFFF#48⟩,
   ⟨"DEND",    0x520000000000#48, 0xFFFFFFFFFFFF#48⟩]

/-- The word selects the row (R73). -/
def OpRow.selects (r : OpRow) (w : Word) : Bool := w &&& r.mask == r.pattern

/-- The row of a command. -/
def Instr.mnemonic : Instr → String
  | .nop      => "NOP"
  | .rdstat   => "RDSTAT"
  | .clrerr   => "CLRERR"
  | .fclr     => "FCLR"
  | .count _  => "COUNT"
  | .ldf _ _  => "LDF"
  | .rdfreq _ => "RDFREQ"
  | .build    => "BUILD"
  | .rdnode _ => "RDNODE"
  | .release  => "RELEASE"
  | .gen      => "GEN"
  | .rdcode _ => "RDCODE"
  | .ebegin   => "EBEGIN"
  | .enc _    => "ENC"
  | .eend     => "EEND"
  | .dbegin   => "DBEGIN"
  | .dec _    => "DEC"
  | .dend     => "DEND"

/-! ### The assembler (R85, R86) -/

/-- `sym` or `bitval` in field `a`. -/
def asmByte (n : Nat) : BitVec 8 := BitVec.ofNat 8 n

/-- `COUNTS "text"`: one COUNT per character, in order (R86). -/
def expandCounts (text : List Nat) : List Instr := text.map fun c => .count (asmByte c)

/-- `ENCS "text"`: one ENC per character, in order (R86). -/
def expandEncs (text : List Nat) : List Instr := text.map fun c => .enc (asmByte c)

/-- `DECS "bits"`: one DEC per digit, leftmost first (R86). -/
def expandDecs (bits : List Nat) : List Instr := bits.map fun b => .dec (asmByte b)

/-- The commands a line stands for (R85, R86), its operands taken to fit. -/
def Asm.expand : Asm → List Instr
  | .nop => [.nop]
  | .rdstat => [.rdstat]
  | .clrerr => [.clrerr]
  | .fclr => [.fclr]
  | .count sym => [.count (asmByte sym)]
  | .ldf sym c => [.ldf (asmByte sym) (BitVec.ofNat 32 c)]
  | .rdfreq sym => [.rdfreq (asmByte sym)]
  | .build => [.build]
  | .rdnode h => [.rdnode (BitVec.ofNat 9 h)]
  | .release => [.release]
  | .gen => [.gen]
  | .rdcode sym => [.rdcode (asmByte sym)]
  | .ebegin => [.ebegin]
  | .enc sym => [.enc (asmByte sym)]
  | .eend => [.eend]
  | .dbegin => [.dbegin]
  | .dec v => [.dec (asmByte v)]
  | .dend => [.dend]
  | .counts text => expandCounts text
  | .encs text => expandEncs text
  | .decs bits => expandDecs bits
  | .ldft entries => .fclr :: entries.map fun e => .ldf (asmByte e.1) (BitVec.ofNat 32 e.2)
  | .compress text => .fclr :: expandCounts text ++ [.build, .gen, .ebegin] ++ expandEncs text ++ [.eend]
  | .decompress bits => .dbegin :: expandDecs bits ++ [.dend]

/-- The assembler: the words of a line it accepts, none for a line it rejects (R85). -/
def Asm.assemble (l : Asm) : Option (List Word) :=
  if l.wellFormed then some (l.expand.map encode) else none

end Sys2Proof
end

