-- ==== Sys2Proof/Machine/State.lean ====
section
/-! DEFINITION. The state of the block as plain data (10_state.md R20 to R38), its tokens, its errors, its value
after reset (R37), and the model's own fields beside it: the configuration, the host's coming events and the output
trace. -/

namespace Sys2Proof.Machine

/-- `MODE` (10_state.md R22): no operation, an encode frame, a decode frame, none until reset. -/
inductive Mode where
  | idle | encode | decode | fatal
deriving DecidableEq, Repr

/-- The seven error kinds (60_exceptions.md R210). Their codes are `Error.code`. -/
inductive Error where
  | emptyInput | allocationFailure | unknownSymbol | corruptStream
  | emptyQueue | countOverflow | illegalCommand
deriving DecidableEq, Repr

/-- The `kind` field of a node (10_state.md R27). -/
inductive NodeKind where
  | leaf | internal
deriving DecidableEq, Repr

/-- One entry of the node arena, its five fields (10_state.md R27). -/
structure Node where
  kind  : NodeKind
  sym   : Symbol
  left  : Handle
  right : Handle
  freq  : NodeFreq
deriving DecidableEq, Repr

/-- A token by kind and payload (30_encoding.md R81); the 40-bit word is `Token.word` (log 12). -/
inductive Token where
  /-- The status token: error code, 0 for success. -/
  | st (code : StatusCode)
  /-- One bit of the EncodedStream. -/
  | bit (b : Bool)
  /-- One decoded symbol. -/
  | sym (s : Symbol)
  /-- 32 bits of read-out data. -/
  | data (w : BitVec 32)
deriving DecidableEq, Repr

/-- What the host does next (00_scope.md R6, 70_reset_and_hazards.md R240; log 2, log 8). -/
inductive Event where
  /-- It presents a command word, and takes every token of the answer. -/
  | cmd (w : Word)
  /-- It asserts `rst` between two commands. -/
  | rst
  /-- It presents a command word and asserts `rst` while the command executes, when it has taken `taken` tokens
  of the answer (all but the status token if there are fewer). -/
  | cut (w : Word) (taken : Nat)
deriving DecidableEq, Repr

/-- The arena `NODE` as a list of (handle, entry) pairs, handles strictly rising (`Memory.wf`); it lists the
entries some BUILD has written since reset, and an unlisted handle has no value (log 4). -/
abbrev Memory := List (Nat × Node)

/-- A stop of the model. No run from reset meets one: the spec's invariants exclude the states that do. -/
inductive Fault where
  /-- Raised by a read of `NODE[h]` with `h` not allocated, inside BUILD, GEN or DEC. Such an entry is "unspecified
  and no rule reads it" (10_state.md R27). Safe: the model stops where the spec says no read happens (log 4). -/
  | unallocatedNode (h : Handle)
  /-- Raised by GEN on a path of more than `MAXLEN` edges, which no tree has (42_tree_builder.md R128). Safe: the
  model stops where the spec says no code can be (log 7). -/
  | codeTooLong
deriving DecidableEq, Repr

/-- No meaning for an instruction. -/
inductive Refusal where
  /-- Raised by an arm of `exec` whose instruction has no meaning yet; no arm is left that does. Safe. -/
  | notModelled (mnemonic : String)
deriving DecidableEq, Repr

/-- Why a command's pseudocode ends early: it raises an error (60_exceptions.md R212), or the model stops. -/
inductive Stop where
  | raised  (e : Error)
  | faulted (f : Fault)
deriving DecidableEq, Repr

/-- A piece of a command's pseudocode: it ends with a value, or early. -/
abbrev Proc (α : Type) := Except Stop α

/-- The state. Fields `mode` to `cbits` are the block's (10_state.md R22 to R33); `config`, `pending` and `out` are
the model's own (10_state.md R38, 00_scope.md R8). -/
structure State where
  /-- `MODE` (R22). -/
  mode    : Mode
  /-- `ERR` (R23). -/
  err     : StatusCode
  /-- `ROOT` (R29). -/
  root    : Handle
  /-- `CUR` (R32). -/
  cur     : Handle
  /-- `NALLOC` (R28). -/
  nalloc  : BitVec 9
  /-- `FREQ` (R26). -/
  freq    : Vector Count 256
  /-- `NODE` (R27). -/
  node    : Memory
  /-- `Q`, its members in rising order (R31; log 10). -/
  q       : List Handle
  /-- `CLEN` (R33). -/
  clen    : Vector CodeLen 256
  /-- `CBITS` (R33). -/
  cbits   : Vector CodeBits 256
  /-- `ARENA_SIZE` (00_scope.md R5); no step writes it (log 1). -/
  config  : Config
  /-- What the host does from here on, in order (log 2). -/
  pending : List Event
  /-- `OUT`, every token emitted so far, oldest first (00_scope.md R8; log 3). -/
  out     : List Token
deriving DecidableEq, Repr

/-- The reset values of 10_state.md R37, with the arena at the default size, nothing yet presented by the host and
nothing yet emitted (00_scope.md R8). -/
def State.reset : State where
  mode    := .idle
  err     := 0
  root    := NIL
  cur     := NIL
  nalloc  := 0
  freq    := Vector.replicate 256 0
  node    := []
  q       := []
  clen    := Vector.replicate 256 0
  cbits   := Vector.replicate 256 0
  config  := Config.standard
  pending := []
  out     := []

end Sys2Proof.Machine
end

