-- ==== Sys2Proof/Machine/Flags.lean ====
section
/-! DEFINITION. Codes, flags and status words: the encodings of MODE and of the error codes, the sticky ERR
(10_state.md R23), the derived flags TREE and TABLE (R24) and the two words RDSTAT reads (R25). -/

namespace Sys2Proof.Machine

/-- The value of `MODE` (10_state.md R22). -/
def Mode.bits : Mode → BitVec 2
  | .idle   => 0#2
  | .encode => 1#2
  | .decode => 2#2
  | .fatal  => 3#2

/-- The code of an error (60_exceptions.md R210). -/
def Error.code : Error → StatusCode
  | .emptyInput        => 1#4
  | .allocationFailure => 2#4
  | .unknownSymbol     => 3#4
  | .corruptStream     => 4#4
  | .emptyQueue        => 5#4
  | .countOverflow     => 6#4
  | .illegalCommand    => 7#4

/-- The class of an error: `AllocationFailure` and `EmptyQueue` are fatal, the others recoverable (R210, R213). -/
def Error.fatal : Error → Bool
  | .allocationFailure => true
  | .emptyQueue        => true
  | _                  => false

/-- `if ERR = 0: ERR <- E` (60_exceptions.md R212 step 2): the first error since the last clear stays. -/
def recordError (err : StatusCode) (e : Error) : StatusCode :=
  if err = 0 then e.code else err

/-- The flag `TREE = (ROOT != NIL)` (10_state.md R24). -/
def State.treeFlag (s : State) : Bool := s.root != NIL

/-- The flag `TABLE = (there is a symbol s with CLEN[s] != 0)` (10_state.md R24). -/
def State.tableFlag (s : State) : Bool := s.clen.toList.any (· != 0)

/-- `STATUS0` (10_state.md R25, 47_system.md R201). -/
def State.status0 (s : State) : BitVec 32 :=
  0#6 ++ s.nalloc ++ s.root ++ s.err ++ BitVec.ofBool s.tableFlag ++ BitVec.ofBool s.treeFlag ++ s.mode.bits

/-- `STATUS1` (10_state.md R25, 47_system.md R201). -/
def State.status1 (s : State) : BitVec 32 := 0#23 ++ s.cur

end Sys2Proof.Machine
end

