-- ==== Sys2Proof/Machine/Operands.lean ====
section
/-! DEFINITION. How operands reach the state and how results leave it: symbol-indexed tables (20_memory.md R50,
R52), the recognized bit values of DEC (30_encoding.md R72), a symbol's code read out of the code table
(10_state.md R33), and the words of tokens and nodes (30_encoding.md R80, 42_tree_builder.md R129). -/

namespace Sys2Proof.Machine

/-- `MemRead(M, i)` for a memory indexed by symbol; a symbol index is always in range (20_memory.md R52). -/
def readTable {α : Type} (m : Vector α 256) (s : Symbol) : α := m[s.toNat]'s.isLt

/-- `MemWrite(M, i, v)` for a memory indexed by symbol. -/
def writeTable {α : Type} (m : Vector α 256) (s : Symbol) (v : α) : Vector α 256 := m.set s.toNat v s.isLt

/-- The bit an operand of DEC stands for: 0 and 1 are recognized, 2 to 255 are not (30_encoding.md R72). -/
def recognizedBit (bitval : BitVec 8) : Option Bool :=
  if bitval = 0#8 then some false else if bitval = 1#8 then some true else none

/-- `code(s)`: the bits of `CBITS[s]` from index 0 to `CLEN[s] - 1` (10_state.md R33); empty if `s` has no entry. -/
def State.code (s : State) (sym : Symbol) : List Bool :=
  (List.range (readTable s.clen sym).toNat).map fun i => (readTable s.cbits sym).getLsbD i

/-- The number whose bit `i` is `path[i]`. -/
def pathValue : List Bool → Nat
  | []      => 0
  | b :: bs => b.toNat + 2 * pathValue bs

/-- The entry of `CBITS` for a path: bit `i` is `path[i]`, bits at `|path|` and above are 0 (10_state.md R33). -/
def pathBits (path : List Bool) : CodeBits := BitVec.ofNat 255 (pathValue path)

/-- The symbols in ascending order, `for s = 0 .. 255 ascending` (00_scope.md R11). -/
def symbols : List Symbol := (List.range 256).map (BitVec.ofNat 8)

/-- One bit as the payload of a token, `zext_32`. -/
def bitWord (b : Bool) : BitVec 32 := (BitVec.ofBool b).setWidth 32

/-- The 40-bit word of a token, `{kind, payload}` (30_encoding.md R80, R81). -/
def Token.word : Token → TokenWord
  | .st code => 0x00#8 ++ code.setWidth 32
  | .bit b   => 0x01#8 ++ bitWord b
  | .sym s   => 0x02#8 ++ s.setWidth 32
  | .data w  => 0x03#8 ++ w

/-- The `kind` bit of a node: 0 LEAF, 1 INTERNAL (10_state.md R27). -/
def NodeKind.bit : NodeKind → BitVec 1
  | .leaf     => 0#1
  | .internal => 1#1

/-- `w0 = { kind, 5'b00000, sym, left, right }` (42_tree_builder.md R129). -/
def Node.word0 (n : Node) : BitVec 32 := n.kind.bit ++ 0#5 ++ n.sym ++ n.left ++ n.right

/-- `w1 = freq[31:0]` (42_tree_builder.md R129). -/
def Node.word1 (n : Node) : BitVec 32 := n.freq.extractLsb' 0 32

/-- `w2 = zext_32(freq[39:32])` (42_tree_builder.md R129). -/
def Node.word2 (n : Node) : BitVec 32 := (n.freq.extractLsb' 32 8).setWidth 32

end Sys2Proof.Machine
end

