-- ==== Sys2Proof/Machine/Ops.lean ====
section
/-! DEFINITION. The operations every command is built from: the arena `NODE`, `alloc`, emitting, taking an error
(`raise`, the block's one trap entry), running a command's pseudocode under its mode check, and reset. -/

namespace Sys2Proof.Machine

/-! ### The arena -/

/-- The canonical form of the arena: handles strictly rising. -/
abbrev Memory.wf (m : Memory) : Prop := m.Pairwise fun a b => a.1 < b.1

/-- The entry listed at `h`; an unlisted handle has no value. -/
def Memory.read : Memory → Nat → Option Node
  | [], _ => none
  | (k, n) :: m, h => if h = k then some n else Memory.read m h

/-- Replace or add the entry at `h`, keeping handles rising. -/
def Memory.write : Memory → Nat → Node → Memory
  | [], h, n => [(h, n)]
  | (k, x) :: m, h, n =>
    if h < k then (h, n) :: (k, x) :: m
    else if h = k then (h, n) :: m
    else (k, x) :: Memory.write m h n

/-- `NODE[h]`. Only an allocated entry is read, `h < NALLOC` (20_memory.md R52); the read of another stops (log 4). -/
def readNode (s : State) (h : Handle) : Proc Node :=
  if h.toNat < s.nalloc.toNat then
    match s.node.read h.toNat with
    | some n => .ok n
    | none   => .error (.faulted (.unallocatedNode h))
  else .error (.faulted (.unallocatedNode h))

/-- `NODE[h] <- n`. -/
def writeNode (s : State) (h : Handle) (n : Node) : State := { s with node := s.node.write h.toNat n }

/-- `alloc()` (42_tree_builder.md R121). -/
def alloc (s : State) : Proc (Handle × State) :=
  if s.nalloc.toNat < s.config.arenaSize then .ok (s.nalloc, { s with nalloc := s.nalloc + 1 })
  else .error (.raised .allocationFailure)

/-! ### Emitting -/

/-- `emit`: append tokens to OUT (00_scope.md R11, 30_encoding.md R80). -/
def emit (toks : List Token) (s : State) : State := { s with out := s.out ++ toks }

/-- The answer of a command that succeeds: its own tokens, then `ST(0)` (30_encoding.md R82). -/
def answer (toks : List Token) (s : State) : State := emit (toks ++ [.st 0]) s

/-! ### Taking an error, and what stands for a return -/

/-- Step 3 of `raise` (60_exceptions.md R212): FATAL stays; a fatal error enters FATAL and discards the tree; any
other error in an open frame aborts the frame. -/
def raiseMode (e : Error) (s : State) : State :=
  match s.mode with
  | .fatal => s
  | .idle =>
    if e.fatal then { s with mode := .fatal, root := NIL, nalloc := 0, q := [], cur := NIL } else s
  | .encode | .decode =>
    if e.fatal then { s with mode := .fatal, root := NIL, nalloc := 0, q := [], cur := NIL }
    else { s with mode := .idle, cur := NIL }

/-- `raise E` (60_exceptions.md R212), applied to the state in which the command began, which undoes every write and
drops every token of the command (log 5): record, change the mode, answer `ST(E)`. Nothing is saved but the code and
control goes nowhere, so there is no return from it (R218): the host's next command simply runs, and CLRERR clears
the record (47_system.md R202). -/
def raise (e : Error) (s : State) : State :=
  emit [.st e.code] (raiseMode e { s with err := recordError s.err e })

/-! ### A command -/

/-- Run a command: mode permission (60_exceptions.md R214), then its pseudocode, which ends with the state it leaves
and its tokens, or raises (R216). -/
def command (permitted : List Mode) (body : State → Proc (State × List Token)) (s : State) :
    Host.Outcome State Fault Refusal :=
  if s.mode ∈ permitted then
    match body s with
    | .ok (s', toks)         => .next (answer toks s')
    | .error (.raised e)     => .next (raise e s)
    | .error (.faulted f)    => .fault f
  else .next (raise .illegalCommand s)

/-- `require c else raise E` (00_scope.md R11). -/
def require (c : Prop) [Decidable c] (e : Error) : Proc Unit := if c then .ok () else .error (.raised e)

/-- The rows of R214: IDLE only. -/
def idleOnly : List Mode := [.idle]
/-- The rows of R214: ENCODE only. -/
def encodeOnly : List Mode := [.encode]
/-- The rows of R214: DECODE only. -/
def decodeOnly : List Mode := [.decode]
/-- The rows of R214: every mode but FATAL. -/
def notFatal : List Mode := [.idle, .encode, .decode]
/-- The rows of R214: all four modes. -/
def anyMode : List Mode := [.idle, .encode, .decode, .fatal]

/-! ### Reset -/

/-- `rst` (70_reset_and_hazards.md R240): every element at its reset value. The parameter stays, what the host does
next is the host's, and tokens already taken stay in OUT (00_scope.md R8). -/
def resetBlock (s : State) : State :=
  { State.reset with config := s.config, pending := s.pending, out := s.out }

end Sys2Proof.Machine
end

