-- ==== Sys2Proof/Machine/CodeTable.lean ====
section
/-! DEFINITION. The code table (43_code_generator.md): GEN and RDCODE. -/

namespace Sys2Proof.Machine

/-- The empty table (R140, R143). -/
def clearTable (s : State) : State :=
  { s with clen := Vector.replicate 256 0, cbits := Vector.replicate 256 0 }

/-- `CLEN[sym] <- |path|; CBITS[sym][i] <- path[i]` (R141). -/
def setCode (sym : Symbol) (path : List Bool) (s : State) : State :=
  { s with clen := writeTable s.clen sym (BitVec.ofNat 8 path.length),
           cbits := writeTable s.cbits sym (pathBits path) }

/-- `walk(h, path)` (R141). The first argument bounds the nodes on a path from the root; at `MAXLEN + 1` it admits
every path of at most `MAXLEN` edges, and a longer one stops (log 7). -/
def walk : Nat → Handle → List Bool → State → Proc State
  | 0, _, _, _ => .error (.faulted .codeTooLong)
  | k + 1, h, path, s => do
    let n ← readNode s h
    match n.kind with
    | .leaf => return setCode n.sym path s
    | .internal =>
      let s ← walk k n.left (path ++ [LEFT_BIT]) s
      walk k n.right (path ++ [RIGHT_BIT]) s

/-- The table of the tree, written over the empty table: a single Leaf gets the code `[LEFT_BIT]` (R142). -/
def genTree (s : State) : Proc State := do
  let n ← readNode s s.root
  match n.kind with
  | .leaf => return setCode n.sym [LEFT_BIT] s
  | .internal => walk (MAXLEN + 1) s.root [] s

/-- GEN (R140); an absent root leaves the empty table and is no error (R143). -/
def genBody (s : State) : Proc (State × List Token) :=
  if s.root = NIL then .ok (clearTable s, [])
  else do
    let s ← genTree (clearTable s)
    return (s, [])

/-- GEN (R140). -/
def execGen (s : State) : Host.Outcome State Fault Refusal := command idleOnly genBody s

/-- The tokens of RDCODE: the length, then one word per code bit, root first (R146). -/
def codeTokens (s : State) (sym : Symbol) : List Token :=
  .data ((readTable s.clen sym).setWidth 32) :: (s.code sym).map fun b => .data (bitWord b)

/-- RDCODE (R146); a symbol with no entry reads length 0 and no bits. -/
def execRdcode (sym : Symbol) (s : State) : Host.Outcome State Fault Refusal :=
  command notFatal (fun s => .ok (s, codeTokens s sym)) s

end Sys2Proof.Machine
end

