-- ==== Sys2Proof/Machine/Decoder.lean ====
section
/-! DEFINITION. The decoder (45_decoder.md): DBEGIN, DEC, DEND. -/

namespace Sys2Proof.Machine

/-- DBEGIN (R170): open a decode frame at the root; condition (a), no tree, raises `CorruptStream`. -/
def dbeginBody (s : State) : Proc (State × List Token) := do
  require (s.root ≠ NIL) .corruptStream
  return ({ s with cur := s.root, mode := .decode }, [])

/-- DBEGIN (R170). -/
def execDbegin (s : State) : Host.Outcome State Fault Refusal := command idleOnly dbeginBody s

/-- The child a bit leads to: `LEFT_BIT` left, `RIGHT_BIT` right (R171). -/
def Node.child (n : Node) (b : Bool) : Handle := if b = LEFT_BIT then n.left else n.right

/-- The move of the cursor on a recognized bit (R171): at a Leaf root only `LEFT_BIT` is a code (R176); elsewhere one
edge down, and at a Leaf the symbol leaves and the cursor returns to the root. -/
def moveCursor (b : Bool) (s : State) : Proc (State × List Token) := do
  let n ← readNode s s.cur
  match n.kind with
  | .leaf => do
    require (b = LEFT_BIT) .corruptStream
    return (s, [.sym n.sym])
  | .internal => do
    let m ← readNode s (n.child b)
    match m.kind with
    | .leaf     => return ({ s with cur := s.root }, [.sym m.sym])
    | .internal => return ({ s with cur := n.child b }, [])

/-- DEC (R171); condition (b), an unrecognized bit value, raises `CorruptStream`. -/
def decBody (bitval : BitVec 8) (s : State) : Proc (State × List Token) :=
  match recognizedBit bitval with
  | none   => .error (.raised .corruptStream)
  | some b => moveCursor b s

/-- DEC (R171). -/
def execDec (bitval : BitVec 8) (s : State) : Host.Outcome State Fault Refusal :=
  command decodeOnly (decBody bitval) s

/-- DEND (R172): close the decode frame; condition (c), the cursor inside the tree, raises `CorruptStream`. -/
def dendBody (s : State) : Proc (State × List Token) := do
  require (s.cur = s.root) .corruptStream
  return ({ s with cur := NIL, mode := .idle }, [])

/-- DEND (R172). -/
def execDend (s : State) : Host.Outcome State Fault Refusal := command decodeOnly dendBody s

end Sys2Proof.Machine
end

