-- ==== Sys2Proof/Machine/Encoder.lean ====
section
/-! DEFINITION. The encoder (44_encoder.md): EBEGIN, ENC, EEND. -/

namespace Sys2Proof.Machine

/-- EBEGIN (R155): open an encode frame. -/
def execEbegin (s : State) : Host.Outcome State Fault Refusal :=
  command idleOnly (fun s => .ok ({ s with mode := .encode }, [])) s

/-- ENC (R156): the bits of the symbol's code, root first. -/
def encBody (sym : Symbol) (s : State) : Proc (State × List Token) := do
  require (readTable s.clen sym ≠ 0) .unknownSymbol
  return (s, (s.code sym).map .bit)

/-- ENC (R156). -/
def execEnc (sym : Symbol) (s : State) : Host.Outcome State Fault Refusal := command encodeOnly (encBody sym) s

/-- EEND (R157): close the encode frame. -/
def execEend (s : State) : Host.Outcome State Fault Refusal :=
  command encodeOnly (fun s => .ok ({ s with mode := .idle }, [])) s

end Sys2Proof.Machine
end

