-- ==== Sys2Proof/Machine/Frequency.lean ====
section
/-! DEFINITION. Frequency table commands (40_frequency.md): FCLR, COUNT, LDF, RDFREQ. -/

namespace Sys2Proof.Machine

/-- FCLR (R100): every entry to 0. -/
def execFclr (s : State) : Host.Outcome State Fault Refusal :=
  command idleOnly (fun s => .ok ({ s with freq := Vector.replicate 256 0 }, [])) s

/-- COUNT (R101): plus 1, refused when the counter is at its top. -/
def countBody (sym : Symbol) (s : State) : Proc (State × List Token) := do
  require (readTable s.freq sym ≠ 0xFFFFFFFF#32) .countOverflow
  return ({ s with freq := writeTable s.freq sym (readTable s.freq sym + 1) }, [])

/-- COUNT (R101). -/
def execCount (sym : Symbol) (s : State) : Host.Outcome State Fault Refusal :=
  command idleOnly (countBody sym) s

/-- LDF (R102): load one entry. -/
def execLdf (sym : Symbol) (cnt : Count) (s : State) : Host.Outcome State Fault Refusal :=
  command idleOnly (fun s => .ok ({ s with freq := writeTable s.freq sym cnt }, [])) s

/-- RDFREQ (R103): read one entry. -/
def execRdfreq (sym : Symbol) (s : State) : Host.Outcome State Fault Refusal :=
  command notFatal (fun s => .ok (s, [.data (readTable s.freq sym)])) s

end Sys2Proof.Machine
end

