-- ==== Sys2Proof/Machine/System.lean ====
section
/-! DEFINITION. System commands (47_system.md): NOP, RDSTAT, CLRERR. -/

namespace Sys2Proof.Machine

/-- NOP (R200): only its status token. -/
def execNop (s : State) : Host.Outcome State Fault Refusal :=
  command notFatal (fun s => .ok (s, [])) s

/-- RDSTAT (R201): the two status words; permitted in every mode, FATAL included. -/
def execRdstat (s : State) : Host.Outcome State Fault Refusal :=
  command anyMode (fun s => .ok (s, [.data s.status0, .data s.status1])) s

/-- CLRERR (R202): `ERR <- 0`. -/
def execClrerr (s : State) : Host.Outcome State Fault Refusal :=
  command idleOnly (fun s => .ok ({ s with err := 0 }, [])) s

end Sys2Proof.Machine
end

