-- ==== Sys2Proof/Machine/PriorityQueue.lean ====
section
/-! DEFINITION. The priority queue (41_priority_queue.md R110 to R114): internal procedures that only BUILD calls. -/

namespace Sys2Proof.Machine

/-- A sort key `(NODE[h].freq, h)` (R110). -/
abbrev Key := NodeFreq × Handle

/-- The order of keys: by frequency, then by handle, both unsigned (R110). -/
def keyLt (a b : Key) : Bool :=
  decide (a.1.toNat < b.1.toNat) || (decide (a.1.toNat = b.1.toNat) && decide (a.2.toNat < b.2.toNat))

/-- `Q ∪ {h}` on the rising list of members. -/
def insertMember (h : Handle) : List Handle → List Handle
  | [] => [h]
  | k :: q =>
    if h.toNat < k.toNat then h :: k :: q
    else if h = k then k :: q
    else k :: insertMember h q

/-- `pq_insert(h)` (R111). -/
def pqInsert (h : Handle) (s : State) : State := { s with q := insertMember h s.q }

/-- `pq_size()` (R113). -/
def pqSize (s : State) : Nat := s.q.length

/-- The keys of the members. -/
def keysOf (s : State) : List Handle → Proc (List Key)
  | [] => .ok []
  | h :: hs => do
    let n ← readNode s h
    let ks ← keysOf s hs
    return (n.freq, h) :: ks

/-- The least key of a non-empty list, given as its first and its rest. -/
def leastKey (k : Key) : List Key → Key
  | [] => k
  | k' :: ks => leastKey (if keyLt k' k then k' else k) ks

/-- `pq_extract_min()` (R112): the member with the least key leaves. -/
def pqExtractMin (s : State) : Proc (Handle × State) := do
  let ks ← keysOf s s.q
  match ks with
  | [] => .error (.raised .emptyQueue)
  | k :: ks =>
    let h := (leastKey k ks).2
    return (h, { s with q := s.q.erase h })

end Sys2Proof.Machine
end

