-- ==== Sys2Proof/Machine/Tree.lean ====
section
/-! DEFINITION. The tree: BUILD and RDNODE (42_tree_builder.md), RELEASE (46_tree_lifecycle.md). -/

namespace Sys2Proof.Machine

/-! ### BUILD -/

/-- The Leaf of a symbol (R120 step 1). -/
def leafNode (sym : Symbol) (count : Count) : Node :=
  ⟨.leaf, sym, NIL, NIL, count.setWidth 40⟩

/-- The Internal node over `a`, first extracted, and `b`, second (R120 step 2); the sum fits 40 bits (R130). -/
def internalNode (a b : Handle) (na nb : Node) : Node :=
  ⟨.internal, 0, a, b, na.freq + nb.freq⟩

/-- `h <- alloc(); NODE[h] <- n; pq_insert(h)`. -/
def addNode (n : Node) (s : State) : Proc State := do
  let (h, s) ← alloc s
  return pqInsert h (writeNode s h n)

/-- Step 1 of R120: one Leaf per symbol with a count above 0, in the order of the list. -/
def leafLoop : List Symbol → State → Proc State
  | [], s => .ok s
  | sym :: syms, s =>
    if readTable s.freq sym = 0 then leafLoop syms s
    else do
      let s ← addNode (leafNode sym (readTable s.freq sym)) s
      leafLoop syms s

/-- One pass of step 2 of R120: the two least leave, their parent enters. -/
def mergeOnce (s : State) : Proc State := do
  let (a, s) ← pqExtractMin s
  let (b, s) ← pqExtractMin s
  let na ← readNode s a
  let nb ← readNode s b
  addNode (internalNode a b na nb) s

/-- Step 2 of R120, `while pq_size() > 1`. Each pass lowers the size by one (R126), so a bound of the size at entry
never cuts the loop short. -/
def mergeLoop : Nat → State → Proc State
  | 0, s => .ok s
  | n + 1, s =>
    if 1 < pqSize s then do
      let s ← mergeOnce s
      mergeLoop n s
    else .ok s

/-- Some symbol has a count above 0. -/
def State.hasSymbol (s : State) : Bool := s.freq.toList.any (· != 0)

/-- BUILD (R120). -/
def buildBody (s : State) : Proc (State × List Token) := do
  require (s.root = NIL) .illegalCommand
  require (s.hasSymbol = true) .emptyInput
  let s ← leafLoop symbols s
  let s ← mergeLoop (pqSize s) s
  let (h, s) ← pqExtractMin s
  return ({ s with root := h }, [])

/-- BUILD (R120). -/
def execBuild (s : State) : Host.Outcome State Fault Refusal := command idleOnly buildBody s

/-! ### RDNODE -/

/-- RDNODE (R129): three words of an allocated entry. -/
def rdnodeBody (h : Handle) (s : State) : Proc (State × List Token) := do
  require (h.toNat < s.nalloc.toNat) .illegalCommand
  let n ← readNode s h
  return (s, [.data n.word0, .data n.word1, .data n.word2])

/-- RDNODE (R129). -/
def execRdnode (h : Handle) (s : State) : Host.Outcome State Fault Refusal := command notFatal (rdnodeBody h) s

/-! ### RELEASE -/

/-- RELEASE (46_tree_lifecycle.md R190), as the two assignments R191 says a model may use; node fields are left as
they are and become unreadable (log 6). -/
def releaseTree (s : State) : State :=
  if s.root = NIL then s else { s with root := NIL, nalloc := 0 }

/-- RELEASE (R190). -/
def execRelease (s : State) : Host.Outcome State Fault Refusal :=
  command idleOnly (fun s => .ok (releaseTree s, [])) s

end Sys2Proof.Machine
end

