-- ==== Sys2Proof/Machine/Dispatch.lean ====
section
/-! DEFINITION. The execution of one command whose encoding is legal (30_encoding.md R76): one arm per constructor. -/

namespace Sys2Proof.Machine

def exec (i : Instr) (s : State) : Host.Outcome State Fault Refusal :=
  match i with
  | .nop => Sys2Proof.Machine.execNop s
  | .rdstat => Sys2Proof.Machine.execRdstat s
  | .clrerr => Sys2Proof.Machine.execClrerr s
  | .fclr => Sys2Proof.Machine.execFclr s
  | .count sym => Sys2Proof.Machine.execCount sym s
  | .ldf sym cnt => Sys2Proof.Machine.execLdf sym cnt s
  | .rdfreq sym => Sys2Proof.Machine.execRdfreq sym s
  | .build => Sys2Proof.Machine.execBuild s
  | .rdnode h => Sys2Proof.Machine.execRdnode h s
  | .release => Sys2Proof.Machine.execRelease s
  | .gen => Sys2Proof.Machine.execGen s
  | .rdcode sym => Sys2Proof.Machine.execRdcode sym s
  | .ebegin => Sys2Proof.Machine.execEbegin s
  | .enc sym => Sys2Proof.Machine.execEnc sym s
  | .eend => Sys2Proof.Machine.execEend s
  | .dbegin => Sys2Proof.Machine.execDbegin s
  | .dec v => Sys2Proof.Machine.execDec v s
  | .dend => Sys2Proof.Machine.execDend s

end Sys2Proof.Machine
end

