-- ==== Sys2Proof/Machine/HostPort.lean ====
section
/-! DEFINITION. The ports (00_scope.md R6, R7): a command word is decoded and executed, reset lands between commands
or inside one (70_reset_and_hazards.md R240). -/

namespace Sys2Proof.Machine

/-- Accept one command word: a reserved encoding raises `IllegalCommand` in every mode and does nothing else
(30_encoding.md R77, 60_exceptions.md R216); any other word is its command. -/
def runWord (w : Word) (s : State) : Host.Outcome State Fault Refusal :=
  match decode w with
  | .ok i    => exec i s
  | .error _ => .next (raise .illegalCommand s)

/-- The tokens emitted between two states of one run. -/
def tokensSince (s s' : State) : List Token := s'.out.drop s.out.length

/-- A command that reset cuts (R240): the host has taken `k` of its tokens, or all but the status token if there are
fewer; "its remaining tokens, its `ST` token included, are never emitted"; then every element is at reset (log 8). -/
def cutWord (w : Word) (k : Nat) (s : State) : Host.Outcome State Fault Refusal :=
  match runWord w s with
  | .next s'   => .next (emit ((tokensSince s s').dropLast.take k) (resetBlock s))
  | .fault f   => .fault f
  | .refused r => .refused r

/-- What one event of the host does to the block. -/
def runEvent (e : Event) (s : State) : Host.Outcome State Fault Refusal :=
  match e with
  | .cmd w   => runWord w s
  | .rst     => .next (resetBlock s)
  | .cut w k => cutWord w k s

/-- The host's next event is used up (10_state.md R21: the host's index goes up by one, whatever the status). -/
def takeEvent (rest : List Event) (s : State) : State := { s with pending := rest }

/-- Present a word before everything the host was going to do. -/
def presentWord (w : Word) (s : State) : State := { s with pending := .cmd w :: s.pending }

end Sys2Proof.Machine
end

