-- ==== Sys2Proof/Machine/Step.lean ====
section
/-! DEFINITION. One step: the whole effect of the host's next event (00_scope.md R6), or, when the host does
nothing, the block waits and keeps all state (60_exceptions.md R220; log 2). -/

namespace Sys2Proof.Machine

/-- One step of the block. -/
def step (s : State) : Host.Outcome State Fault Refusal :=
  match s.pending with
  | []        => .next s
  | e :: rest => runEvent e (takeEvent rest s)

/-- The state in which the host presents the 48-bit word `w` next (log 2, log 11). -/
def State.withFetchWord (s : State) (_nbits w : Nat) : State := presentWord (BitVec.ofNat 48 w) s

end Sys2Proof.Machine
end

