-- ==== Sys2Proof/Safety.lean ====
section
/-! DEFINITION. The terms claims are stated in: the permission table (60_exceptions.md R214), which unit owns which
command (00_scope.md R2), the invariants of the tree, the cursor and the code table (10_state.md R30, R34, 45_decoder.md
R177), what a safe state is, and the frames of a run with their results (44_encoder.md R159, 45_decoder.md R173). -/

namespace Sys2Proof.Machine

/-! ### Modes, units and errors -/

/-- The permission table, row by row (60_exceptions.md R214). -/
def permits : Instr → Mode → Bool
  | .nop,      m => m != .fatal
  | .rdstat,   _ => true
  | .clrerr,   m => m == .idle
  | .fclr,     m => m == .idle
  | .count _,  m => m == .idle
  | .ldf _ _,  m => m == .idle
  | .rdfreq _, m => m != .fatal
  | .rdnode _, m => m != .fatal
  | .rdcode _, m => m != .fatal
  | .build,    m => m == .idle
  | .release,  m => m == .idle
  | .gen,      m => m == .idle
  | .ebegin,   m => m == .idle
  | .enc _,    m => m == .encode
  | .eend,     m => m == .encode
  | .dbegin,   m => m == .idle
  | .dec _,    m => m == .decode
  | .dend,     m => m == .decode

/-- The units of the block (00_scope.md R2). -/
inductive HwUnit where
  | treeBuilder | encoder | decoder | frontEnd
deriving DecidableEq, Repr

/-- The unit that executes a command (00_scope.md R2). -/
def unitOf : Instr → HwUnit
  | .fclr     => .treeBuilder
  | .count _  => .treeBuilder
  | .ldf _ _  => .treeBuilder
  | .rdfreq _ => .treeBuilder
  | .build    => .treeBuilder
  | .rdnode _ => .treeBuilder
  | .release  => .treeBuilder
  | .gen      => .treeBuilder
  | .rdcode _ => .treeBuilder
  | .enc _    => .encoder
  | .dec _    => .decoder
  | .nop      => .frontEnd
  | .rdstat   => .frontEnd
  | .clrerr   => .frontEnd
  | .ebegin   => .frontEnd
  | .eend     => .frontEnd
  | .dbegin   => .frontEnd
  | .dend     => .frontEnd

/-- The errors a command can raise, its mode error included (60_exceptions.md R211). RDSTAT raises only on a reserved
encoding, where no command is executed. -/
def errorsOf : Instr → List Error
  | .nop      => [.illegalCommand]
  | .rdstat   => []
  | .clrerr   => [.illegalCommand]
  | .fclr     => [.illegalCommand]
  | .count _  => [.illegalCommand, .countOverflow]
  | .ldf _ _  => [.illegalCommand]
  | .rdfreq _ => [.illegalCommand]
  | .build    => [.illegalCommand, .emptyInput, .allocationFailure, .emptyQueue]
  | .rdnode _ => [.illegalCommand]
  | .release  => [.illegalCommand]
  | .gen      => [.illegalCommand]
  | .rdcode _ => [.illegalCommand]
  | .ebegin   => [.illegalCommand]
  | .enc _    => [.illegalCommand, .unknownSymbol]
  | .eend     => [.illegalCommand]
  | .dbegin   => [.illegalCommand, .corruptStream]
  | .dec _    => [.illegalCommand, .corruptStream]
  | .dend     => [.illegalCommand, .corruptStream]

/-- The commands that only read state out (20_memory.md R56), and NOP, which reads nothing. -/
def readsOnly : Instr → Bool
  | .nop      => true
  | .rdstat   => true
  | .rdfreq _ => true
  | .rdnode _ => true
  | .rdcode _ => true
  | _         => false

/-! ### The tree -/

/-- `NODE[h]`, if `h` is allocated (10_state.md R28) and the entry is listed. -/
def State.nodeAt (s : State) (h : Handle) : Option Node :=
  if h.toNat < s.nalloc.toNat then s.node.read h.toNat else none

/-- `h` is the child of the Internal node `p` on the side `b`. -/
def isChild (s : State) (p : Handle) (b : Bool) (h : Handle) : Prop :=
  ∃ nd, s.nodeAt p = some nd ∧ nd.kind = .internal ∧ nd.child b = h

/-- A tree with `n` leaves is present and well formed: the second alternative of 10_state.md R30, (a) to (e). -/
structure TreePresent (s : State) (n : Nat) : Prop where
  /-- (a) -/
  leafCount : 1 ≤ n ∧ n ≤ 256
  /-- (a) -/
  size : s.nalloc.toNat = 2 * n - 1
  /-- (a) -/
  rootLast : s.root.toNat = s.nalloc.toNat - 1
  /-- (b), with the fixed fields of a Leaf (10_state.md R27) -/
  leaves : ∀ h : Handle, h.toNat < n → ∃ nd, s.nodeAt h = some nd ∧ nd.kind = .leaf ∧ nd.left = NIL ∧ nd.right = NIL
  /-- (b) -/
  rising : ∀ (h h' : Handle) (nd nd' : Node), h.toNat < h'.toNat → h'.toNat < n →
    s.nodeAt h = some nd → s.nodeAt h' = some nd' → nd.sym.toNat < nd'.sym.toNat
  /-- (c), with the fixed field of an Internal node (10_state.md R27) -/
  internals : ∀ p : Handle, n ≤ p.toNat → p.toNat < s.nalloc.toNat → ∃ nd, s.nodeAt p = some nd ∧
    nd.kind = .internal ∧ nd.sym = 0 ∧ nd.left.toNat < p.toNat ∧ nd.right.toNat < p.toNat ∧ nd.left ≠ nd.right
  /-- (d) -/
  oneParent : ∀ h : Handle, h.toNat < s.nalloc.toNat → h ≠ s.root →
    ∃ (p : Handle) (b : Bool), isChild s p b h ∧ ∀ p' b', isChild s p' b' h → p' = p ∧ b' = b
  /-- (e) -/
  sums : ∀ (p : Handle) (nd : Node), s.nodeAt p = some nd → nd.kind = .internal →
    ∃ x y, s.nodeAt nd.left = some x ∧ s.nodeAt nd.right = some y ∧ nd.freq.toNat = x.freq.toNat + y.freq.toNat
  /-- (e) -/
  positive : ∀ (h : Handle) (nd : Node), s.nodeAt h = some nd → 1 ≤ nd.freq.toNat

/-- No tree: the first alternative of 10_state.md R30. -/
def TreeAbsent (s : State) : Prop := s.root = NIL ∧ s.nalloc = 0

/-- The tree invariant (10_state.md R30). -/
def TreeInv (s : State) : Prop := TreeAbsent s ∨ ∃ n, TreePresent s n

/-- Where a sequence of edge bits leads from a node: each bit goes down one edge of an Internal node. -/
def follow (s : State) : Handle → List Bool → Option Handle
  | h, [] => some h
  | h, b :: bs =>
    match s.nodeAt h with
    | some nd => if nd.kind = .internal then follow s (nd.child b) bs else none
    | none => none

/-- `path` is the code of `sym` in the tree of `s`: the edge bits from the root to the Leaf of `sym`, or `[LEFT_BIT]`
when the root is that Leaf (43_code_generator.md R141, R142). -/
def IsCode (s : State) (sym : Symbol) (path : List Bool) : Prop :=
  ∃ h nd, s.nodeAt h = some nd ∧ nd.kind = .leaf ∧ nd.sym = sym ∧
    if h = s.root then path = [LEFT_BIT] else follow s s.root path = some h

/-- The number of distinct symbols: those with a count above 0 (00_scope.md R12). -/
def State.distinct (s : State) : Nat := (symbols.filter fun x => readTable s.freq x != 0).length

/-- The Leaf nodes are the distinct symbols of the frequency table `f`, each with its count (42_tree_builder.md R120
step 1). -/
structure LeavesOf (f : Vector Count 256) (s : State) : Prop where
  counted : ∀ h nd, s.nodeAt h = some nd → nd.kind = .leaf →
    readTable f nd.sym ≠ 0 ∧ nd.freq.toNat = (readTable f nd.sym).toNat
  present : ∀ x, readTable f x ≠ 0 → ∃ h nd, s.nodeAt h = some nd ∧ nd.kind = .leaf ∧ nd.sym = x

/-- When the Internal node `p` was made, `h` was in the queue: older than `p` and not yet the child of a node older
than `p`. -/
def queuedAt (s : State) (p h : Handle) : Prop :=
  h.toNat < p.toNat ∧ ∀ p' b, p'.toNat < p.toNat → ¬ isChild s p' b h

/-- The key of `h` is below the key of `k` (41_priority_queue.md R110). -/
def keyBelow (s : State) (h k : Handle) : Prop :=
  ∃ x y, s.nodeAt h = some x ∧ s.nodeAt k = some y ∧
    (x.freq.toNat < y.freq.toNat ∨ (x.freq.toNat = y.freq.toNat ∧ h.toNat < k.toNat))

/-- Every Internal node joins the two members of least key of the queue as it was then, the least on the left
(42_tree_builder.md R120 step 2). -/
def GreedyMerge (s : State) : Prop :=
  ∀ p nd, s.nodeAt p = some nd → nd.kind = .internal →
    queuedAt s p nd.left ∧ queuedAt s p nd.right ∧ keyBelow s nd.left nd.right ∧
    ∀ h, queuedAt s p h → h ≠ nd.left → h ≠ nd.right → keyBelow s nd.right h

/-- The sum of all counters. -/
def State.total (s : State) : Nat := (symbols.map fun x => (readTable s.freq x).toNat).sum

/-! ### The code table -/

/-- The empty table. -/
def EmptyTable (s : State) : Prop := ∀ x, readTable s.clen x = 0 ∧ readTable s.cbits x = 0

/-- The table of `s` is the one GEN computes from the tree of `t` (43_code_generator.md R140 to R142): the symbols on
its leaves have their codes, no other symbol has an entry, unused bits are 0 (10_state.md R33). -/
structure TableOf (t s : State) : Prop where
  codes  : ∀ x, readTable s.clen x ≠ 0 → IsCode t x (s.code x)
  leaves : ∀ h nd, t.nodeAt h = some nd → nd.kind = .leaf → readTable s.clen nd.sym ≠ 0
  unused : ∀ x i, (readTable s.clen x).toNat ≤ i → (readTable s.cbits x).getLsbD i = false

/-- The code table invariant (10_state.md R34): empty, or computed from some well-formed tree. -/
def TableInv (s : State) : Prop := EmptyTable s ∨ ∃ t n, TreePresent t n ∧ TableOf t s

/-! ### Safe states -/

/-- The cursor invariant (45_decoder.md R177, 10_state.md R32). -/
def CursorInv (s : State) : Prop :=
  if s.mode = .decode then
    s.cur.toNat < s.nalloc.toNat ∧ (s.cur = s.root ∨ ∃ nd, s.nodeAt s.cur = some nd ∧ nd.kind = .internal)
  else s.cur = NIL

/-- What holds at every point between two commands without looking into the tree. -/
structure ControlInv (s : State) : Prop where
  /-- "Values 8 to 15 never occur" (10_state.md R23). -/
  err : s.err.toNat ≤ 7
  /-- `NALLOC` is in range (10_state.md R28). -/
  nalloc : s.nalloc.toNat ≤ s.config.arenaSize
  /-- `Q` is empty (10_state.md R31). -/
  queue : s.q = []
  /-- Outside a decode frame `CUR` is NIL (10_state.md R32). -/
  cursor : s.mode ≠ .decode → s.cur = NIL
  /-- In FATAL the tree is discarded and an error is on record (60_exceptions.md R212, R213). -/
  fatal : s.mode = .fatal → s.root = NIL ∧ s.nalloc = 0 ∧ s.err ≠ 0
  /-- The arena is in its canonical form. -/
  nodeForm : s.node.wf
  /-- Every listed entry exists: handles run from 0 to `ARENA_SIZE - 1` (10_state.md R27). -/
  nodeRange : ∀ c ∈ s.node, c.1 < s.config.arenaSize

/-- A safe state: every invariant the spec states of the points between two commands. -/
structure SafeState (s : State) : Prop where
  control : ControlInv s
  tree    : TreeInv s
  cursor  : CursorInv s
  table   : TableInv s

/-! ### Runs and frames -/

/-- One event of the host and the tokens it took during it. -/
structure Exchange where
  event    : Event
  response : List Token
deriving DecidableEq, Repr

/-- The events of a host, one after the other: what was answered, and the state that is left. None if the model
stopped. -/
def runEvents : List Event → State → Option (List Exchange × State)
  | [], s => some ([], s)
  | e :: es, s =>
    match runEvent e s with
    | .next s' => (runEvents es s').map fun r => (⟨e, tokensSince s s'⟩ :: r.1, r.2)
    | .fault _ => none
    | .refused _ => none

/-- The words of some commands as events. -/
def asEvents (is : List Instr) : List Event := is.map fun i => .cmd (encode i)

/-- The exchange is a command answered `ST(0)`; a reset, or a command cut by one, is not. -/
def Exchange.accepted (x : Exchange) : Bool :=
  match x.event with
  | .cmd _ => x.response.getLast? == some (.st 0)
  | .rst => false
  | .cut _ _ => false

/-- The exchanges before the first closing command, if everything up to and including it was answered `ST(0)`; none
if the frame is aborted, cut by reset, or still open. -/
def untilClosed (close : Instr) : List Exchange → Option (List Exchange)
  | [] => none
  | x :: xs =>
    if x.accepted then
      if x.event = .cmd (encode close) then some [] else (untilClosed close xs).map (x :: ·)
    else none

/-- A committed frame at the head of a transcript: an opening command answered `ST(0)`, then everything up to and
including the first closing command answered `ST(0)` (44_encoder.md R159, 45_decoder.md R173). -/
def committedFrame (opening close : Instr) : List Exchange → Option (List Exchange)
  | [] => none
  | x :: xs => if x.accepted ∧ x.event = .cmd (encode opening) then untilClosed close xs else none

/-- The payload of a `BIT` token. -/
def Token.bit? : Token → Option Bool
  | .bit b => some b
  | _ => none

/-- The payload of a `SYM` token. -/
def Token.sym? : Token → Option Symbol
  | .sym s => some s
  | _ => none

/-- The EncodedStream of the encode frame at the head of a transcript (44_encoder.md R159). -/
def encodedStream (t : List Exchange) : Option (List Bool) :=
  (committedFrame .ebegin .eend t).map fun xs => xs.flatMap fun x => x.response.filterMap Token.bit?

/-- The decoded output of the decode frame at the head of a transcript (45_decoder.md R173). -/
def decodedOutput (t : List Exchange) : Option (List Symbol) :=
  (committedFrame .dbegin .dend t).map fun xs => xs.flatMap fun x => x.response.filterMap Token.sym?

/-- One DEC per bit. -/
def decCommands (bits : List Bool) : List Instr := bits.map fun b => .dec (if b then 1 else 0)

/-- `COMPRESS I` (30_encoding.md R86): the counting part, and the encode frame. -/
def compressCommands (input : List Symbol) : List Instr :=
  .fclr :: input.map .count ++ [.build, .gen] ++ .ebegin :: input.map .enc ++ [.eend]

/-- `DECOMPRESS E` (30_encoding.md R86). -/
def decompressCommands (bits : List Bool) : List Instr := .dbegin :: decCommands bits ++ [.dend]

end Sys2Proof.Machine
end

