-- ==== Sys2Proof/Certificates/Slice0/Obligations.lean ====
section
/-! DEFINITION. The statements for the provers. Each says in its docstring which rule of spec/ it formalises. A
conclusion `exec i s = .next { s with … }` names every field that may change, so it states the frame as well. -/

open Sys2Proof Sys2Proof.Machine

/-! ### Encoding -/

/-- Decode and encode agree on every command and every operand value (30_encoding.md R70 to R73, R76). -/
def Obligations.DecodeOfEncodeIsTheCommand : Prop :=
  ∀ i : Instr, decode (encode i) = .ok i

/-- R73, R76: decoding is total. A word that decodes to a command is the encoding of that command, so each word has one
meaning, and it selects the command's row; no word selects two rows; the words that select no row are the reserved
ones. -/
def Obligations.DecodingIsTheOpcodeMap : Prop :=
  (∀ w i, decode w = .ok i → encode i = w ∧ ∃ r ∈ opcodeTable, r.mnemonic = i.mnemonic ∧ r.selects w = true) ∧
  (∀ w, ∀ r ∈ opcodeTable, ∀ r' ∈ opcodeTable, r.selects w = true → r'.selects w = true → r = r') ∧
  (∀ w, (∀ r ∈ opcodeTable, r.selects w = false) ↔ ∃ e, decode w = .error e)

/-- Words written out from the encodings of R70 and R76, one or more of each family. -/
def Obligations.WrittenOutWordsDecode : Prop :=
  decode 0x010000000000#48 = .ok .rdstat ∧
  decode 0x116100000000#48 = .ok (.count 0x61) ∧
  decode 0x126200000005#48 = .ok (.ldf 0x62 5) ∧
  decode 0x210000000004#48 = .ok (.rdnode 4) ∧
  decode 0x220000000000#48 = .ok .release ∧
  decode 0x31FF00000000#48 = .ok (.rdcode 0xFF) ∧
  decode 0x416400000000#48 = .ok (.enc 0x64) ∧
  decode 0x510200000000#48 = .ok (.dec 2) ∧
  decode 0x510000000001#48 = .error (.field 0x51) ∧
  decode 0x030000000000#48 = .error (.opcode 0x03)

/-- R80, R81: the kind byte and the payload of a token's word, by the kind of the token. -/
def Obligations.TokenWordsHaveTheirKinds : Prop :=
  (∀ c : StatusCode, (Token.word (.st c)).toNat = c.toNat) ∧
  (∀ b : Bool, (Token.word (.bit b)).toNat = 0x01 * 2 ^ 32 + b.toNat) ∧
  (∀ x : Symbol, (Token.word (.sym x)).toNat = 0x02 * 2 ^ 32 + x.toNat) ∧
  (∀ w : BitVec 32, (Token.word (.data w)).toNat = 0x03 * 2 ^ 32 + w.toNat)

/-- R85, R86: the assembler on every command and every pseudo-instruction, operands as the numbers written. A command
without operand is its word of format Z; a line whose operands fit is its words, `sym` and `bitval` in field `a`,
`count` and `handle` in field `d`, zero elsewhere, DEC of 2 to 255 among them; a pseudo-instruction whose elements fit is
the words of its expansion, in order; a line with an operand or an element that does not fit is rejected. A text is the
values of its characters. -/
def Obligations.AssemblerPlacesOperands : Prop :=
  (Asm.nop.assemble = some [0x000000000000#48] ∧ Asm.rdstat.assemble = some [0x010000000000#48] ∧
    Asm.clrerr.assemble = some [0x020000000000#48] ∧ Asm.fclr.assemble = some [0x100000000000#48] ∧
    Asm.build.assemble = some [0x200000000000#48] ∧ Asm.release.assemble = some [0x220000000000#48] ∧
    Asm.gen.assemble = some [0x300000000000#48] ∧ Asm.ebegin.assemble = some [0x400000000000#48] ∧
    Asm.eend.assemble = some [0x420000000000#48] ∧ Asm.dbegin.assemble = some [0x500000000000#48] ∧
    Asm.dend.assemble = some [0x520000000000#48]) ∧
  (∀ x, x ≤ 255 →
    (Asm.count x).assemble = some [packWord 0x11#8 (BitVec.ofNat 8 x) 0#32] ∧
    (Asm.rdfreq x).assemble = some [packWord 0x13#8 (BitVec.ofNat 8 x) 0#32] ∧
    (Asm.rdcode x).assemble = some [packWord 0x31#8 (BitVec.ofNat 8 x) 0#32] ∧
    (Asm.enc x).assemble = some [packWord 0x41#8 (BitVec.ofNat 8 x) 0#32] ∧
    (Asm.dec x).assemble = some [packWord 0x51#8 (BitVec.ofNat 8 x) 0#32]) ∧
  (∀ x c, x ≤ 255 → c ≤ 2 ^ 32 - 1 →
    (Asm.ldf x c).assemble = some [packWord 0x12#8 (BitVec.ofNat 8 x) (BitVec.ofNat 32 c)]) ∧
  (∀ h, h ≤ 511 → (Asm.rdnode h).assemble = some [packWord 0x21#8 0#8 (BitVec.ofNat 32 h)]) ∧
  (∀ x, 255 < x → (Asm.count x).assemble = none ∧ (Asm.rdfreq x).assemble = none ∧ (Asm.rdcode x).assemble = none ∧
    (Asm.enc x).assemble = none ∧ (Asm.dec x).assemble = none) ∧
  (∀ x c, 255 < x ∨ 2 ^ 32 - 1 < c → (Asm.ldf x c).assemble = none) ∧
  (∀ h, 511 < h → (Asm.rdnode h).assemble = none) ∧
  (∀ text : List Nat, (∀ c ∈ text, c ≤ 255) →
    (Asm.counts text).assemble = some (text.map fun c => packWord 0x11#8 (BitVec.ofNat 8 c) 0#32) ∧
    (Asm.encs text).assemble = some (text.map fun c => packWord 0x41#8 (BitVec.ofNat 8 c) 0#32) ∧
    (Asm.compress text).assemble = some ([0x100000000000#48] ++
      text.map (fun c => packWord 0x11#8 (BitVec.ofNat 8 c) 0#32) ++
      [0x200000000000#48, 0x300000000000#48, 0x400000000000#48] ++
      text.map (fun c => packWord 0x41#8 (BitVec.ofNat 8 c) 0#32) ++ [0x420000000000#48])) ∧
  (∀ bits : List Nat, (∀ b ∈ bits, b ≤ 1) →
    (Asm.decs bits).assemble = some (bits.map fun b => packWord 0x51#8 (BitVec.ofNat 8 b) 0#32) ∧
    (Asm.decompress bits).assemble = some ([0x500000000000#48] ++
      bits.map (fun b => packWord 0x51#8 (BitVec.ofNat 8 b) 0#32) ++ [0x520000000000#48])) ∧
  (∀ entries : List (Nat × Nat), (∀ e ∈ entries, e.1 ≤ 255 ∧ e.2 ≤ 2 ^ 32 - 1) →
    (Asm.ldft entries).assemble = some (0x100000000000#48 ::
      entries.map fun e => packWord 0x12#8 (BitVec.ofNat 8 e.1) (BitVec.ofNat 32 e.2))) ∧
  (∀ text : List Nat, (∃ c ∈ text, 255 < c) →
    (Asm.counts text).assemble = none ∧ (Asm.encs text).assemble = none ∧ (Asm.compress text).assemble = none) ∧
  (∀ bits : List Nat, (∃ b ∈ bits, 1 < b) → (Asm.decs bits).assemble = none ∧ (Asm.decompress bits).assemble = none) ∧
  (∀ entries : List (Nat × Nat), (∃ e ∈ entries, 255 < e.1 ∨ 2 ^ 32 - 1 < e.2) → (Asm.ldft entries).assemble = none)

/-! ### Steps -/

/-- A step runs the decoded command (00_scope.md R6, 30_encoding.md R73): when the word the host presents decodes to
`i`, the step is `exec i`, with that word used up. That the host's coming words stand in State is the model's choice
(log 2). -/
def Obligations.StepRunsTheDecodedCommand : Prop :=
  ∀ (s : State) (w : Word) (rest : List Event) (i : Instr),
    s.pending = .cmd w :: rest → decode w = .ok i → step s = exec i { s with pending := rest }

/-- R77: a word that selects no row of the opcode map is reserved. It is answered `ST(7)` in every mode, records its
error if none is on record, aborts an open frame, and does nothing else. -/
def Obligations.ReservedWordIsIllegal : Prop :=
  ∀ (s : State) (w : Word) (rest : List Event),
    s.pending = .cmd w :: rest → (∀ r ∈ opcodeTable, r.selects w = false) →
    step s = .next { s with
      pending := rest
      err  := if s.err = 0 then 7 else s.err
      mode := if s.mode = .encode ∨ s.mode = .decode then .idle else s.mode
      cur  := if s.mode = .encode ∨ s.mode = .decode then NIL else s.cur
      out  := s.out ++ [.st 7] }

/-- When the host presents nothing the block waits and keeps all state (60_exceptions.md R220). That an empty list of
events is a host that presents nothing is the model's choice (log 2). -/
def Obligations.BlockWaitsForTheHost : Prop :=
  ∀ s : State, s.pending = [] → step s = .next s

/-- R37: the reset values. NODE is unreadable, so nothing is said of its fields. -/
def Obligations.ResetValues : Prop :=
  State.reset.mode = .idle ∧ State.reset.err = 0 ∧ State.reset.root = NIL ∧ State.reset.cur = NIL ∧
  State.reset.nalloc = 0 ∧ State.reset.q = [] ∧
  (∀ x, readTable State.reset.freq x = 0) ∧ (∀ x, readTable State.reset.clen x = 0) ∧
  (∀ x, readTable State.reset.cbits x = 0) ∧ (∀ h, State.reset.nodeAt h = none) ∧
  State.reset.status0 = 0x0001FF00#32 ∧ State.reset.status1 = 0x000001FF#32

/-- R240: `rst` between commands brings every element to its reset value from any mode, FATAL included. Tokens already
emitted stay in OUT (00_scope.md R8, log 3). That the arena is emptied is the model's choice (log 4): its entries are
unreadable either way. -/
def Obligations.ResetEventRestoresResetValues : Prop :=
  ∀ (s : State) (rest : List Event), s.pending = .rst :: rest →
    step s = .next { State.reset with config := s.config, pending := rest, out := s.out }

/-- R240: a command that reset cuts emits a beginning of its answer without the status token, and leaves every element
at its reset value. That the event says how many tokens were taken, at most all but the status token, is the model's
choice (log 8). -/
def Obligations.ResetCutsACommand : Prop :=
  ∀ (s : State) (w : Word) (k : Nat) (rest : List Event) (u : State),
    s.pending = .cut w k :: rest → runWord w { s with pending := rest } = .next u →
    ∃ toks more c, u.out = s.out ++ toks ++ more ++ [.st c] ∧ toks.length ≤ k ∧ (more = [] ∨ toks.length = k) ∧
      step s = .next { State.reset with config := s.config, pending := rest, out := s.out ++ toks }

/-- A run over the host's list of events is the run of the step: as many steps as there are events, each using up one.
R21 keeps the command sequence and its index in the host, where the index goes up by one for each accepted command
whatever its status. That the coming events stand in State as a list, the used-up head being that index, is the model's
choice (log 2), and so is the event of a reset inside a command (log 8). -/
def Obligations.StepsUseUpTheHostsEvents : Prop :=
  ∀ (es : List Event) (s u : State) (t : List Exchange) (rest : List Event),
    runEvents es s = some (t, u) →
    Sys2Proof.core.run es.length { s with pending := es ++ rest } = .next { u with pending := rest }

/-! ### System commands -/

/-- R200: NOP is the all-zero word and no other. It answers `ST(0)` and changes nothing in IDLE, ENCODE and DECODE, and in
FATAL it raises `IllegalCommand`. -/
def Obligations.NopDoesNothing : Prop :=
  (∀ w : Word, decode w = .ok .nop ↔ w = 0x000000000000#48) ∧
  ∀ s : State,
    (s.mode ≠ .fatal → exec .nop s = .next { s with out := s.out ++ [.st 0] }) ∧
    (s.mode = .fatal → exec .nop s = .next (raise .illegalCommand s))

/-- R201: RDSTAT reads the two status words in every mode and changes nothing. The words are given by their fields. -/
def Obligations.RdstatReadsTheStatusWords : Prop :=
  decode 0x010000000000#48 = .ok .rdstat ∧
  ∀ s : State, ∃ w0 w1 : BitVec 32,
    exec .rdstat s = .next { s with out := s.out ++ [.data w0, .data w1, .st 0] } ∧
    w0.extractLsb' 0 2 = s.mode.bits ∧
    (w0.getLsbD 2 = true ↔ s.root ≠ NIL) ∧
    (w0.getLsbD 3 = true ↔ ∃ x, readTable s.clen x ≠ 0) ∧
    w0.extractLsb' 4 4 = s.err ∧ w0.extractLsb' 8 9 = s.root ∧ w0.extractLsb' 17 9 = s.nalloc ∧
    w0.extractLsb' 26 6 = 0 ∧ w1.extractLsb' 0 9 = s.cur ∧ w1.extractLsb' 9 23 = 0

/-- R202: CLRERR clears ERR in IDLE. In any other mode it raises `IllegalCommand`. -/
def Obligations.ClrerrClearsErr : Prop :=
  decode 0x020000000000#48 = .ok .clrerr ∧
  ∀ s : State,
    (s.mode = .idle → exec .clrerr s = .next { s with err := 0, out := s.out ++ [.st 0] }) ∧
    (s.mode ≠ .idle → exec .clrerr s = .next (raise .illegalCommand s))

/-! ### Frequency table -/

/-- R100: FCLR clears every counter and touches nothing else. In any other mode it raises `IllegalCommand`. -/
def Obligations.FclrClearsEveryCounter : Prop :=
  decode 0x100000000000#48 = .ok .fclr ∧
  ∀ s : State,
    (s.mode = .idle → ∃ f, exec .fclr s = .next { s with freq := f, out := s.out ++ [.st 0] } ∧
      ∀ x, readTable f x = 0) ∧
    (s.mode ≠ .idle → exec .fclr s = .next (raise .illegalCommand s))

/-- R101: COUNT adds one to its counter. At `2^32 - 1` it raises `CountOverflow`, and in any other mode
`IllegalCommand`. -/
def Obligations.CountAddsOne : Prop :=
  (∀ x : Symbol, decode (0x11#8 ++ x ++ 0#32) = .ok (.count x)) ∧
  ∀ (s : State) (sym : Symbol),
    (s.mode = .idle → (readTable s.freq sym).toNat < 2 ^ 32 - 1 →
      ∃ f, exec (.count sym) s = .next { s with freq := f, out := s.out ++ [.st 0] } ∧
        (readTable f sym).toNat = (readTable s.freq sym).toNat + 1 ∧
        ∀ x, x ≠ sym → readTable f x = readTable s.freq x) ∧
    (s.mode = .idle → (readTable s.freq sym).toNat = 2 ^ 32 - 1 →
      exec (.count sym) s = .next (raise .countOverflow s)) ∧
    (s.mode ≠ .idle → exec (.count sym) s = .next (raise .illegalCommand s))

/-- R102: LDF loads its counter with any value. In any other mode it raises `IllegalCommand`. -/
def Obligations.LdfLoadsOneCounter : Prop :=
  (∀ (x : Symbol) (c : Count), decode (0x12#8 ++ x ++ c) = .ok (.ldf x c)) ∧
  ∀ (s : State) (sym : Symbol) (cnt : Count),
    (s.mode = .idle → ∃ f, exec (.ldf sym cnt) s = .next { s with freq := f, out := s.out ++ [.st 0] } ∧
      readTable f sym = cnt ∧ ∀ x, x ≠ sym → readTable f x = readTable s.freq x) ∧
    (s.mode ≠ .idle → exec (.ldf sym cnt) s = .next (raise .illegalCommand s))

/-- R103: RDFREQ reads its counter and changes nothing. In FATAL it raises `IllegalCommand`. -/
def Obligations.RdfreqReadsOneCounter : Prop :=
  (∀ x : Symbol, decode (0x13#8 ++ x ++ 0#32) = .ok (.rdfreq x)) ∧
  ∀ (s : State) (sym : Symbol),
    (s.mode ≠ .fatal →
      exec (.rdfreq sym) s = .next { s with out := s.out ++ [.data (readTable s.freq sym), .st 0] }) ∧
    (s.mode = .fatal → exec (.rdfreq sym) s = .next (raise .illegalCommand s))

/-- R104: from an all-zero table, one COUNT per byte of an input, none of which raises, leaves each counter at the number
of positions that hold its symbol, and the counters sum to the length of the input. No COUNT raises on an input of at
most `2^32 - 1` bytes. -/
def Obligations.CountsAreOccurrences : Prop :=
  ∀ (s : State) (input : List Symbol), s.mode = .idle → (∀ x, readTable s.freq x = 0) →
    ∃ t u, runEvents (asEvents (input.map .count)) s = some (t, u) ∧
      ((∀ x ∈ t, x.accepted = true) →
        (∀ x, (readTable u.freq x).toNat = input.count x) ∧ u.total = input.length) ∧
      (input.length ≤ 2 ^ 32 - 1 → ∀ x ∈ t, x.accepted = true)

/-! ### The priority queue and the arena -/

/-- R112: `pq_extract_min` takes out the member whose key `(freq, handle)` is least, and raises `EmptyQueue` on an
empty queue. The members are allocated, as R110 says they are. -/
def Obligations.PqExtractMinTakesTheLeastKey : Prop :=
  ∀ s : State, (∀ h ∈ s.q, ∃ n, s.nodeAt h = some n) →
    (s.q = [] → pqExtractMin s = .error (.raised .emptyQueue)) ∧
    (s.q ≠ [] → ∃ h, pqExtractMin s = .ok (h, { s with q := s.q.erase h }) ∧ h ∈ s.q ∧
      ∀ k ∈ s.q, k = h ∨ keyBelow s h k)

/-- R121: `alloc` gives out the next handle, and raises `AllocationFailure` when the arena is full. -/
def Obligations.AllocGivesTheNextHandle : Prop :=
  ∀ s : State,
    (s.nalloc.toNat < s.config.arenaSize → ∃ n, alloc s = .ok (s.nalloc, { s with nalloc := n }) ∧
      n.toNat = s.nalloc.toNat + 1) ∧
    (s.config.arenaSize ≤ s.nalloc.toNat → alloc s = .error (.raised .allocationFailure))

/-! ### The tree -/

/-- R122 and the order of checks of R216: with a tree present BUILD raises `IllegalCommand`, whatever the counters hold,
and the tree stays as it is; with none, an empty table raises `EmptyInput`. In any other mode than IDLE it raises
`IllegalCommand`. -/
def Obligations.BuildRefusesATreeThenAnEmptyTable : Prop :=
  decode 0x200000000000#48 = .ok .build ∧
  ∀ s : State,
    (s.mode = .idle → s.root ≠ NIL → ∃ t, exec .build s = .next t ∧ t = raise .illegalCommand s ∧
      t.root = s.root ∧ t.nalloc = s.nalloc ∧ ∀ h, t.nodeAt h = s.nodeAt h) ∧
    (s.mode = .idle → s.root = NIL → s.distinct = 0 → exec .build s = .next (raise .emptyInput s)) ∧
    (s.mode ≠ .idle → exec .build s = .next (raise .illegalCommand s))

/-- R124: with `n` distinct symbols BUILD succeeds in allocating, `2n - 1` times in all, if and only if
`2n - 1 ≤ ARENA_SIZE`; otherwise it raises `AllocationFailure`. -/
def Obligations.BuildNeedsTwoNMinusOneNodes : Prop :=
  ∀ s : State, s.mode = .idle → TreeAbsent s → s.q = [] → 1 ≤ s.distinct →
    (2 * s.distinct - 1 ≤ s.config.arenaSize →
      ∃ t, exec .build s = .next t ∧ t.out = s.out ++ [.st 0] ∧ t.nalloc.toNat = 2 * s.distinct - 1) ∧
    (s.config.arenaSize < 2 * s.distinct - 1 → exec .build s = .next (raise .allocationFailure s))

/-- R125: the shape of the tree a successful BUILD leaves. Nothing but the tree is written, the queue is empty again,
the leaves are the distinct symbols with their counts, and the root's frequency is the sum of all counters. -/
def Obligations.BuildMakesTheTree : Prop :=
  ∀ s : State, s.mode = .idle → TreeAbsent s → s.q = [] → 1 ≤ s.distinct →
    2 * s.distinct - 1 ≤ s.config.arenaSize →
    ∃ r n m, exec .build s =
        .next { s with root := r, nalloc := n, node := m, out := s.out ++ [.st 0] } ∧
      TreePresent { s with root := r, nalloc := n, node := m } s.distinct ∧
      LeavesOf s.freq { s with root := r, nalloc := n, node := m } ∧
      ∃ nd, ({ s with root := r, nalloc := n, node := m } : State).nodeAt r = some nd ∧ nd.freq.toNat = s.total

/-- R120 step 2: every Internal node joins the two least of the queue as it was when the node was made. -/
def Obligations.BuildMergesTheTwoLeast : Prop :=
  ∀ s t : State, s.mode = .idle → TreeAbsent s → s.q = [] → exec .build s = .next t →
    t.out = s.out ++ [.st 0] → GreedyMerge t

/-- R127: the tree is a function of FREQ: two blocks with the same counters and arena size build the same nodes, the
same NALLOC and the same ROOT, whatever else they hold. -/
def Obligations.TreeIsAFunctionOfFreq : Prop :=
  ∀ s s' t t' : State, s.mode = .idle → s'.mode = .idle → TreeAbsent s → TreeAbsent s' → s.q = [] → s'.q = [] →
    s.config = s'.config → s.freq = s'.freq → exec .build s = .next t → exec .build s' = .next t' →
    t.root = t'.root ∧ t.nalloc = t'.nalloc ∧ ∀ h, t.nodeAt h = t'.nodeAt h

/-- R128: a path that goes down `n` leaves' tree has at most `n - 1` edges. -/
def Obligations.PathsAreShorterThanLeaves : Prop :=
  ∀ (s : State) (n : Nat) (path : List Bool) (h : Handle),
    TreePresent s n → follow s s.root path = some h → path.length ≤ n - 1

/-- R129: RDNODE reads an allocated node's five fields in three words and changes nothing. A handle at or above NALLOC,
and mode FATAL, raise `IllegalCommand`. -/
def Obligations.RdnodeReadsANode : Prop :=
  (∀ h : Handle, decode (0x21#8 ++ 0#8 ++ 0#23 ++ h) = .ok (.rdnode h)) ∧
  ∀ (s : State) (h : Handle),
    (∀ nd, s.mode ≠ .fatal → s.nodeAt h = some nd → ∃ w0 w1 w2 : BitVec 32,
      exec (.rdnode h) s = .next { s with out := s.out ++ [.data w0, .data w1, .data w2, .st 0] } ∧
      (w0.getLsbD 31 = true ↔ nd.kind = .internal) ∧ w0.extractLsb' 26 5 = 0 ∧ w0.extractLsb' 18 8 = nd.sym ∧
      w0.extractLsb' 9 9 = nd.left ∧ w0.extractLsb' 0 9 = nd.right ∧
      w1.toNat + 2 ^ 32 * w2.toNat = nd.freq.toNat) ∧
    (s.nalloc.toNat ≤ h.toNat → exec (.rdnode h) s = .next (raise .illegalCommand s)) ∧
    (s.mode = .fatal → exec (.rdnode h) s = .next (raise .illegalCommand s))

/-- R190, R192: RELEASE discards the tree and nothing else, and without a tree it changes nothing. In any other mode it
raises `IllegalCommand`. -/
def Obligations.ReleaseDiscardsTheTree : Prop :=
  decode 0x220000000000#48 = .ok .release ∧
  ∀ s : State,
    (s.mode = .idle → s.root ≠ NIL →
      exec .release s = .next { s with root := NIL, nalloc := 0, out := s.out ++ [.st 0] }) ∧
    (s.mode = .idle → s.root = NIL → exec .release s = .next { s with out := s.out ++ [.st 0] }) ∧
    (s.mode ≠ .idle → exec .release s = .next (raise .illegalCommand s))

/-! ### The code table -/

/-- R143: without a tree GEN leaves the empty table and answers `ST(0)`; nothing but the table is written. -/
def Obligations.GenWithoutTreeEmptiesTheTable : Prop :=
  decode 0x300000000000#48 = .ok .gen ∧
  ∀ s : State, s.mode = .idle → s.root = NIL →
    ∃ l b, exec .gen s = .next { s with clen := l, cbits := b, out := s.out ++ [.st 0] } ∧
      (∀ x, readTable l x = 0) ∧ ∀ x, readTable b x = 0

/-- R141, R142: with a tree GEN gives every symbol on a leaf the edge bits of its path, root first, a single leaf the
code `[LEFT_BIT]`, and no other symbol an entry; nothing but the table is written. -/
def Obligations.GenAssignsThePaths : Prop :=
  ∀ (s : State) (n : Nat), s.mode = .idle → TreePresent s n →
    ∃ l b, exec .gen s = .next { s with clen := l, cbits := b, out := s.out ++ [.st 0] } ∧
      TableOf s { s with clen := l, cbits := b }

/-- R144: no code of the table of a well-formed tree begins another. -/
def Obligations.CodesArePrefixFree : Prop :=
  ∀ (t s : State) (n : Nat), TreePresent t n → TableOf t s →
    ∀ x y, x ≠ y → readTable s.clen x ≠ 0 → readTable s.clen y ≠ 0 → ¬ s.code x <+: s.code y

/-- R145: after BUILD and GEN a symbol with a higher count never has a longer code. -/
def Obligations.HigherCountsHaveNoLongerCodes : Prop :=
  ∀ s t u : State, s.mode = .idle → TreeAbsent s → s.q = [] → 2 * s.distinct - 1 ≤ s.config.arenaSize →
    exec .build s = .next t → exec .gen t = .next u →
    ∀ x y, (readTable s.freq y).toNat < (readTable s.freq x).toNat → 0 < (readTable s.freq y).toNat →
      (readTable u.clen x).toNat ≤ (readTable u.clen y).toNat

/-- R146: RDCODE reads the length and then one word per code bit, root first, and changes nothing; a symbol with no
entry reads length 0 and no bit. In FATAL it raises `IllegalCommand`. -/
def Obligations.RdcodeReadsACode : Prop :=
  (∀ x : Symbol, decode (0x31#8 ++ x ++ 0#32) = .ok (.rdcode x)) ∧
  ∀ (s : State) (sym : Symbol),
    (s.mode ≠ .fatal → ∃ toks : List (BitVec 32),
      exec (.rdcode sym) s = .next { s with
        out := s.out ++ .data ((readTable s.clen sym).setWidth 32) :: toks.map .data ++ [.st 0] } ∧
      toks.length = (readTable s.clen sym).toNat ∧
      ∀ i w, toks[i]? = some w → w.toNat = ((readTable s.cbits sym).getLsbD i).toNat) ∧
    (s.mode = .fatal → exec (.rdcode sym) s = .next (raise .illegalCommand s))

/-! ### The encoder -/

/-- R155: EBEGIN opens an encode frame and looks at nothing. In any other mode it raises `IllegalCommand`. -/
def Obligations.EbeginOpensAFrame : Prop :=
  decode 0x400000000000#48 = .ok .ebegin ∧
  ∀ s : State,
    (s.mode = .idle → exec .ebegin s = .next { s with mode := .encode, out := s.out ++ [.st 0] }) ∧
    (s.mode ≠ .idle → exec .ebegin s = .next (raise .illegalCommand s))

/-- R156: ENC emits the bits of the symbol's code, root first, and changes nothing. A symbol with no entry raises
`UnknownSymbol`, and a mode other than ENCODE `IllegalCommand`. -/
def Obligations.EncEmitsTheCode : Prop :=
  (∀ x : Symbol, decode (0x41#8 ++ x ++ 0#32) = .ok (.enc x)) ∧
  ∀ (s : State) (sym : Symbol),
    (s.mode = .encode → readTable s.clen sym ≠ 0 → ∃ bits : List Bool,
      exec (.enc sym) s = .next { s with out := s.out ++ bits.map .bit ++ [.st 0] } ∧
      bits.length = (readTable s.clen sym).toNat ∧
      ∀ i b, bits[i]? = some b → b = (readTable s.cbits sym).getLsbD i) ∧
    (s.mode = .encode → readTable s.clen sym = 0 → exec (.enc sym) s = .next (raise .unknownSymbol s)) ∧
    (s.mode ≠ .encode → exec (.enc sym) s = .next (raise .illegalCommand s))

/-- R157: EEND closes the encode frame. In any other mode it raises `IllegalCommand`. -/
def Obligations.EendClosesTheFrame : Prop :=
  decode 0x420000000000#48 = .ok .eend ∧
  ∀ s : State,
    (s.mode = .encode → exec .eend s = .next { s with mode := .idle, out := s.out ++ [.st 0] }) ∧
    (s.mode ≠ .encode → exec .eend s = .next (raise .illegalCommand s))

/-- R158 to R160, R173: the result of a frame. An encode frame may hold, beside its ENC commands, any NOP and any
read-outs, RDNODE of allocated nodes among them; it is committed, its EncodedStream is the concatenation of the
symbols' codes in input order, its length the sum of their lengths, and no state but OUT is changed. A run that, before
the closing command, comes to a reset, to a command cut by one, or to a command answered with a non-zero status leaves
an open frame for IDLE, and the frame at its head, EBEGIN's or DBEGIN's, has no EncodedStream and no decoded output,
whatever comes later. That a transcript starts at the frame's opening command, and that the result is none where there
is no committed frame, is the model's reading (log 14). -/
def Obligations.StreamIsTheConcatenationOfCodes : Prop :=
  (∀ (s : State) (cs : List Instr) (input : List Symbol), s.mode = .idle → (∀ x ∈ input, readTable s.clen x ≠ 0) →
    cs.filter (fun i => !readsOnly i) = input.map .enc → (∀ h, .rdnode h ∈ cs → ∃ nd, s.nodeAt h = some nd) →
    ∃ t u stream, runEvents (asEvents (.ebegin :: cs ++ [.eend])) s = some (t, u) ∧
      encodedStream t = some stream ∧ stream = input.flatMap s.code ∧
      stream.length = (input.map fun x => (readTable s.clen x).toNat).sum ∧ u = { s with out := u.out }) ∧
  ∀ (before later : List Event) (e : Event) (toks : List Token) (s v w u : State) (t t' : List Exchange),
    runEvents before s = some (t, v) → runEvents [e] v = some ([⟨e, toks⟩], w) → runEvents later w = some (t', u) →
    (e = .rst ∨ (∃ word k, e = .cut word k) ∨ ∃ c, toks.getLast? = some (.st c) ∧ c ≠ 0) →
    (v.mode = .encode ∨ v.mode = .decode → w.mode = .idle) ∧
    (.cmd (encode .eend) ∉ before → encodedStream (t ++ ⟨e, toks⟩ :: t') = none) ∧
    (.cmd (encode .dend) ∉ before → decodedOutput (t ++ ⟨e, toks⟩ :: t') = none)

/-! ### The decoder -/

/-- R170: DBEGIN opens a decode frame with the cursor at the root. Without a tree it raises `CorruptStream`, and in any
other mode `IllegalCommand`. -/
def Obligations.DbeginStartsAtTheRoot : Prop :=
  decode 0x500000000000#48 = .ok .dbegin ∧
  ∀ s : State,
    (s.mode = .idle → s.root ≠ NIL →
      exec .dbegin s = .next { s with mode := .decode, cur := s.root, out := s.out ++ [.st 0] }) ∧
    (s.mode = .idle → s.root = NIL → exec .dbegin s = .next (raise .corruptStream s)) ∧
    (s.mode ≠ .idle → exec .dbegin s = .next (raise .illegalCommand s))

/-- R171, R176: DEC moves the cursor to the left child on 0 and to the right child on 1; at a leaf it emits the symbol
and returns to the root. At a Leaf root only 0 is a code. An unrecognized bit value, and a 1 at a Leaf root, raise
`CorruptStream`; a mode other than DECODE raises `IllegalCommand`. -/
def Obligations.DecWalksTheTree : Prop :=
  (∀ v : BitVec 8, decode (0x51#8 ++ v ++ 0#32) = .ok (.dec v)) ∧
  ∀ (s : State) (v : BitVec 8),
    (∀ nd m, s.mode = .decode → v = 0 ∨ v = 1 → s.nodeAt s.cur = some nd → nd.kind = .internal →
      s.nodeAt (if v = 0 then nd.left else nd.right) = some m →
      (m.kind = .leaf → exec (.dec v) s = .next { s with cur := s.root, out := s.out ++ [.sym m.sym, .st 0] }) ∧
      (m.kind = .internal →
        exec (.dec v) s = .next { s with cur := if v = 0 then nd.left else nd.right, out := s.out ++ [.st 0] })) ∧
    (∀ nd, s.mode = .decode → s.nodeAt s.cur = some nd → nd.kind = .leaf →
      (v = 0 → exec (.dec v) s = .next { s with out := s.out ++ [.sym nd.sym, .st 0] }) ∧
      (v = 1 → exec (.dec v) s = .next (raise .corruptStream s))) ∧
    (s.mode = .decode → 2 ≤ v.toNat → exec (.dec v) s = .next (raise .corruptStream s)) ∧
    (s.mode ≠ .decode → exec (.dec v) s = .next (raise .illegalCommand s))

/-- R172: DEND closes the frame when the cursor is at the root, and raises `CorruptStream` when it is inside the tree.
In any other mode it raises `IllegalCommand`. -/
def Obligations.DendTestsTheCursor : Prop :=
  decode 0x520000000000#48 = .ok .dend ∧
  ∀ s : State,
    (s.mode = .decode → s.cur = s.root →
      exec .dend s = .next { s with mode := .idle, cur := NIL, out := s.out ++ [.st 0] }) ∧
    (s.mode = .decode → s.cur ≠ s.root → exec .dend s = .next (raise .corruptStream s)) ∧
    (s.mode ≠ .decode → exec .dend s = .next (raise .illegalCommand s))

/-- R175: in a safe state with two or more leaves every bit is accepted: DEC of 0 or 1 in an open decode frame answers
`ST(0)`. -/
def Obligations.EveryBitParsesInALargeTree : Prop :=
  ∀ (s : State) (n : Nat) (b : Bool), SafeState s → s.mode = .decode → TreePresent s n → 2 ≤ n →
    ∃ t toks, exec (.dec (if b then 1 else 0)) s = .next t ∧ t.out = s.out ++ toks ++ [.st 0] ∧ t.mode = .decode

/-- The decoder mirrors the code generator (R171, R174, R176): with a tree present and its own table, decoding the
codes of any symbols in order gives those symbols back and closes the frame. -/
def Obligations.DecoderMirrorsTheTable : Prop :=
  ∀ (s : State) (n : Nat) (input : List Symbol), s.mode = .idle → s.cur = NIL → TreePresent s n → TableOf s s →
    (∀ x ∈ input, readTable s.clen x ≠ 0) →
    ∃ t u, runEvents (asEvents (decompressCommands (input.flatMap s.code))) s = some (t, u) ∧
      decodedOutput t = some input ∧ u = { s with out := u.out }

/-- The round trip (R174) with the tree still present: from a safe idle state with no tree and no error on record,
compressing a non-empty input of at most `2^32 - 1` bytes and decompressing its stream gives the input back, every
command answered `ST(0)`. The arena is large enough for the input, as it is at the default size (R124). -/
def Obligations.RoundTrip : Prop :=
  ∀ (s : State) (input : List Symbol), SafeState s → s.mode = .idle → s.root = NIL → s.err = 0 → input ≠ [] →
    input.length ≤ 2 ^ 32 - 1 → 2 * input.dedup.length - 1 ≤ s.config.arenaSize →
    ∃ t0 s0 t1 s1 stream t2 s2,
      runEvents (asEvents (.fclr :: input.map .count ++ [.build, .gen])) s = some (t0, s0) ∧
      runEvents (asEvents (.ebegin :: input.map .enc ++ [.eend])) s0 = some (t1, s1) ∧
      encodedStream t1 = some stream ∧
      runEvents (asEvents (decompressCommands stream)) s1 = some (t2, s2) ∧
      decodedOutput t2 = some input ∧ ∀ x ∈ t0 ++ t1 ++ t2, x.accepted = true

/-- The round trip in a later session (R174, R241, R247): after RELEASE, reset, a reload of the same 256 counters by LDF
and a new BUILD, the stream of the first session still decodes to the input. Every command is answered `ST(0)`, RELEASE
among them; reset is no command and answers nothing. -/
def Obligations.RoundTripAfterReload : Prop :=
  ∀ (s : State) (input : List Symbol), SafeState s → s.mode = .idle → s.root = NIL → s.err = 0 → input ≠ [] →
    input.length ≤ 2 ^ 32 - 1 → 2 * input.dedup.length - 1 ≤ s.config.arenaSize →
    ∃ t0 s0 t1 s1 stream t2 s2 s3 t4 s4 t5 s5,
      runEvents (asEvents (.fclr :: input.map .count ++ [.build, .gen])) s = some (t0, s0) ∧
      runEvents (asEvents (.ebegin :: input.map .enc ++ [.eend])) s0 = some (t1, s1) ∧
      encodedStream t1 = some stream ∧
      runEvents (asEvents [.release]) s1 = some (t2, s2) ∧
      runEvents [.rst] s2 = some ([⟨.rst, []⟩], s3) ∧
      runEvents (asEvents (symbols.map (fun x => .ldf x (readTable s1.freq x)) ++ [.build])) s3 = some (t4, s4) ∧
      runEvents (asEvents (decompressCommands stream)) s4 = some (t5, s5) ∧
      decodedOutput t5 = some input ∧ ∀ x ∈ t0 ++ t1 ++ t2 ++ t4 ++ t5, x.accepted = true

/-! ### Errors, modes, frames -/

/-- R210, R211: the codes, the two fatal errors, and which command can raise which error: a command answers `ST(0)` or
raises an error of its row. -/
def Obligations.CommandsRaiseOnlyTheirErrors : Prop :=
  (Error.emptyInput.code = 1 ∧ Error.allocationFailure.code = 2 ∧ Error.unknownSymbol.code = 3 ∧
    Error.corruptStream.code = 4 ∧ Error.emptyQueue.code = 5 ∧ Error.countOverflow.code = 6 ∧
    Error.illegalCommand.code = 7 ∧ ∀ e : Error, e.fatal = true ↔ e = .allocationFailure ∨ e = .emptyQueue) ∧
  ∀ (i : Instr) (s t : State), exec i s = .next t →
    (∃ toks, t.out = s.out ++ toks ++ [.st 0]) ∨ ∃ e ∈ errorsOf i, t = raise e s

/-- R212: `raise`. A command either answers `ST(0)`, or ends in `raise` applied to the state in which it began, which
undoes it; and `raise` records the first error, enters FATAL and discards the tree on a fatal error, aborts an open
frame on any other, answers one `ST`, and touches nothing else. -/
def Obligations.RaiseRecordsAbortsAndAnswers : Prop :=
  (∀ (i : Instr) (s t : State), exec i s = .next t →
    (∃ toks, t.out = s.out ++ toks ++ [.st 0]) ∨ ∃ e, t = raise e s) ∧
  ∀ (e : Error) (s : State),
    raise e s = { s with
      err := if s.err = 0 then e.code else s.err
      mode := (raise e s).mode, root := (raise e s).root, nalloc := (raise e s).nalloc, q := (raise e s).q
      cur := (raise e s).cur
      out := s.out ++ [.st e.code] } ∧
    (s.mode = .fatal → (raise e s).mode = .fatal ∧ (raise e s).root = s.root ∧ (raise e s).nalloc = s.nalloc ∧
      (raise e s).q = s.q ∧ (raise e s).cur = s.cur) ∧
    (s.mode ≠ .fatal → e = .allocationFailure ∨ e = .emptyQueue → (raise e s).mode = .fatal ∧
      (raise e s).root = NIL ∧ (raise e s).nalloc = 0 ∧ (raise e s).q = [] ∧ (raise e s).cur = NIL) ∧
    (e ≠ .allocationFailure → e ≠ .emptyQueue → (raise e s).root = s.root ∧ (raise e s).nalloc = s.nalloc ∧
      (raise e s).q = s.q ∧
      (s.mode = .encode ∨ s.mode = .decode → (raise e s).mode = .idle ∧ (raise e s).cur = NIL) ∧
      (s.mode = .idle → (raise e s).mode = .idle ∧ (raise e s).cur = s.cur))

/-- R214: a command in a mode that does not permit it raises `IllegalCommand`; in a mode that permits it, it raises
that error only for the two reasons its own rule gives. -/
def Obligations.WrongModeIsIllegal : Prop :=
  ∀ (i : Instr) (s : State),
    (permits i s.mode = false → exec i s = .next (raise .illegalCommand s)) ∧
    (permits i s.mode = true → exec i s = .next (raise .illegalCommand s) →
      (i = .build ∧ s.root ≠ NIL) ∨ ∃ h, i = .rdnode h ∧ s.nalloc.toNat ≤ h.toNat)

/-- R215: the mode transitions, complete, by the status `c` of the answer. The codes 2 and 5 are the fatal ones, and they
come from IDLE only. Reset leads to IDLE from anywhere. -/
def Obligations.ModeTransitions : Prop :=
  (∀ (i : Instr) (s t : State), exec i s = .next t → ∃ toks c, t.out = s.out ++ toks ++ [.st c] ∧
    (s.mode = .idle → t.mode =
      if c = 0 then (if i = .ebegin then .encode else if i = .dbegin then .decode else .idle)
      else if c = 2 ∨ c = 5 then .fatal else .idle) ∧
    (s.mode = .encode → t.mode = if c = 0 ∧ i ≠ .eend then .encode else .idle) ∧
    (s.mode = .decode → t.mode = if c = 0 ∧ i ≠ .dend then .decode else .idle) ∧
    (s.mode = .fatal → t.mode = .fatal) ∧
    (s.mode ≠ .idle → c ≠ 2 ∧ c ≠ 5)) ∧
  ∀ (s : State) (rest : List Event), s.pending = .rst :: rest → ∃ t, step s = .next t ∧ t.mode = .idle

/-- R213, R214: in FATAL every command but RDSTAT answers `ST(7)` and changes nothing, once an error is on record as
R212 leaves it. -/
def Obligations.FatalRefusesAllButRdstat : Prop :=
  ∀ (i : Instr) (s : State), s.mode = .fatal → s.err ≠ 0 → i ≠ .rdstat →
    exec i s = .next { s with out := s.out ++ [.st 7] }

/-- R23: ERR is written only by `raise`, when it is 0, and by CLRERR. -/
def Obligations.ErrKeepsTheFirstError : Prop :=
  ∀ (i : Instr) (s t : State), exec i s = .next t →
    t.err = s.err ∨ (i = .clrerr ∧ t.err = 0) ∨ (s.err = 0 ∧ ∃ e, t = raise e s ∧ t.err = e.code)

/-- R75, and 30_encoding.md R81, R82: the shape of a response. Tokens are only appended; a response is tokens that are
no status token and then exactly one status token; a non-zero status stands alone; each kind of token comes only from
the commands R81 names. -/
def Obligations.ResponsesHaveTheirShape : Prop :=
  ∀ (i : Instr) (s t : State), exec i s = .next t →
    ∃ toks c, t.out = s.out ++ toks ++ [.st c] ∧ (∀ k, .st k ∉ toks) ∧ (c ≠ 0 → toks = []) ∧
      (∀ b, .bit b ∈ toks → ∃ x, i = .enc x) ∧ (∀ y, .sym y ∈ toks → toks = [.sym y] ∧ ∃ v, i = .dec v) ∧
      (∀ w, .data w ∈ toks → readsOnly i = true ∧ i ≠ .nop)

/-- R56: a read-out changes no state, and issued twice in a row it returns the same tokens. -/
def Obligations.ReadsHaveNoSideEffect : Prop :=
  ∀ (i : Instr) (s t u : State), readsOnly i = true → exec i s = .next t → exec i t = .next u →
    (∃ toks, t.out = s.out ++ toks ++ [.st 0]) →
    t = { s with out := t.out } ∧ u = { t with out := u.out } ∧ tokensSince s t = tokensSince t u

/-- R2 and the consequence of R214: the units write only the state they own. A command of the encoder, the decoder or the
front end leaves the tree builder's state alone, and so does every command while a frame is open; a command of another
unit than the decoder that opens or closes no decode frame and does not raise leaves the cursor alone; a command of
another unit than the front end that does not raise leaves MODE and ERR alone; and no command writes the parameter or
the host's events. -/
def Obligations.UnitsWriteTheirOwnState : Prop :=
  ∀ (i : Instr) (s t : State), exec i s = .next t →
    t.config = s.config ∧ t.pending = s.pending ∧
    (unitOf i ≠ .treeBuilder ∨ s.mode = .encode ∨ s.mode = .decode →
      t.freq = s.freq ∧ t.q = s.q ∧ t.node = s.node ∧ t.nalloc = s.nalloc ∧
      t.root = s.root ∧ t.clen = s.clen ∧ t.cbits = s.cbits) ∧
    (t.cur ≠ s.cur → unitOf i = .decoder ∨ i = .dbegin ∨ i = .dend ∨ ∃ e, t = raise e s) ∧
    (t.mode ≠ s.mode ∨ t.err ≠ s.err → unitOf i = .frontEnd ∨ ∃ e, t = raise e s)

/-- 93_implementation_defined.md V1, 20_memory.md R52: the fields of unallocated NODE entries never show. Two blocks
that differ only in such entries answer every command alike, and then again differ only in such entries. -/
def Obligations.UnallocatedNodesNeverShow : Prop :=
  ∀ (i : Instr) (s t : State) (m : Memory), (∀ h, s.nodeAt h = ({ s with node := m } : State).nodeAt h) →
    exec i s = .next t →
    ∃ m', exec i { s with node := m } = .next { t with node := m' } ∧
      ∀ h, t.nodeAt h = ({ t with node := m' } : State).nodeAt h

/-! ### Invariants -/

/-- The safe-state invariant holds right after reset. -/
def Obligations.ResetIsSafe : Prop := SafeState State.reset

/-- The part of the invariant that does not look into the tree is kept by every step, from every state that has it:
ERR is a code, NALLOC in range, Q empty, CUR NIL outside a decode frame, FATAL without a tree (10_state.md R23, R28,
R31, R32, 60_exceptions.md R212, R213). -/
def Obligations.StepKeepsControl : Prop :=
  ∀ s t : State, ControlInv s → step s = .next t → ControlInv t

/-- Every step from a safe state leads to a safe state: the tree invariant (10_state.md R30), the cursor invariant
(45_decoder.md R177) and the code table invariant (10_state.md R34) are kept. -/
def Obligations.StepKeepsSafe : Prop :=
  ∀ s t : State, SafeState s → step s = .next t → SafeState t

/-- R251, and 93_implementation_defined.md: from a safe state every step, whatever the host does, has an outcome, and
the model never stops. -/
def Obligations.SafeStatesAlwaysStep : Prop :=
  ∀ s : State, SafeState s → ∃ t, step s = .next t
end

