-- ==== Sys2Proof/Laws/Memory.lean ====
section
/-! SUPPORT. The laws of storage: symbol-indexed tables and the arena `NODE`. A read after a write to the same place
gives the value written, a write leaves every other place alone, and a write keeps the arena's canonical form. -/

namespace Sys2Proof.Machine

/-! ### Symbol-indexed tables -/

@[simp] theorem readTable_writeTable_same {α : Type} (m : Vector α 256) (s : Symbol) (v : α) :
    readTable (writeTable m s v) s = v := by
  simp [readTable, writeTable]

theorem readTable_writeTable_other {α : Type} (m : Vector α 256) (s x : Symbol) (v : α) (h : x ≠ s) :
    readTable (writeTable m s v) x = readTable m x := by
  have : s.toNat ≠ x.toNat := fun e => h (BitVec.eq_of_toNat_eq e.symm)
  simp [readTable, writeTable, this]

theorem readTable_writeTable {α : Type} (m : Vector α 256) (s x : Symbol) (v : α) :
    readTable (writeTable m s v) x = if x = s then v else readTable m x := by
  by_cases h : x = s
  · subst h; simp
  · simp [h, readTable_writeTable_other]

@[simp] theorem readTable_replicate {α : Type} (v : α) (s : Symbol) :
    readTable (Vector.replicate 256 v) s = v := by
  simp [readTable]

/-- Two tables that read alike everywhere are equal. -/
theorem table_ext {α : Type} (m m' : Vector α 256) (h : ∀ s, readTable m s = readTable m' s) : m = m' := by
  apply Vector.ext
  intro i hi
  have := h (BitVec.ofNat 8 i)
  have hi' : (BitVec.ofNat 8 i).toNat = i := Nat.mod_eq_of_lt hi
  simpa only [readTable, hi'] using this

/-! ### The arena -/

@[simp] theorem Memory.read_nil (h : Nat) : Memory.read [] h = none := rfl

@[simp] theorem Memory.read_cons (k h : Nat) (n : Node) (m : Memory) :
    Memory.read ((k, n) :: m) h = if h = k then some n else Memory.read m h := rfl

@[simp] theorem Memory.read_write_same (m : Memory) (h : Nat) (n : Node) : (m.write h n).read h = some n := by
  induction m with
  | nil => simp [Memory.write]
  | cons c m ih =>
    obtain ⟨k, x⟩ := c
    simp only [Memory.write]
    split
    · simp
    · split
      · simp
      · simp [*]

theorem Memory.read_write_other (m : Memory) (h k : Nat) (n : Node) (hk : k ≠ h) :
    (m.write h n).read k = m.read k := by
  induction m with
  | nil => simp [Memory.write, hk]
  | cons c m ih =>
    obtain ⟨j, x⟩ := c
    simp only [Memory.write]
    split
    · simp [hk]
    · split
      · rename_i h1 h2; subst h2; simp [hk]
      · simp [ih]

theorem Memory.read_write (m : Memory) (h k : Nat) (n : Node) :
    (m.write h n).read k = if k = h then some n else m.read k := by
  by_cases hk : k = h
  · subst hk; simp
  · simp [hk, Memory.read_write_other]

/-- A key of the arena after a write is the key written or a key that was there. -/
theorem Memory.mem_write (m : Memory) (h : Nat) (n : Node) (c : Nat × Node) (hc : c ∈ m.write h n) :
    c.1 = h ∨ c ∈ m := by
  induction m with
  | nil => left; simp_all [Memory.write]
  | cons d m ih =>
    obtain ⟨j, x⟩ := d
    simp only [Memory.write] at hc
    split at hc
    · rcases List.mem_cons.mp hc with rfl | hc
      · exact .inl rfl
      · exact .inr hc
    · split at hc
      · rcases List.mem_cons.mp hc with rfl | hc
        · exact .inl rfl
        · exact .inr (List.mem_cons_of_mem _ hc)
      · rcases List.mem_cons.mp hc with rfl | hc
        · exact .inr List.mem_cons_self
        · exact (ih hc).imp id (List.mem_cons_of_mem _)

/-- The arena of State.reset is canonical. -/
theorem Memory.wf_nil : Memory.wf [] := List.Pairwise.nil

/-- A write keeps the canonical form. -/
theorem Memory.wf_write (m : Memory) (h : Nat) (n : Node) (hm : m.wf) : (m.write h n).wf := by
  induction m with
  | nil => simp [Memory.write, Memory.wf]
  | cons c m ih =>
    obtain ⟨j, x⟩ := c
    have hj := (List.pairwise_cons.mp hm).1
    have ht := (List.pairwise_cons.mp hm).2
    simp only [Memory.write]
    split
    · rename_i hlt
      refine List.pairwise_cons.mpr ⟨fun d hd => ?_, hm⟩
      rcases List.mem_cons.mp hd with rfl | hd
      · exact hlt
      · exact lt_trans hlt (hj d hd)
    · split
      · rename_i _ heq
        subst heq
        exact List.pairwise_cons.mpr ⟨hj, ht⟩
      · rename_i hlt hne
        refine List.pairwise_cons.mpr ⟨fun d hd => ?_, ih ht⟩
        rcases Memory.mem_write m h n d hd with he | hd
        · simp only [he]; omega
        · exact hj d hd

/-- Two canonical arenas that read alike everywhere are equal. -/
theorem Memory.ext_of_wf (m m' : Memory) (hm : m.wf) (hm' : m'.wf) (h : ∀ k, m.read k = m'.read k) : m = m' := by
  have above : ∀ (m : Memory) (j : Nat), (∀ d ∈ m, j < d.1) → ∀ k, k ≤ j → m.read k = none := by
    intro m j hj k hk
    induction m with
    | nil => rfl
    | cons c m ih =>
      obtain ⟨i, x⟩ := c
      have := hj (i, x) List.mem_cons_self
      simp only [Memory.read_cons]
      rw [if_neg (by simp at this; omega)]
      exact ih fun d hd => hj d (List.mem_cons_of_mem _ hd)
  induction m generalizing m' with
  | nil =>
    cases m' with
    | nil => rfl
    | cons c m' =>
      obtain ⟨i', x'⟩ := c
      simpa using h i'
  | cons c m ih =>
    obtain ⟨i, x⟩ := c
    cases m' with
    | nil => simpa using (h i).symm
    | cons c' m' =>
      obtain ⟨i', x'⟩ := c'
      have a := List.pairwise_cons.mp hm
      have a' := List.pairwise_cons.mp hm'
      have hi : i = i' := by
        rcases Nat.lt_trichotomy i i' with hlt | heq | hgt
        · have := h i
          rw [Memory.read_cons, if_pos rfl, above ((i', x') :: m') i (fun d hd => ?_) i le_rfl] at this
          · cases this
          · rcases List.mem_cons.mp hd with rfl | hd
            · exact hlt
            · exact lt_trans hlt (a'.1 d hd)
        · exact heq
        · have := h i'
          rw [Memory.read_cons (k := i') (m := m'), if_pos rfl, above ((i, x) :: m) i' (fun d hd => ?_) i' le_rfl] at this
          · cases this
          · rcases List.mem_cons.mp hd with rfl | hd
            · exact hgt
            · exact lt_trans hgt (a.1 d hd)
      subst hi
      have hx := h i
      simp only [Memory.read_cons, if_true] at hx
      cases hx
      congr 1
      refine ih m' a.2 a'.2 fun k => ?_
      have hk := h k
      simp only [Memory.read_cons] at hk
      split at hk
      · rename_i e
        subst e
        rw [above m k (a.1) k le_rfl, above m' k (a'.1) k le_rfl]
      · exact hk

end Sys2Proof.Machine
end

