-- ==== Sys2Proof/Laws/State.lean ====
section
/-! SUPPORT. What each update of State does to each field, once: true by unfolding, so that no later proof unfolds an
update. -/

namespace Sys2Proof.Machine

/-! `emit` -/

@[simp] theorem emit_mode (toks : List Token) (s : State) : (emit toks s).mode = s.mode := rfl
@[simp] theorem emit_err (toks : List Token) (s : State) : (emit toks s).err = s.err := rfl
@[simp] theorem emit_root (toks : List Token) (s : State) : (emit toks s).root = s.root := rfl
@[simp] theorem emit_cur (toks : List Token) (s : State) : (emit toks s).cur = s.cur := rfl
@[simp] theorem emit_nalloc (toks : List Token) (s : State) : (emit toks s).nalloc = s.nalloc := rfl
@[simp] theorem emit_freq (toks : List Token) (s : State) : (emit toks s).freq = s.freq := rfl
@[simp] theorem emit_node (toks : List Token) (s : State) : (emit toks s).node = s.node := rfl
@[simp] theorem emit_q (toks : List Token) (s : State) : (emit toks s).q = s.q := rfl
@[simp] theorem emit_clen (toks : List Token) (s : State) : (emit toks s).clen = s.clen := rfl
@[simp] theorem emit_cbits (toks : List Token) (s : State) : (emit toks s).cbits = s.cbits := rfl
@[simp] theorem emit_config (toks : List Token) (s : State) : (emit toks s).config = s.config := rfl
@[simp] theorem emit_pending (toks : List Token) (s : State) : (emit toks s).pending = s.pending := rfl
@[simp] theorem emit_out (toks : List Token) (s : State) : (emit toks s).out = s.out ++ toks := rfl

/-! `answer` -/

@[simp] theorem answer_mode (toks : List Token) (s : State) : (answer toks s).mode = s.mode := rfl
@[simp] theorem answer_err (toks : List Token) (s : State) : (answer toks s).err = s.err := rfl
@[simp] theorem answer_root (toks : List Token) (s : State) : (answer toks s).root = s.root := rfl
@[simp] theorem answer_cur (toks : List Token) (s : State) : (answer toks s).cur = s.cur := rfl
@[simp] theorem answer_nalloc (toks : List Token) (s : State) : (answer toks s).nalloc = s.nalloc := rfl
@[simp] theorem answer_freq (toks : List Token) (s : State) : (answer toks s).freq = s.freq := rfl
@[simp] theorem answer_node (toks : List Token) (s : State) : (answer toks s).node = s.node := rfl
@[simp] theorem answer_q (toks : List Token) (s : State) : (answer toks s).q = s.q := rfl
@[simp] theorem answer_clen (toks : List Token) (s : State) : (answer toks s).clen = s.clen := rfl
@[simp] theorem answer_cbits (toks : List Token) (s : State) : (answer toks s).cbits = s.cbits := rfl
@[simp] theorem answer_config (toks : List Token) (s : State) : (answer toks s).config = s.config := rfl
@[simp] theorem answer_pending (toks : List Token) (s : State) : (answer toks s).pending = s.pending := rfl
@[simp] theorem answer_out (toks : List Token) (s : State) : (answer toks s).out = s.out ++ (toks ++ [.st 0]) := rfl

/-! `writeNode` -/

@[simp] theorem writeNode_mode (s : State) (h : Handle) (n : Node) : (writeNode s h n).mode = s.mode := rfl
@[simp] theorem writeNode_err (s : State) (h : Handle) (n : Node) : (writeNode s h n).err = s.err := rfl
@[simp] theorem writeNode_root (s : State) (h : Handle) (n : Node) : (writeNode s h n).root = s.root := rfl
@[simp] theorem writeNode_cur (s : State) (h : Handle) (n : Node) : (writeNode s h n).cur = s.cur := rfl
@[simp] theorem writeNode_nalloc (s : State) (h : Handle) (n : Node) : (writeNode s h n).nalloc = s.nalloc := rfl
@[simp] theorem writeNode_freq (s : State) (h : Handle) (n : Node) : (writeNode s h n).freq = s.freq := rfl
@[simp] theorem writeNode_node (s : State) (h : Handle) (n : Node) : (writeNode s h n).node = s.node.write h.toNat n := rfl
@[simp] theorem writeNode_q (s : State) (h : Handle) (n : Node) : (writeNode s h n).q = s.q := rfl
@[simp] theorem writeNode_clen (s : State) (h : Handle) (n : Node) : (writeNode s h n).clen = s.clen := rfl
@[simp] theorem writeNode_cbits (s : State) (h : Handle) (n : Node) : (writeNode s h n).cbits = s.cbits := rfl
@[simp] theorem writeNode_config (s : State) (h : Handle) (n : Node) : (writeNode s h n).config = s.config := rfl
@[simp] theorem writeNode_pending (s : State) (h : Handle) (n : Node) : (writeNode s h n).pending = s.pending := rfl
@[simp] theorem writeNode_out (s : State) (h : Handle) (n : Node) : (writeNode s h n).out = s.out := rfl

/-! `pqInsert` -/

@[simp] theorem pqInsert_mode (h : Handle) (s : State) : (pqInsert h s).mode = s.mode := rfl
@[simp] theorem pqInsert_err (h : Handle) (s : State) : (pqInsert h s).err = s.err := rfl
@[simp] theorem pqInsert_root (h : Handle) (s : State) : (pqInsert h s).root = s.root := rfl
@[simp] theorem pqInsert_cur (h : Handle) (s : State) : (pqInsert h s).cur = s.cur := rfl
@[simp] theorem pqInsert_nalloc (h : Handle) (s : State) : (pqInsert h s).nalloc = s.nalloc := rfl
@[simp] theorem pqInsert_freq (h : Handle) (s : State) : (pqInsert h s).freq = s.freq := rfl
@[simp] theorem pqInsert_node (h : Handle) (s : State) : (pqInsert h s).node = s.node := rfl
@[simp] theorem pqInsert_q (h : Handle) (s : State) : (pqInsert h s).q = insertMember h s.q := rfl
@[simp] theorem pqInsert_clen (h : Handle) (s : State) : (pqInsert h s).clen = s.clen := rfl
@[simp] theorem pqInsert_cbits (h : Handle) (s : State) : (pqInsert h s).cbits = s.cbits := rfl
@[simp] theorem pqInsert_config (h : Handle) (s : State) : (pqInsert h s).config = s.config := rfl
@[simp] theorem pqInsert_pending (h : Handle) (s : State) : (pqInsert h s).pending = s.pending := rfl
@[simp] theorem pqInsert_out (h : Handle) (s : State) : (pqInsert h s).out = s.out := rfl

/-! `clearTable` -/

@[simp] theorem clearTable_mode (s : State) : (clearTable s).mode = s.mode := rfl
@[simp] theorem clearTable_err (s : State) : (clearTable s).err = s.err := rfl
@[simp] theorem clearTable_root (s : State) : (clearTable s).root = s.root := rfl
@[simp] theorem clearTable_cur (s : State) : (clearTable s).cur = s.cur := rfl
@[simp] theorem clearTable_nalloc (s : State) : (clearTable s).nalloc = s.nalloc := rfl
@[simp] theorem clearTable_freq (s : State) : (clearTable s).freq = s.freq := rfl
@[simp] theorem clearTable_node (s : State) : (clearTable s).node = s.node := rfl
@[simp] theorem clearTable_q (s : State) : (clearTable s).q = s.q := rfl
@[simp] theorem clearTable_clen (s : State) : (clearTable s).clen = Vector.replicate 256 0 := rfl
@[simp] theorem clearTable_cbits (s : State) : (clearTable s).cbits = Vector.replicate 256 0 := rfl
@[simp] theorem clearTable_config (s : State) : (clearTable s).config = s.config := rfl
@[simp] theorem clearTable_pending (s : State) : (clearTable s).pending = s.pending := rfl
@[simp] theorem clearTable_out (s : State) : (clearTable s).out = s.out := rfl

/-! `setCode` -/

@[simp] theorem setCode_mode (sym : Symbol) (path : List Bool) (s : State) : (setCode sym path s).mode = s.mode := rfl
@[simp] theorem setCode_err (sym : Symbol) (path : List Bool) (s : State) : (setCode sym path s).err = s.err := rfl
@[simp] theorem setCode_root (sym : Symbol) (path : List Bool) (s : State) : (setCode sym path s).root = s.root := rfl
@[simp] theorem setCode_cur (sym : Symbol) (path : List Bool) (s : State) : (setCode sym path s).cur = s.cur := rfl
@[simp] theorem setCode_nalloc (sym : Symbol) (path : List Bool) (s : State) : (setCode sym path s).nalloc = s.nalloc := rfl
@[simp] theorem setCode_freq (sym : Symbol) (path : List Bool) (s : State) : (setCode sym path s).freq = s.freq := rfl
@[simp] theorem setCode_node (sym : Symbol) (path : List Bool) (s : State) : (setCode sym path s).node = s.node := rfl
@[simp] theorem setCode_q (sym : Symbol) (path : List Bool) (s : State) : (setCode sym path s).q = s.q := rfl
@[simp] theorem setCode_clen (sym : Symbol) (path : List Bool) (s : State) : (setCode sym path s).clen = writeTable s.clen sym (BitVec.ofNat 8 path.length) := rfl
@[simp] theorem setCode_cbits (sym : Symbol) (path : List Bool) (s : State) : (setCode sym path s).cbits = writeTable s.cbits sym (pathBits path) := rfl
@[simp] theorem setCode_config (sym : Symbol) (path : List Bool) (s : State) : (setCode sym path s).config = s.config := rfl
@[simp] theorem setCode_pending (sym : Symbol) (path : List Bool) (s : State) : (setCode sym path s).pending = s.pending := rfl
@[simp] theorem setCode_out (sym : Symbol) (path : List Bool) (s : State) : (setCode sym path s).out = s.out := rfl

/-! `resetBlock` -/

@[simp] theorem resetBlock_mode (s : State) : (resetBlock s).mode = .idle := rfl
@[simp] theorem resetBlock_err (s : State) : (resetBlock s).err = 0 := rfl
@[simp] theorem resetBlock_root (s : State) : (resetBlock s).root = NIL := rfl
@[simp] theorem resetBlock_cur (s : State) : (resetBlock s).cur = NIL := rfl
@[simp] theorem resetBlock_nalloc (s : State) : (resetBlock s).nalloc = 0 := rfl
@[simp] theorem resetBlock_freq (s : State) : (resetBlock s).freq = Vector.replicate 256 0 := rfl
@[simp] theorem resetBlock_node (s : State) : (resetBlock s).node = [] := rfl
@[simp] theorem resetBlock_q (s : State) : (resetBlock s).q = [] := rfl
@[simp] theorem resetBlock_clen (s : State) : (resetBlock s).clen = Vector.replicate 256 0 := rfl
@[simp] theorem resetBlock_cbits (s : State) : (resetBlock s).cbits = Vector.replicate 256 0 := rfl
@[simp] theorem resetBlock_config (s : State) : (resetBlock s).config = s.config := rfl
@[simp] theorem resetBlock_pending (s : State) : (resetBlock s).pending = s.pending := rfl
@[simp] theorem resetBlock_out (s : State) : (resetBlock s).out = s.out := rfl

/-! `takeEvent` -/

@[simp] theorem takeEvent_mode (rest : List Event) (s : State) : (takeEvent rest s).mode = s.mode := rfl
@[simp] theorem takeEvent_err (rest : List Event) (s : State) : (takeEvent rest s).err = s.err := rfl
@[simp] theorem takeEvent_root (rest : List Event) (s : State) : (takeEvent rest s).root = s.root := rfl
@[simp] theorem takeEvent_cur (rest : List Event) (s : State) : (takeEvent rest s).cur = s.cur := rfl
@[simp] theorem takeEvent_nalloc (rest : List Event) (s : State) : (takeEvent rest s).nalloc = s.nalloc := rfl
@[simp] theorem takeEvent_freq (rest : List Event) (s : State) : (takeEvent rest s).freq = s.freq := rfl
@[simp] theorem takeEvent_node (rest : List Event) (s : State) : (takeEvent rest s).node = s.node := rfl
@[simp] theorem takeEvent_q (rest : List Event) (s : State) : (takeEvent rest s).q = s.q := rfl
@[simp] theorem takeEvent_clen (rest : List Event) (s : State) : (takeEvent rest s).clen = s.clen := rfl
@[simp] theorem takeEvent_cbits (rest : List Event) (s : State) : (takeEvent rest s).cbits = s.cbits := rfl
@[simp] theorem takeEvent_config (rest : List Event) (s : State) : (takeEvent rest s).config = s.config := rfl
@[simp] theorem takeEvent_pending (rest : List Event) (s : State) : (takeEvent rest s).pending = rest := rfl
@[simp] theorem takeEvent_out (rest : List Event) (s : State) : (takeEvent rest s).out = s.out := rfl

/-! `presentWord` -/

@[simp] theorem presentWord_mode (w : Word) (s : State) : (presentWord w s).mode = s.mode := rfl
@[simp] theorem presentWord_err (w : Word) (s : State) : (presentWord w s).err = s.err := rfl
@[simp] theorem presentWord_root (w : Word) (s : State) : (presentWord w s).root = s.root := rfl
@[simp] theorem presentWord_cur (w : Word) (s : State) : (presentWord w s).cur = s.cur := rfl
@[simp] theorem presentWord_nalloc (w : Word) (s : State) : (presentWord w s).nalloc = s.nalloc := rfl
@[simp] theorem presentWord_freq (w : Word) (s : State) : (presentWord w s).freq = s.freq := rfl
@[simp] theorem presentWord_node (w : Word) (s : State) : (presentWord w s).node = s.node := rfl
@[simp] theorem presentWord_q (w : Word) (s : State) : (presentWord w s).q = s.q := rfl
@[simp] theorem presentWord_clen (w : Word) (s : State) : (presentWord w s).clen = s.clen := rfl
@[simp] theorem presentWord_cbits (w : Word) (s : State) : (presentWord w s).cbits = s.cbits := rfl
@[simp] theorem presentWord_config (w : Word) (s : State) : (presentWord w s).config = s.config := rfl
@[simp] theorem presentWord_pending (w : Word) (s : State) : (presentWord w s).pending = .cmd w :: s.pending := rfl
@[simp] theorem presentWord_out (w : Word) (s : State) : (presentWord w s).out = s.out := rfl

end Sys2Proof.Machine
end

