-- ==== Sys2Proof/Laws/Ops.lean ====
section
/-! SUPPORT. What each shared operation can do, said once: sequencing of pseudocode, `require`, a command under its mode
check, `raise`, the read of a node, `alloc`, the queue. Later proofs cite these and unfold none of them. -/

namespace Sys2Proof.Machine

/-! ### Sequencing -/

@[simp] theorem proc_pure {α : Type} (a : α) : (pure a : Proc α) = .ok a := rfl

@[simp] theorem proc_bind_ok {α β : Type} (a : α) (f : α → Proc β) : ((.ok a : Proc α) >>= f) = f a := rfl

@[simp] theorem proc_bind_error {α β : Type} (e : Stop) (f : α → Proc β) :
    ((.error e : Proc α) >>= f) = .error e := rfl

/-- A sequence ends with a value exactly if both parts do. -/
theorem proc_bind_eq_ok {α β : Type} (x : Proc α) (f : α → Proc β) (b : β) :
    (x >>= f) = .ok b ↔ ∃ a, x = .ok a ∧ f a = .ok b := by
  cases x <;> simp

/-- A sequence ends early exactly if a part does. -/
theorem proc_bind_eq_error {α β : Type} (x : Proc α) (f : α → Proc β) (e : Stop) :
    (x >>= f) = .error e ↔ x = .error e ∨ ∃ a, x = .ok a ∧ f a = .error e := by
  cases x <;> simp

theorem require_of {c : Prop} [Decidable c] (h : c) (e : Error) : require c e = .ok () := if_pos h

theorem require_not {c : Prop} [Decidable c] (h : ¬ c) (e : Error) : require c e = .error (.raised e) := if_neg h

theorem require_eq_ok (c : Prop) [Decidable c] (e : Error) (u : Unit) : require c e = .ok u ↔ c := by
  unfold require; split <;> simp_all

theorem require_eq_error (c : Prop) [Decidable c] (e : Error) (x : Stop) :
    require c e = .error x ↔ ¬ c ∧ x = .raised e := by
  unfold require; split <;> simp_all [eq_comm]

/-! ### A command -/

theorem command_ok {p : List Mode} {body : State → Proc (State × List Token)} {s s' : State} {toks : List Token}
    (hm : s.mode ∈ p) (hb : body s = .ok (s', toks)) : command p body s = .next (answer toks s') := by
  simp [command, hm, hb]

theorem command_raised {p : List Mode} {body : State → Proc (State × List Token)} {s : State} {e : Error}
    (hm : s.mode ∈ p) (hb : body s = .error (.raised e)) : command p body s = .next (raise e s) := by
  simp [command, hm, hb]

theorem command_wrong_mode {p : List Mode} {body : State → Proc (State × List Token)} {s : State}
    (hm : s.mode ∉ p) : command p body s = .next (raise .illegalCommand s) := by
  simp [command, hm]

/-- Everything a command can do when it answers a next state: its pseudocode ends, or it raises from the state in
which it began. -/
theorem command_next {p : List Mode} {body : State → Proc (State × List Token)} {s t : State}
    (h : command p body s = .next t) :
    (s.mode ∈ p ∧ ∃ s' toks, body s = .ok (s', toks) ∧ t = answer toks s') ∨
    (s.mode ∈ p ∧ ∃ e, body s = .error (.raised e) ∧ t = raise e s) ∨
    (s.mode ∉ p ∧ t = raise .illegalCommand s) := by
  unfold command at h
  split at h
  · rename_i hm
    split at h
    · rename_i s' toks hb
      exact .inl ⟨hm, s', toks, hb, by simpa using h.symm⟩
    · rename_i e hb
      exact .inr (.inl ⟨hm, e, hb, by simpa using h.symm⟩)
    · cases h
  · rename_i hm
    exact .inr (.inr ⟨hm, by simpa using h.symm⟩)

/-- A command stops only where its pseudocode does. -/
theorem command_fault {p : List Mode} {body : State → Proc (State × List Token)} {s : State} {f : Fault}
    (h : command p body s = .fault f) : s.mode ∈ p ∧ body s = .error (.faulted f) := by
  unfold command at h
  split at h
  · rename_i hm
    split at h <;> simp_all
  · cases h

theorem command_not_refused {p : List Mode} {body : State → Proc (State × List Token)} {s : State} {r : Refusal} :
    command p body s ≠ .refused r := by
  unfold command
  split
  · split <;> simp
  · simp

/-! ### Taking an error -/

@[simp] theorem raise_err (e : Error) (s : State) : (raise e s).err = recordError s.err e := by
  unfold raise raiseMode; simp only [emit_err]; split <;> (try split) <;> rfl

@[simp] theorem raise_freq (e : Error) (s : State) : (raise e s).freq = s.freq := by
  unfold raise raiseMode; simp only [emit_freq]; split <;> (try split) <;> rfl

@[simp] theorem raise_node (e : Error) (s : State) : (raise e s).node = s.node := by
  unfold raise raiseMode; simp only [emit_node]; split <;> (try split) <;> rfl

@[simp] theorem raise_clen (e : Error) (s : State) : (raise e s).clen = s.clen := by
  unfold raise raiseMode; simp only [emit_clen]; split <;> (try split) <;> rfl

@[simp] theorem raise_cbits (e : Error) (s : State) : (raise e s).cbits = s.cbits := by
  unfold raise raiseMode; simp only [emit_cbits]; split <;> (try split) <;> rfl

@[simp] theorem raise_config (e : Error) (s : State) : (raise e s).config = s.config := by
  unfold raise raiseMode; simp only [emit_config]; split <;> (try split) <;> rfl

@[simp] theorem raise_pending (e : Error) (s : State) : (raise e s).pending = s.pending := by
  unfold raise raiseMode; simp only [emit_pending]; split <;> (try split) <;> rfl

@[simp] theorem raise_out (e : Error) (s : State) : (raise e s).out = s.out ++ [.st e.code] := by
  unfold raise raiseMode; simp only [emit_out]; split <;> (try split) <;> rfl

/-- `raise` in FATAL: only the record and the answer. -/
theorem raise_in_fatal {e : Error} {s : State} (h : s.mode = .fatal) :
    raise e s = { s with err := recordError s.err e, out := s.out ++ [.st e.code] } := by
  simp [raise, raiseMode, emit, h]

/-- A recoverable `raise` in IDLE: only the record and the answer. -/
theorem raise_in_idle {e : Error} {s : State} (h : s.mode = .idle) (he : e.fatal = false) :
    raise e s = { s with err := recordError s.err e, out := s.out ++ [.st e.code] } := by
  simp [raise, raiseMode, emit, h, he]

/-- A recoverable `raise` in a frame: the record, the abort, the answer. -/
theorem raise_in_frame {e : Error} {s : State} (h : s.mode = .encode ∨ s.mode = .decode) (he : e.fatal = false) :
    raise e s = { s with mode := .idle, err := recordError s.err e, cur := NIL, out := s.out ++ [.st e.code] } := by
  rcases h with h | h <;> simp [raise, raiseMode, emit, h, he]

/-- A fatal `raise` outside FATAL: the record, the tree discarded, the answer. -/
theorem raise_fatal {e : Error} {s : State} (h : s.mode ≠ .fatal) (he : e.fatal = true) :
    raise e s = { s with mode := .fatal, err := recordError s.err e, root := NIL, nalloc := 0, q := [], cur := NIL,
                         out := s.out ++ [.st e.code] } := by
  cases hm : s.mode <;> simp_all [raise, raiseMode, emit]

/-! ### The arena -/

@[simp] theorem nodeAt_emit (toks : List Token) (s : State) (h : Handle) : (emit toks s).nodeAt h = s.nodeAt h := rfl

@[simp] theorem nodeAt_answer (toks : List Token) (s : State) (h : Handle) : (answer toks s).nodeAt h = s.nodeAt h :=
  rfl

/-- A read of `NODE` yields exactly the allocated entries. -/
theorem readNode_eq_ok (s : State) (h : Handle) (n : Node) : readNode s h = .ok n ↔ s.nodeAt h = some n := by
  unfold readNode State.nodeAt
  split
  · split <;> simp_all
  · simp

/-- A read of an entry that is not allocated stops. -/
theorem readNode_eq_error (s : State) (h : Handle) (x : Stop) :
    readNode s h = .error x ↔ s.nodeAt h = none ∧ x = .faulted (.unallocatedNode h) := by
  unfold readNode State.nodeAt
  split
  · split
    · rename_i n hn; simp [hn]
    · rename_i hn; simp [hn, eq_comm]
  · simp [eq_comm]

/-- Everything `alloc` can do when it yields a handle. -/
theorem alloc_eq_ok (s s' : State) (h : Handle) :
    alloc s = .ok (h, s') ↔ s.nalloc.toNat < s.config.arenaSize ∧ h = s.nalloc ∧
      s' = { s with nalloc := s.nalloc + 1 } := by
  unfold alloc
  split <;> simp_all [eq_comm]

/-- `alloc` fails exactly when the arena is full. -/
theorem alloc_eq_error (s : State) (x : Stop) :
    alloc s = .error x ↔ s.config.arenaSize ≤ s.nalloc.toNat ∧ x = .raised .allocationFailure := by
  unfold alloc
  split <;> simp_all [eq_comm]

/-- Everything `addNode` can do when it ends: the entry stands at the next handle, which is a member of the queue. -/
theorem addNode_eq_ok (n : Node) (s t : State) :
    addNode n s = .ok t ↔ s.nalloc.toNat < s.config.arenaSize ∧
      t = { s with nalloc := s.nalloc + 1, node := s.node.write s.nalloc.toNat n, q := insertMember s.nalloc s.q } := by
  unfold addNode
  simp only [proc_bind_eq_ok, Prod.exists, alloc_eq_ok, proc_pure, Except.ok.injEq]
  constructor
  · rintro ⟨h, s', ⟨hlt, rfl, rfl⟩, rfl⟩
    exact ⟨hlt, rfl⟩
  · rintro ⟨hlt, rfl⟩
    exact ⟨s.nalloc, _, ⟨hlt, rfl, rfl⟩, rfl⟩

/-! ### The queue -/

theorem mem_insertMember (h k : Handle) (q : List Handle) : k ∈ insertMember h q ↔ k = h ∨ k ∈ q := by
  induction q with
  | nil => simp [insertMember]
  | cons j q ih =>
    simp only [insertMember]
    split
    · simp
    · split
      · rename_i he; subst he; simp
      · simp [ih]; tauto

/-- The order of keys is total: of two different keys one is below the other. -/
theorem keyLt_total (a b : Key) (h : a ≠ b) : keyLt a b = true ∨ keyLt b a = true := by
  obtain ⟨f, x⟩ := a
  obtain ⟨g, y⟩ := b
  have : f.toNat ≠ g.toNat ∨ x.toNat ≠ y.toNat := by
    by_contra hc
    push Not at hc
    exact h (by rw [BitVec.eq_of_toNat_eq hc.1, BitVec.eq_of_toNat_eq hc.2])
  simp only [keyLt, Bool.or_eq_true, Bool.and_eq_true, decide_eq_true_eq]
  omega

theorem keyLt_trans {a b c : Key} (hab : keyLt a b = true) (hbc : keyLt b c = true) : keyLt a c = true := by
  simp only [keyLt, Bool.or_eq_true, Bool.and_eq_true, decide_eq_true_eq] at *
  omega

theorem keyLt_irrefl (a : Key) : keyLt a a = false := by simp [keyLt]

/-- The least key is one of the keys. -/
theorem leastKey_mem (k : Key) (ks : List Key) : leastKey k ks ∈ k :: ks := by
  induction ks generalizing k with
  | nil => simp [leastKey]
  | cons j ks ih =>
    simp only [leastKey]
    rcases List.mem_cons.mp (ih (if keyLt j k then j else k)) with he | hm
    · rw [he]; split <;> simp
    · exact List.mem_cons_of_mem _ (List.mem_cons_of_mem _ hm)

/-- The least key is not above any of the keys. -/
theorem leastKey_le (k : Key) (ks : List Key) : ∀ j ∈ k :: ks, keyLt j (leastKey k ks) = false := by
  induction ks generalizing k with
  | nil => simp [leastKey, keyLt_irrefl]
  | cons i ks ih =>
    intro j hj
    simp only [leastKey]
    by_cases hik : keyLt i k = true
    · rw [if_pos hik]
      rcases List.mem_cons.mp hj with rfl | hj
      · by_contra hc
        have := keyLt_trans hik (by simpa using hc)
        rw [ih i i List.mem_cons_self] at this
        cases this
      · exact ih i j hj
    · rw [if_neg hik]
      rcases List.mem_cons.mp hj with rfl | hj
      · exact ih j j List.mem_cons_self
      · rcases List.mem_cons.mp hj with rfl | hj
        · by_contra hc
          by_cases he : j = k
          · subst he; rw [ih j j List.mem_cons_self] at hc; exact hc rfl
          · rcases keyLt_total j k he with hl | hl
            · exact hik hl
            · have := keyLt_trans hl (by simpa using hc)
              rw [ih k k List.mem_cons_self] at this
              cases this
        · exact ih k j (List.mem_cons_of_mem _ hj)

/-- The keys of allocated members, in the members' order. -/
theorem keysOf_eq_ok (s : State) (hs : List Handle) (ks : List Key) :
    keysOf s hs = .ok ks ↔ List.Forall₂ (fun h (k : Key) => k.2 = h ∧ ∃ n, s.nodeAt h = some n ∧ k.1 = n.freq) hs ks := by
  induction hs generalizing ks with
  | nil => cases ks <;> simp [keysOf]
  | cons h hs ih =>
    simp only [keysOf, proc_bind_eq_ok, readNode_eq_ok, proc_pure, Except.ok.injEq, ih]
    constructor
    · rintro ⟨n, hn, ks', hks, rfl⟩
      exact .cons ⟨rfl, n, hn, rfl⟩ hks
    · rintro (_ | ⟨⟨rfl, n, hn, he⟩, hks⟩)
      rename_i k ks'
      exact ⟨n, hn, ks', hks, by rw [← he]⟩

/-- Everything `pq_extract_min` can do when it yields a handle: a member leaves, and nothing else changes. -/
theorem pqExtractMin_ok {s s' : State} {h : Handle} (hx : pqExtractMin s = .ok (h, s')) :
    h ∈ s.q ∧ s' = { s with q := s.q.erase h } := by
  unfold pqExtractMin at hx
  simp only [proc_bind_eq_ok, keysOf_eq_ok] at hx
  obtain ⟨ks, hks, hx⟩ := hx
  cases ks with
  | nil => cases hx
  | cons k ks =>
    simp only [proc_pure, Except.ok.injEq, Prod.mk.injEq] at hx
    obtain ⟨rfl, rfl⟩ := hx
    refine ⟨?_, rfl⟩
    have : ∀ (hs : List Handle) (ks : List Key),
        List.Forall₂ (fun h (k : Key) => k.2 = h ∧ ∃ n, s.nodeAt h = some n ∧ k.1 = n.freq) hs ks →
        ∀ k ∈ ks, k.2 ∈ hs := by
      intro hs ks hf
      induction hf with
      | nil => simp
      | cons hh _ ih =>
        intro k hk
        rcases List.mem_cons.mp hk with rfl | hk
        · rw [hh.1]; exact List.mem_cons_self
        · exact List.mem_cons_of_mem _ (ih k hk)
    exact this _ _ hks _ (leastKey_mem k ks)

/-- Collecting the keys can only stop, on a member that is not allocated. -/
theorem keysOf_error {s : State} {hs : List Handle} {x : Stop} (h : keysOf s hs = .error x) :
    ∃ k ∈ hs, s.nodeAt k = none ∧ x = .faulted (.unallocatedNode k) := by
  induction hs with
  | nil => cases h
  | cons j hs ih =>
    simp only [keysOf] at h
    rcases (proc_bind_eq_error _ _ _).mp h with h | ⟨n, _, h⟩
    · obtain ⟨hn, rfl⟩ := (readNode_eq_error _ _ _).mp h
      exact ⟨j, List.mem_cons_self, hn, rfl⟩
    · rcases (proc_bind_eq_error _ _ _).mp h with h | ⟨ks, _, h⟩
      · obtain ⟨k, hk, hn, rfl⟩ := ih h
        exact ⟨k, List.mem_cons_of_mem _ hk, hn, rfl⟩
      · cases h

/-- `pq_extract_min` ends early on an empty queue, or stops on a member that is not allocated. -/
theorem pqExtractMin_error {s : State} {x : Stop} (h : pqExtractMin s = .error x) :
    (s.q = [] ∧ x = .raised .emptyQueue) ∨ ∃ k ∈ s.q, s.nodeAt k = none ∧ x = .faulted (.unallocatedNode k) := by
  unfold pqExtractMin at h
  rcases (proc_bind_eq_error _ _ _).mp h with h | ⟨ks, hks, h⟩
  · exact .inr (keysOf_error h)
  · cases ks with
    | nil =>
      rw [keysOf_eq_ok] at hks
      cases hq : s.q with
      | nil => exact .inl ⟨rfl, by simpa using h.symm⟩
      | cons _ _ => rw [hq] at hks; cases hks
    | cons k ks => cases h

end Sys2Proof.Machine
end

