-- ==== Sys2Proof/Laws/Exec.lean ====
section
/-! SUPPORT. Every command as its mode list and its pseudocode, so that a claim about all commands is a claim about
`command` and one small lemma per piece of pseudocode. -/

namespace Sys2Proof.Machine

/-- The modes of a command. -/
def modesOf : Instr → List Mode
  | .nop => notFatal
  | .rdstat => anyMode
  | .clrerr => idleOnly
  | .fclr => idleOnly
  | .count _ => idleOnly
  | .ldf _ _ => idleOnly
  | .rdfreq _ => notFatal
  | .build => idleOnly
  | .rdnode _ => notFatal
  | .release => idleOnly
  | .gen => idleOnly
  | .rdcode _ => notFatal
  | .ebegin => idleOnly
  | .enc _ => encodeOnly
  | .eend => encodeOnly
  | .dbegin => idleOnly
  | .dec _ => decodeOnly
  | .dend => decodeOnly

/-- The pseudocode of a command. -/
def bodyOf : Instr → State → Proc (State × List Token)
  | .nop => fun s => .ok (s, [])
  | .rdstat => fun s => .ok (s, [.data s.status0, .data s.status1])
  | .clrerr => fun s => .ok ({ s with err := 0 }, [])
  | .fclr => fun s => .ok ({ s with freq := Vector.replicate 256 0 }, [])
  | .count sym => countBody sym
  | .ldf sym cnt => fun s => .ok ({ s with freq := writeTable s.freq sym cnt }, [])
  | .rdfreq sym => fun s => .ok (s, [.data (readTable s.freq sym)])
  | .build => buildBody
  | .rdnode h => rdnodeBody h
  | .release => fun s => .ok (releaseTree s, [])
  | .gen => genBody
  | .rdcode sym => fun s => .ok (s, codeTokens s sym)
  | .ebegin => fun s => .ok ({ s with mode := .encode }, [])
  | .enc sym => encBody sym
  | .eend => fun s => .ok ({ s with mode := .idle }, [])
  | .dbegin => dbeginBody
  | .dec v => decBody v
  | .dend => dendBody

theorem exec_eq_command (i : Instr) (s : State) : exec i s = command (modesOf i) (bodyOf i) s := by cases i <;> rfl

/-- The mode lists are the permission table (60_exceptions.md R214). -/
theorem mem_modesOf (i : Instr) (m : Mode) : m ∈ modesOf i ↔ permits i m = true := by
  cases i <;> cases m <;> simp [modesOf, permits, notFatal, anyMode, idleOnly, encodeOnly, decodeOnly]

/-- Everything a command can do when it answers a next state: its pseudocode ends, or it raises from the state in which
it began. -/
theorem exec_next {i : Instr} {s t : State} (h : exec i s = .next t) :
    (permits i s.mode = true ∧ ∃ s' toks, bodyOf i s = .ok (s', toks) ∧ t = answer toks s') ∨
    (permits i s.mode = true ∧ ∃ e, bodyOf i s = .error (.raised e) ∧ t = raise e s) ∨
    (permits i s.mode = false ∧ t = raise .illegalCommand s) := by
  rw [exec_eq_command] at h
  have hp : s.mode ∉ modesOf i ↔ permits i s.mode = false := by rw [mem_modesOf]; simp
  rcases command_next h with ⟨hm, h⟩ | ⟨hm, h⟩ | ⟨hm, h⟩
  · exact .inl ⟨(mem_modesOf _ _).mp hm, h⟩
  · exact .inr (.inl ⟨(mem_modesOf _ _).mp hm, h⟩)
  · exact .inr (.inr ⟨hp.mp hm, h⟩)

/-- A command whose mode is not permitted raises `IllegalCommand`. -/
theorem exec_wrong_mode {i : Instr} {s : State} (h : permits i s.mode = false) :
    exec i s = .next (raise .illegalCommand s) := by
  rw [exec_eq_command]
  exact command_wrong_mode (by rw [mem_modesOf]; simp [h])

/-! ### What each piece of pseudocode can do when it ends -/

theorem countBody_ok {sym : Symbol} {s s' : State} {toks : List Token} :
    countBody sym s = .ok (s', toks) ↔ readTable s.freq sym ≠ 0xFFFFFFFF#32 ∧ toks = [] ∧
      s' = { s with freq := writeTable s.freq sym (readTable s.freq sym + 1) } := by
  simp only [countBody, proc_bind_eq_ok, require_eq_ok, proc_pure, Except.ok.injEq, Prod.mk.injEq]
  constructor
  · rintro ⟨_, h, rfl, rfl⟩; exact ⟨h, rfl, rfl⟩
  · rintro ⟨h, rfl, rfl⟩; exact ⟨(), h, rfl, rfl⟩

theorem rdnodeBody_ok {h : Handle} {s s' : State} {toks : List Token} :
    rdnodeBody h s = .ok (s', toks) ↔
      ∃ n, s.nodeAt h = some n ∧ s' = s ∧ toks = [.data n.word0, .data n.word1, .data n.word2] := by
  simp only [rdnodeBody, proc_bind_eq_ok, require_eq_ok, proc_pure, Except.ok.injEq, Prod.mk.injEq, readNode_eq_ok]
  constructor
  · rintro ⟨_, _, n, hn, rfl, rfl⟩; exact ⟨n, hn, rfl, rfl⟩
  · rintro ⟨n, hn, rfl, rfl⟩
    refine ⟨(), ?_, n, hn, rfl, rfl⟩
    unfold State.nodeAt at hn
    split at hn
    · assumption
    · cases hn

theorem encBody_ok {sym : Symbol} {s s' : State} {toks : List Token} :
    encBody sym s = .ok (s', toks) ↔ readTable s.clen sym ≠ 0 ∧ s' = s ∧ toks = (s.code sym).map .bit := by
  simp only [encBody, proc_bind_eq_ok, require_eq_ok, proc_pure, Except.ok.injEq, Prod.mk.injEq]
  constructor
  · rintro ⟨_, h, rfl, rfl⟩; exact ⟨h, rfl, rfl⟩
  · rintro ⟨h, rfl, rfl⟩; exact ⟨(), h, rfl, rfl⟩

theorem dbeginBody_ok {s s' : State} {toks : List Token} :
    dbeginBody s = .ok (s', toks) ↔ s.root ≠ NIL ∧ toks = [] ∧ s' = { s with cur := s.root, mode := .decode } := by
  simp only [dbeginBody, proc_bind_eq_ok, require_eq_ok, proc_pure, Except.ok.injEq, Prod.mk.injEq]
  constructor
  · rintro ⟨_, h, rfl, rfl⟩; exact ⟨h, rfl, rfl⟩
  · rintro ⟨h, rfl, rfl⟩; exact ⟨(), h, rfl, rfl⟩

theorem dendBody_ok {s s' : State} {toks : List Token} :
    dendBody s = .ok (s', toks) ↔ s.cur = s.root ∧ toks = [] ∧ s' = { s with cur := NIL, mode := .idle } := by
  simp only [dendBody, proc_bind_eq_ok, require_eq_ok, proc_pure, Except.ok.injEq, Prod.mk.injEq]
  constructor
  · rintro ⟨_, h, rfl, rfl⟩; exact ⟨h, rfl, rfl⟩
  · rintro ⟨h, rfl, rfl⟩; exact ⟨(), h, rfl, rfl⟩

/-- The recognized bits are 0 and 1 (30_encoding.md R72). -/
theorem recognizedBit_eq_some (v : BitVec 8) (b : Bool) : recognizedBit v = some b ↔ v = if b then 1#8 else 0#8 := by
  unfold recognizedBit
  cases b
  · split
    · simp [*]
    · split <;> simp_all
  · split
    · rename_i h; subst h; simp
    · split <;> simp_all

/-- Everything DEC can do when it ends: it stays at a Leaf root, it reaches a Leaf, or it goes one edge down. -/
theorem decBody_ok {v : BitVec 8} {s s' : State} {toks : List Token} :
    decBody v s = .ok (s', toks) ↔ ∃ b nd, recognizedBit v = some b ∧ s.nodeAt s.cur = some nd ∧
      ((nd.kind = .leaf ∧ b = LEFT_BIT ∧ s' = s ∧ toks = [.sym nd.sym]) ∨
       ∃ m, nd.kind = .internal ∧ s.nodeAt (nd.child b) = some m ∧
        ((m.kind = .leaf ∧ s' = { s with cur := s.root } ∧ toks = [.sym m.sym]) ∨
         (m.kind = .internal ∧ s' = { s with cur := nd.child b } ∧ toks = []))) := by
  unfold decBody
  cases hr : recognizedBit v with
  | none => simp
  | some b =>
    simp only [moveCursor, proc_bind_eq_ok, readNode_eq_ok, Option.some.injEq]
    constructor
    · rintro ⟨nd, hn, h⟩
      refine ⟨b, nd, rfl, hn, ?_⟩
      cases hk : nd.kind with
      | leaf =>
        simp only [hk, proc_bind_eq_ok, require_eq_ok, proc_pure, Except.ok.injEq, Prod.mk.injEq] at h
        obtain ⟨_, hb, rfl, rfl⟩ := h
        exact .inl ⟨rfl, hb, rfl, rfl⟩
      | internal =>
        simp only [hk, proc_bind_eq_ok, readNode_eq_ok] at h
        obtain ⟨m, hm, h⟩ := h
        refine .inr ⟨m, rfl, hm, ?_⟩
        cases hmk : m.kind <;> simp only [hmk, proc_pure, Except.ok.injEq, Prod.mk.injEq] at h <;>
          obtain ⟨rfl, rfl⟩ := h
        · exact .inl ⟨rfl, rfl, rfl⟩
        · exact .inr ⟨rfl, rfl, rfl⟩
    · rintro ⟨b', nd, rfl, hn, h⟩
      refine ⟨nd, hn, ?_⟩
      rcases h with ⟨hk, hb, rfl, rfl⟩ | ⟨m, hk, hm, h⟩
      · simp [hk, hb, require]
      · simp only [hk, proc_bind_eq_ok, readNode_eq_ok]
        refine ⟨m, hm, ?_⟩
        rcases h with ⟨hmk, rfl, rfl⟩ | ⟨hmk, rfl, rfl⟩ <;> simp [hmk]

end Sys2Proof.Machine
end

