-- ==== Sys2Proof/Laws/Build.lean ====
section
/-! SUPPORT. What the loops of BUILD and the walk of GEN can change, and how they can end early. -/

namespace Sys2Proof.Machine

/-! ### BUILD: only the arena and the queue move -/

/-- `t` is `s` but for `NALLOC`, `NODE` and `Q`. -/
def ArenaOnly (s t : State) : Prop := t = { s with nalloc := t.nalloc, node := t.node, q := t.q }

theorem ArenaOnly.refl (s : State) : ArenaOnly s s := rfl

theorem ArenaOnly.trans {s t u : State} (h : ArenaOnly s t) (h' : ArenaOnly t u) : ArenaOnly s u := by
  unfold ArenaOnly at *
  rw [h'] ; simp only; rw [h]

/-- The arena is in its canonical form, within its size, and so is `NALLOC`. -/
structure ArenaForm (s : State) : Prop where
  form  : s.node.wf
  range : ∀ c ∈ s.node, c.1 < s.config.arenaSize
  size  : s.nalloc.toNat ≤ s.config.arenaSize

theorem nalloc_succ {s : State} (h : s.nalloc.toNat < s.config.arenaSize) :
    (s.nalloc + 1).toNat = s.nalloc.toNat + 1 := by
  have := s.config.arenaMax
  rw [BitVec.toNat_add]; simp; omega

theorem addNode_arena {n : Node} {s t : State} (h : addNode n s = .ok t) :
    ArenaOnly s t ∧ (ArenaForm s → ArenaForm t) := by
  obtain ⟨hlt, rfl⟩ := (addNode_eq_ok n s t).mp h
  refine ⟨rfl, fun f => ⟨Memory.wf_write _ _ _ f.form, fun c hc => ?_, ?_⟩⟩
  · rcases Memory.mem_write _ _ _ _ hc with he | hc
    · simpa [he] using hlt
    · exact f.range c hc
  · have := nalloc_succ hlt
    simp only; omega

theorem addNode_error {n : Node} {s : State} {x : Stop} (h : addNode n s = .error x) :
    x = .raised .allocationFailure := by
  unfold addNode at h
  rcases (proc_bind_eq_error _ _ _).mp h with h | ⟨a, _, h⟩
  · exact ((alloc_eq_error _ _).mp h).2
  · cases h

theorem leafLoop_arena {xs : List Symbol} {s t : State} (h : leafLoop xs s = .ok t) :
    ArenaOnly s t ∧ (ArenaForm s → ArenaForm t) := by
  induction xs generalizing s with
  | nil => cases h; exact ⟨.refl _, id⟩
  | cons x xs ih =>
    simp only [leafLoop] at h
    split at h
    · exact ih h
    · obtain ⟨u, hu, h⟩ := (proc_bind_eq_ok _ _ _).mp h
      exact ⟨(addNode_arena hu).1.trans (ih h).1, fun f => (ih h).2 ((addNode_arena hu).2 f)⟩

theorem leafLoop_error {xs : List Symbol} {s : State} {x : Stop} (h : leafLoop xs s = .error x) :
    x = .raised .allocationFailure := by
  induction xs generalizing s with
  | nil => cases h
  | cons y ys ih =>
    simp only [leafLoop] at h
    split at h
    · exact ih h
    · rcases (proc_bind_eq_error _ _ _).mp h with h | ⟨u, _, h⟩
      · exact addNode_error h
      · exact ih h

theorem pqExtractMin_arena {s t : State} {h : Handle} (hx : pqExtractMin s = .ok (h, t)) :
    ArenaOnly s t ∧ (ArenaForm s → ArenaForm t) := by
  obtain ⟨_, rfl⟩ := pqExtractMin_ok hx
  exact ⟨rfl, fun f => ⟨f.form, f.range, f.size⟩⟩

theorem mergeOnce_arena {s t : State} (h : mergeOnce s = .ok t) :
    ArenaOnly s t ∧ (ArenaForm s → ArenaForm t) := by
  simp only [mergeOnce, proc_bind_eq_ok, Prod.exists] at h
  obtain ⟨a, s1, h1, b, s2, h2, na, _, nb, _, h⟩ := h
  have e1 := pqExtractMin_arena h1
  have e2 := pqExtractMin_arena h2
  have e3 := addNode_arena h
  exact ⟨(e1.1.trans e2.1).trans e3.1, fun f => e3.2 (e2.2 (e1.2 f))⟩

theorem mergeLoop_arena {n : Nat} {s t : State} (h : mergeLoop n s = .ok t) :
    ArenaOnly s t ∧ (ArenaForm s → ArenaForm t) := by
  induction n generalizing s with
  | zero => cases h; exact ⟨.refl _, id⟩
  | succ n ih =>
    simp only [mergeLoop] at h
    split at h
    · obtain ⟨u, hu, h⟩ := (proc_bind_eq_ok _ _ _).mp h
      exact ⟨(mergeOnce_arena hu).1.trans (ih h).1, fun f => (ih h).2 ((mergeOnce_arena hu).2 f)⟩
    · cases h; exact ⟨.refl _, id⟩

theorem pqExtractMin_raised {s : State} {e : Error} (h : pqExtractMin s = .error (.raised e)) : e = .emptyQueue := by
  rcases pqExtractMin_error h with ⟨_, h⟩ | ⟨_, _, _, h⟩
  · simpa using h
  · cases h

theorem mergeOnce_raised {s : State} {e : Error} (h : mergeOnce s = .error (.raised e)) :
    e = .emptyQueue ∨ e = .allocationFailure := by
  simp only [mergeOnce] at h
  rcases (proc_bind_eq_error _ _ _).mp h with h | ⟨_, _, h⟩
  · exact .inl (pqExtractMin_raised h)
  rcases (proc_bind_eq_error _ _ _).mp h with h | ⟨_, _, h⟩
  · exact .inl (pqExtractMin_raised h)
  rcases (proc_bind_eq_error _ _ _).mp h with h | ⟨_, _, h⟩
  · cases ((readNode_eq_error _ _ _).mp h).2
  rcases (proc_bind_eq_error _ _ _).mp h with h | ⟨_, _, h⟩
  · cases ((readNode_eq_error _ _ _).mp h).2
  · exact .inr (by simpa using addNode_error h)

theorem mergeLoop_raised {n : Nat} {s : State} {e : Error} (h : mergeLoop n s = .error (.raised e)) :
    e = .emptyQueue ∨ e = .allocationFailure := by
  induction n generalizing s with
  | zero => cases h
  | succ n ih =>
    simp only [mergeLoop] at h
    split at h
    · rcases (proc_bind_eq_error _ _ _).mp h with h | ⟨_, _, h⟩
      · exact mergeOnce_raised h
      · exact ih h
    · cases h

/-- Every error BUILD can raise of its own (60_exceptions.md R211), and when it is one of the first two. -/
theorem buildBody_raised {s : State} {e : Error} (h : buildBody s = .error (.raised e)) :
    (s.root ≠ NIL ∧ e = .illegalCommand) ∨ (s.root = NIL ∧ s.hasSymbol = false ∧ e = .emptyInput) ∨
      (s.root = NIL ∧ s.hasSymbol = true ∧ (e = .allocationFailure ∨ e = .emptyQueue)) := by
  simp only [buildBody] at h
  rcases (proc_bind_eq_error _ _ _).mp h with h | ⟨_, hr, h⟩
  · obtain ⟨hr, he⟩ := (require_eq_error _ _ _).mp h
    exact .inl ⟨hr, by simpa using he⟩
  rw [require_eq_ok] at hr
  rcases (proc_bind_eq_error _ _ _).mp h with h | ⟨_, hs, h⟩
  · obtain ⟨hs, he⟩ := (require_eq_error _ _ _).mp h
    exact .inr (.inl ⟨hr, by simpa using hs, by simpa using he⟩)
  rw [require_eq_ok] at hs
  refine .inr (.inr ⟨hr, hs, ?_⟩)
  rcases (proc_bind_eq_error _ _ _).mp h with h | ⟨_, _, h⟩
  · exact .inl (by simpa using leafLoop_error h)
  rcases (proc_bind_eq_error _ _ _).mp h with h | ⟨_, _, h⟩
  · exact (mergeLoop_raised h).symm
  rcases (proc_bind_eq_error _ _ _).mp h with h | ⟨_, _, h⟩
  · exact .inr (pqExtractMin_raised h)
  · cases h

/-- Everything BUILD can do when it ends: the tree, the queue, and no tokens of its own. -/
theorem buildBody_ok {s s' : State} {toks : List Token} (h : buildBody s = .ok (s', toks)) :
    s.root = NIL ∧ toks = [] ∧ s' = { s with root := s'.root, nalloc := s'.nalloc, node := s'.node, q := s'.q } ∧
      (ArenaForm s → ArenaForm s') := by
  simp only [buildBody, proc_bind_eq_ok, require_eq_ok, Prod.exists, proc_pure, Except.ok.injEq, Prod.mk.injEq] at h
  obtain ⟨_, hr, _, _, s1, h1, s2, h2, r, s3, h3, rfl, rfl⟩ := h
  have e1 := leafLoop_arena h1
  have e2 := mergeLoop_arena h2
  have e3 := pqExtractMin_arena h3
  refine ⟨hr, rfl, ?_, fun f => ?_⟩
  · have e := (e1.1.trans e2.1).trans e3.1
    unfold ArenaOnly at e
    rw [e]
  · have f' := e3.2 (e2.2 (e1.2 f))
    exact ⟨f'.form, f'.range, f'.size⟩

/-! ### GEN: only the table moves -/

/-- `t` is `s` but for `CLEN` and `CBITS`. -/
def TableOnly (s t : State) : Prop := t = { s with clen := t.clen, cbits := t.cbits }

theorem TableOnly.trans {s t u : State} (h : TableOnly s t) (h' : TableOnly t u) : TableOnly s u := by
  unfold TableOnly at *
  rw [h'] ; simp only; rw [h]

theorem walk_table {k : Nat} {h : Handle} {path : List Bool} {s t : State} (hw : walk k h path s = .ok t) :
    TableOnly s t := by
  induction k generalizing h path s t with
  | zero => cases hw
  | succ k ih =>
    simp only [walk, proc_bind_eq_ok] at hw
    obtain ⟨n, _, hw⟩ := hw
    split at hw
    · cases hw; rfl
    · obtain ⟨u, hu, hw⟩ := (proc_bind_eq_ok _ _ _).mp hw
      exact (ih hu).trans (ih hw)

/-- Everything GEN can do when it ends: the table, and no tokens of its own. -/
theorem genBody_ok {s s' : State} {toks : List Token} (h : genBody s = .ok (s', toks)) :
    toks = [] ∧ s' = { s with clen := s'.clen, cbits := s'.cbits } := by
  unfold genBody at h
  split at h
  · cases h; exact ⟨rfl, rfl⟩
  · simp only [proc_bind_eq_ok, proc_pure, Except.ok.injEq, Prod.mk.injEq] at h
    obtain ⟨u, hu, rfl, rfl⟩ := h
    refine ⟨rfl, ?_⟩
    have e : TableOnly (clearTable s) u := by
      simp only [genTree, proc_bind_eq_ok] at hu
      obtain ⟨n, _, hu⟩ := hu
      split at hu
      · cases hu; rfl
      · exact walk_table hu
    unfold TableOnly at e
    rw [e]; rfl

/-- GEN raises nothing; it can only stop, on a read or on a path too long. -/
theorem genBody_error {s : State} {x : Stop} (h : genBody s = .error x) : ∃ f, x = .faulted f := by
  have hw : ∀ k h path (s : State) (x : Stop), walk k h path s = .error x → ∃ f, x = .faulted f := by
    intro k
    induction k with
    | zero => intro h path s x hx; exact ⟨.codeTooLong, by simpa [walk] using hx.symm⟩
    | succ k ih =>
      intro h path s x hx
      simp only [walk] at hx
      rcases (proc_bind_eq_error _ _ _).mp hx with hx | ⟨n, _, hx⟩
      · exact ⟨_, ((readNode_eq_error _ _ _).mp hx).2⟩
      · split at hx
        · cases hx
        · rcases (proc_bind_eq_error _ _ _).mp hx with hx | ⟨u, _, hx⟩
          · exact ih _ _ _ _ hx
          · exact ih _ _ _ _ hx
  unfold genBody at h
  split at h
  · cases h
  · rcases (proc_bind_eq_error _ _ _).mp h with h | ⟨u, _, h⟩
    · simp only [genTree] at h
      rcases (proc_bind_eq_error _ _ _).mp h with h | ⟨n, _, h⟩
      · exact ⟨_, ((readNode_eq_error _ _ _).mp h).2⟩
      · split at h
        · cases h
        · exact hw _ _ _ _ _ h
    · cases h

end Sys2Proof.Machine
end

