-- ==== Sys2Proof/Laws/Encoding.lean ====
section
/-! SUPPORT. The fields of a packed word, and a word from its fields (30_encoding.md R70). -/

namespace Sys2Proof

/-- The bits of a packed word, field by field. -/
theorem packWord_getLsbD (op a : BitVec 8) (d : BitVec 32) (i : Nat) :
    (packWord op a d).getLsbD i =
      if i < 32 then d.getLsbD i else if i - 32 < 8 then a.getLsbD (i - 32) else op.getLsbD (i - 32 - 8) := by
  change BitVec.getLsbD (w := 8 + 8 + 32) (op ++ a ++ d) i = _
  simp only [BitVec.getLsbD_append]

@[simp] theorem opField_packWord (op a : BitVec 8) (d : BitVec 32) : opField (packWord op a d) = op := by
  apply BitVec.eq_of_getLsbD_eq
  intro i hi
  have h1 : ¬ 40 + i < 32 := by omega
  have h2 : ¬ 40 + i - 32 < 8 := by omega
  have h3 : 40 + i - 32 - 8 = i := by omega
  simp [opField, packWord_getLsbD, hi, h1, h2, h3]

@[simp] theorem aField_packWord (op a : BitVec 8) (d : BitVec 32) : aField (packWord op a d) = a := by
  apply BitVec.eq_of_getLsbD_eq
  intro i hi
  simp [aField, packWord_getLsbD, hi]

@[simp] theorem dField_packWord (op a : BitVec 8) (d : BitVec 32) : dField (packWord op a d) = d := by
  apply BitVec.eq_of_getLsbD_eq
  intro i hi
  simp [dField, packWord_getLsbD, hi]

/-- A word is its three fields. -/
theorem packWord_fields (w : Word) : packWord (opField w) (aField w) (dField w) = w := by
  apply BitVec.eq_of_getLsbD_eq
  intro i hi
  rw [packWord_getLsbD]
  split
  · simp [dField, *]
  · split
    · simp only [aField, BitVec.getLsbD_extractLsb', *, decide_true, Bool.true_and]
      congr 1; omega
    · have : i - 32 - 8 < 8 := by omega
      simp only [opField, BitVec.getLsbD_extractLsb', this, decide_true, Bool.true_and]
      congr 1; omega

/-- The handle operand of a word is the low nine bits of `d`. -/
theorem handleField_eq (w : Word) : handleField w = (dField w).extractLsb' 0 9 := by
  apply BitVec.eq_of_getLsbD_eq
  intro i hi
  simp [handleField, dField, hi]

/-- What format `H` requires to be zero is the rest of `d`. -/
theorem aboveHandleField_eq (w : Word) : aboveHandleField w = (dField w).extractLsb' 9 23 := by
  apply BitVec.eq_of_getLsbD_eq
  intro i hi
  simp [aboveHandleField, dField, hi]

end Sys2Proof
end

