-- ==== Sys2Proof/Laws/Forest.lean ====
section
/-! SUPPORT. BUILD step by step: the forest of candidates between two passes (42_tree_builder.md R120), what a pass makes
of it, and the tree that is left (R124, R125, R126). -/

namespace Sys2Proof.Machine

/-! ### The least member -/

/-- The handle `pq_extract_min` yields is below every other member (41_priority_queue.md R110). -/
theorem pqExtractMin_below {s s' : State} {h : Handle} (hx : pqExtractMin s = .ok (h, s')) :
    ∀ k ∈ s.q, k = h ∨ keyBelow s h k := by
  unfold pqExtractMin at hx
  simp only [proc_bind_eq_ok, keysOf_eq_ok] at hx
  obtain ⟨ks, hks, hx⟩ := hx
  cases ks with
  | nil => cases hx
  | cons k ks =>
    simp only [proc_pure, Except.ok.injEq, Prod.mk.injEq] at hx
    obtain ⟨rfl, _⟩ := hx
    have keys : ∀ (hs : List Handle) (ks : List Key),
        List.Forall₂ (fun h (k : Key) => k.2 = h ∧ ∃ n, s.nodeAt h = some n ∧ k.1 = n.freq) hs ks →
        (∀ k ∈ ks, ∃ n, s.nodeAt k.2 = some n ∧ k.1 = n.freq) ∧ ∀ h ∈ hs, ∃ k ∈ ks, k.2 = h := by
      intro hs ks hf
      induction hf with
      | nil => simp
      | cons hh _ ih =>
        obtain ⟨rfl, n, hn, he⟩ := hh
        refine ⟨fun k hk => ?_, fun h hk => ?_⟩
        · rcases List.mem_cons.mp hk with rfl | hk
          · exact ⟨n, hn, he⟩
          · exact ih.1 k hk
        · rcases List.mem_cons.mp hk with rfl | hk
          · exact ⟨_, List.mem_cons_self, rfl⟩
          · obtain ⟨k, hk, e⟩ := ih.2 h hk
            exact ⟨k, List.mem_cons_of_mem _ hk, e⟩
    obtain ⟨f1, f2⟩ := keys _ _ hks
    intro j hj
    obtain ⟨kj, hkj, rfl⟩ := f2 j hj
    obtain ⟨nj, hnj, hej⟩ := f1 kj hkj
    obtain ⟨nm, hnm, hem⟩ := f1 _ (leastKey_mem k ks)
    by_cases he : kj.2 = (leastKey k ks).2
    · exact .inl he
    · have h1 := leastKey_le k ks kj hkj
      have h2 := keyLt_total kj (leastKey k ks) fun e => he (by rw [e])
      simp only [h1, Bool.false_eq_true, false_or] at h2
      exact .inr ⟨nm, nj, hnm, hnj, by simpa [keyLt, hem, hej] using h2⟩

/-- On a queue of allocated members that is not empty `pq_extract_min` yields a handle. -/
theorem pqExtractMin_yields {s : State} (hq : s.q ≠ []) (ha : ∀ h ∈ s.q, ∃ nd, s.nodeAt h = some nd) :
    ∃ h, pqExtractMin s = .ok (h, { s with q := s.q.erase h }) ∧ h ∈ s.q := by
  cases hx : pqExtractMin s with
  | error x =>
    rcases pqExtractMin_error hx with ⟨h, _⟩ | ⟨k, hk, hn, _⟩
    · exact absurd h hq
    · obtain ⟨nd, h⟩ := ha k hk
      rw [hn] at h; cases h
  | ok p =>
    obtain ⟨h, s'⟩ := p
    obtain ⟨hm, rfl⟩ := pqExtractMin_ok hx
    exact ⟨h, rfl, hm⟩

/-- A new member makes the queue one longer. -/
theorem insertMember_perm {h : Handle} {q : List Handle} (hn : h ∉ q) : (insertMember h q).Perm (h :: q) := by
  induction q with
  | nil => exact .refl _
  | cons k q ih =>
    have hk : h ≠ k := fun e => hn (by simp [e])
    simp only [insertMember, if_neg hk]
    split
    · exact .refl _
    · exact ((ih fun hm => hn (List.mem_cons_of_mem _ hm)).cons k).trans (.swap h k q)

/-! ### The nodes after one more -/

/-- What `addNode` leaves: the entry `nd` at the next handle. -/
abbrev withNode (s : State) (nd : Node) : State :=
  { s with nalloc := s.nalloc + 1, node := s.node.write s.nalloc.toNat nd, q := insertMember s.nalloc s.q }

theorem addNode_yields {s : State} (h : s.nalloc.toNat < s.config.arenaSize) (nd : Node) :
    addNode nd s = .ok (withNode s nd) := (addNode_eq_ok _ _ _).mpr ⟨h, rfl⟩

theorem nodeAt_lt {s : State} {h : Handle} {nd : Node} (hx : s.nodeAt h = some nd) : h.toNat < s.nalloc.toNat := by
  unfold State.nodeAt at hx
  split at hx
  · assumption
  · cases hx

theorem nodeAt_next (s : State) : s.nodeAt s.nalloc = none := by simp [State.nodeAt]

theorem nodeAt_withNode {s : State} (hs : s.nalloc.toNat < s.config.arenaSize) (nd : Node) (h : Handle) :
    (withNode s nd).nodeAt h = if h = s.nalloc then some nd else s.nodeAt h := by
  unfold State.nodeAt
  simp only [nalloc_succ hs]
  by_cases he : h = s.nalloc
  · subst he; simp
  · have hne : h.toNat ≠ s.nalloc.toNat := fun e => he (BitVec.eq_of_toNat_eq e)
    rw [if_neg he]
    by_cases hlt : h.toNat < s.nalloc.toNat
    · rw [if_pos (by omega), if_pos hlt, Memory.read_write_other _ _ _ _ hne]
    · rw [if_neg (by omega), if_neg hlt]

theorem nodeAt_withNode_old {s : State} (hs : s.nalloc.toNat < s.config.arenaSize) (nd : Node) {h : Handle} {x : Node}
    (hx : s.nodeAt h = some x) : (withNode s nd).nodeAt h = some x := by
  rw [nodeAt_withNode hs, if_neg, hx]
  rintro rfl
  rw [nodeAt_next] at hx; cases hx

theorem isChild_withNode {s : State} (hs : s.nalloc.toNat < s.config.arenaSize) (nd : Node) (p : Handle) (b : Bool)
    (h : Handle) : isChild (withNode s nd) p b h ↔
      (p = s.nalloc ∧ nd.kind = .internal ∧ nd.child b = h) ∨ isChild s p b h := by
  unfold isChild
  simp only [nodeAt_withNode hs]
  constructor
  · rintro ⟨x, hx, hk, hc⟩
    split at hx
    · cases hx; exact .inl ⟨by assumption, hk, hc⟩
    · exact .inr ⟨x, hx, hk, hc⟩
  · rintro (⟨rfl, hk, hc⟩ | ⟨x, hx, hk, hc⟩)
    · exact ⟨nd, by simp, hk, hc⟩
    · refine ⟨x, ?_, hk, hc⟩
      rw [if_neg, hx]
      rintro rfl
      rw [nodeAt_next] at hx; cases hx

/-! ### A forest -/

/-- The weight of a node: its frequency. -/
def weight (s : State) (h : Handle) : Nat :=
  match s.nodeAt h with
  | some nd => nd.freq.toNat
  | none => 0

/-- The state of BUILD between two passes (42_tree_builder.md R120, R126): `n` leaves, some merges done, and the queue
holds exactly the nodes without a parent, whose weights sum to `w`. -/
structure Forest (s : State) (n w : Nat) : Prop where
  leafCount : n ≤ 256
  leavesFit : n ≤ s.nalloc.toNat
  leaves : ∀ h : Handle, h.toNat < n → ∃ nd, s.nodeAt h = some nd ∧ nd.kind = .leaf ∧ nd.left = NIL ∧ nd.right = NIL
  rising : ∀ (h h' : Handle) (nd nd' : Node), h.toNat < h'.toNat → h'.toNat < n →
    s.nodeAt h = some nd → s.nodeAt h' = some nd' → nd.sym.toNat < nd'.sym.toNat
  internals : ∀ p : Handle, n ≤ p.toNat → p.toNat < s.nalloc.toNat → ∃ nd, s.nodeAt p = some nd ∧
    nd.kind = .internal ∧ nd.sym = 0 ∧ nd.left.toNat < p.toNat ∧ nd.right.toNat < p.toNat ∧ nd.left ≠ nd.right
  oneParent : ∀ h p b p' b', isChild s p b h → isChild s p' b' h → p = p' ∧ b = b'
  sums : ∀ (p : Handle) (nd : Node), s.nodeAt p = some nd → nd.kind = .internal →
    ∃ x y, s.nodeAt nd.left = some x ∧ s.nodeAt nd.right = some y ∧ nd.freq.toNat = x.freq.toNat + y.freq.toNat
  positive : ∀ (h : Handle) (nd : Node), s.nodeAt h = some nd → 1 ≤ nd.freq.toNat
  queue : ∀ h, h ∈ s.q ↔ h.toNat < s.nalloc.toNat ∧ ∀ p b, ¬ isChild s p b h
  nodup : s.q.Nodup
  count : s.q.length + s.nalloc.toNat = 2 * n
  total : (s.q.map (weight s)).sum = w
  greedy : GreedyMerge s

namespace Forest

variable {s : State} {n w : Nat}

/-- Every allocated entry is listed. -/
theorem allocated (f : Forest s n w) {h : Handle} (hlt : h.toNat < s.nalloc.toNat) : ∃ nd, s.nodeAt h = some nd := by
  by_cases hn : h.toNat < n
  · obtain ⟨nd, hx, _⟩ := f.leaves h hn; exact ⟨nd, hx⟩
  · obtain ⟨nd, hx, _⟩ := f.internals h (by omega) hlt; exact ⟨nd, hx⟩

theorem queued (f : Forest s n w) {h : Handle} (hq : h ∈ s.q) : ∃ nd, s.nodeAt h = some nd :=
  f.allocated ((f.queue h).mp hq).1

/-- A child is older than its parent, and its parent is allocated. -/
theorem child_lt (f : Forest s n w) {p h : Handle} {b : Bool} (hc : isChild s p b h) :
    h.toNat < p.toNat ∧ p.toNat < s.nalloc.toNat := by
  obtain ⟨nd, hx, hk, rfl⟩ := hc
  have hp := nodeAt_lt hx
  by_cases hn : p.toNat < n
  · obtain ⟨nd', hx', hk', _⟩ := f.leaves p hn
    rw [hx] at hx'; cases hx'; rw [hk] at hk'; cases hk'
  · obtain ⟨nd', hx', _, _, hl, hr, _⟩ := f.internals p (by omega) hp
    rw [hx] at hx'; cases hx'
    refine ⟨?_, hp⟩
    unfold Node.child
    split <;> assumption

end Forest

theorem weight_of {s : State} {h : Handle} {nd : Node} (hx : s.nodeAt h = some nd) : weight s h = nd.freq.toNat := by
  simp [weight, hx]

/-- The nodes of `s` stand in `t`, and every Leaf of `t` is one of `s`. -/
def KeepsLeaves (s t : State) : Prop :=
  (∀ h nd, s.nodeAt h = some nd → t.nodeAt h = some nd) ∧
  ∀ h nd, t.nodeAt h = some nd → nd.kind = .leaf → s.nodeAt h = some nd

theorem KeepsLeaves.refl (s : State) : KeepsLeaves s s := ⟨fun _ _ h => h, fun _ _ h _ => h⟩

theorem KeepsLeaves.trans {s t u : State} (h : KeepsLeaves s t) (h' : KeepsLeaves t u) : KeepsLeaves s u :=
  ⟨fun k nd hx => h'.1 k nd (h.1 k nd hx), fun k nd hx hk => h.2 k nd (h'.2 k nd hx hk) hk⟩

theorem keyBelow_withNode {s : State} (hs : s.nalloc.toNat < s.config.arenaSize) (nd : Node) {h k : Handle}
    (hb : keyBelow s h k) : keyBelow (withNode s nd) h k := by
  obtain ⟨x, y, hx, hy, hk⟩ := hb
  exact ⟨x, y, nodeAt_withNode_old hs nd hx, nodeAt_withNode_old hs nd hy, hk⟩

/-- With the arena not full and two candidates, a pass of step 2 joins them into a new candidate (R120, R126). -/
theorem mergeOnce_forest {s : State} {n w : Nat} (f : Forest s n w) (hw : w < 2 ^ 40) (hq : 1 < s.q.length)
    (hs : s.nalloc.toNat < s.config.arenaSize) :
    ∃ t, mergeOnce s = .ok t ∧ Forest t n w ∧ t.nalloc.toNat = s.nalloc.toNat + 1 ∧ KeepsLeaves s t := by
  have alq : ∀ h ∈ s.q, ∃ nd, s.nodeAt h = some nd := fun h hh => f.queued hh
  obtain ⟨a, ha, hma⟩ := pqExtractMin_yields (s := s) (by intro e; simp [e] at hq) alq
  have la := pqExtractMin_below ha
  let s1 : State := { s with q := s.q.erase a }
  have len1 : s1.q.length = s.q.length - 1 := List.length_erase_of_mem hma
  obtain ⟨b, hb, hmb⟩ := pqExtractMin_yields (s := s1) (by intro e; rw [e] at len1; simp at len1; omega)
    fun h hh => alq h (List.mem_of_mem_erase hh)
  have lb := pqExtractMin_below hb
  have hb1 := f.nodup.mem_erase_iff.mp hmb
  have nd2 : (s.q.erase a).Nodup := f.nodup.erase a
  obtain ⟨na, hna⟩ := alq a hma
  obtain ⟨nb, hnb⟩ := alq b hb1.2
  let s2 : State := { s with q := (s.q.erase a).erase b }
  have e2 : s2 = { s1 with q := s1.q.erase b } := rfl
  have hs2 : s2.nalloc.toNat < s2.config.arenaSize := hs
  let N := internalNode a b na nb
  have hN : ∀ h, (withNode s2 N).nodeAt h = if h = s.nalloc then some N else s.nodeAt h := fun h => nodeAt_withNode hs2 N h
  have old : ∀ {h x}, s.nodeAt h = some x → (withNode s2 N).nodeAt h = some x := fun hx => nodeAt_withNode_old hs2 N hx
  have hC : ∀ p c h, isChild (withNode s2 N) p c h ↔ (p = s.nalloc ∧ N.child c = h) ∨ isChild s p c h := by
    intro p c h
    have := isChild_withNode hs2 N p c h
    rw [this]
    have : N.kind = .internal := rfl
    simp only [this, true_and]
    rfl
  have succ : (withNode s2 N).nalloc.toNat = s.nalloc.toNat + 1 := nalloc_succ hs2
  have alt := nodeAt_lt hna
  have blt := nodeAt_lt hnb
  have hab : a ≠ b := fun e => hb1.1 e.symm
  have mem2 : ∀ h, h ∈ s2.q ↔ h ≠ b ∧ h ≠ a ∧ h ∈ s.q := by
    intro h
    show h ∈ (s.q.erase a).erase b ↔ _
    rw [nd2.mem_erase_iff, f.nodup.mem_erase_iff]
  have fresh : s.nalloc ∉ s2.q := by
    rw [mem2]; rintro ⟨_, _, hm⟩
    have := ((f.queue _).mp hm).1; omega
  have permq : (withNode s2 N).q.Perm (s.nalloc :: s2.q) := insertMember_perm fresh
  have perm0 : s.q.Perm (a :: b :: s2.q) :=
    (List.perm_cons_erase hma).trans ((List.perm_cons_erase hmb).cons a)
  have sumq : weight s a + (weight s b + (s2.q.map (weight s)).sum) = w := by
    rw [← f.total, (perm0.map (weight s)).sum_eq]; simp
  rw [weight_of hna, weight_of hnb] at sumq
  have freqN : N.freq.toNat = na.freq.toNat + nb.freq.toNat := by
    show (na.freq + nb.freq).toNat = _
    rw [BitVec.toNat_add, Nat.mod_eq_of_lt]; omega
  refine ⟨withNode s2 N, ?_, ?_, succ, fun _ _ hx => old hx, fun h nd hx hk => ?_⟩
  rotate_right
  · rw [hN] at hx
    split at hx
    · cases hx; cases hk
    · exact hx
  · have h1 : readNode s2 a = .ok na := (readNode_eq_ok _ _ _).mpr hna
    have h2 : readNode s2 b = .ok nb := (readNode_eq_ok _ _ _).mpr hnb
    simp only [mergeOnce, ha, proc_bind_ok]
    show (pqExtractMin s1 >>= _) = _
    rw [hb, proc_bind_ok]
    show (readNode s2 a >>= _) = _
    rw [h1, proc_bind_ok]
    show (readNode s2 b >>= _) = _
    rw [h2, proc_bind_ok]
    exact addNode_yields hs2 N
  · refine ⟨f.leafCount, ?_, ?_, ?_, ?_, ?_, ?_, ?_, ?_, ?_, ?_, ?_, ?_⟩
    · rw [succ]; have := f.leavesFit; omega
    · intro h hh
      obtain ⟨nd, hx, hr⟩ := f.leaves h hh
      exact ⟨nd, old hx, hr⟩
    · intro h h' nd nd' hlt hlt' hx hx'
      have l' := f.leavesFit
      have n1 : h ≠ s.nalloc := by rintro rfl; omega
      have n2 : h' ≠ s.nalloc := by rintro rfl; omega
      rw [hN, if_neg n1] at hx
      rw [hN, if_neg n2] at hx'
      exact f.rising h h' nd nd' hlt hlt' hx hx'
    · intro p hp hlt
      rw [succ] at hlt
      by_cases he : p = s.nalloc
      · subst he
        exact ⟨N, by rw [hN, if_pos rfl], rfl, rfl, alt, blt, hab⟩
      · have : p.toNat ≠ s.nalloc.toNat := fun e => he (BitVec.eq_of_toNat_eq e)
        obtain ⟨nd, hx, hr⟩ := f.internals p hp (by omega)
        exact ⟨nd, old hx, hr⟩
    · have notNew : ∀ {p c h c'}, isChild s p c h → N.child c' = h → False := by
        intro p c h c' hc hh
        have : h = a ∨ h = b := by
          unfold Node.child at hh
          split at hh
          · exact .inl hh.symm
          · exact .inr hh.symm
        rcases this with rfl | rfl
        · exact ((f.queue _).mp hma).2 p c hc
        · exact ((f.queue _).mp hb1.2).2 p c hc
      have side : ∀ {c c'}, N.child c = N.child c' → c = c' := by
        intro c c' h
        cases c <;> cases c'
        · rfl
        · exact absurd h hab
        · exact absurd h.symm hab
        · rfl
      intro h p c p' c' h1 h2
      rw [hC] at h1 h2
      rcases h1 with ⟨rfl, h1⟩ | h1 <;> rcases h2 with ⟨rfl, h2⟩ | h2
      · exact ⟨rfl, side (h1.trans h2.symm)⟩
      · exact (notNew h2 h1).elim
      · exact (notNew h1 h2).elim
      · exact f.oneParent h p c p' c' h1 h2
    · intro p nd hx hk
      rw [hN] at hx
      split at hx
      · cases hx
        exact ⟨na, nb, old hna, old hnb, freqN⟩
      · obtain ⟨x, y, h1, h2, h3⟩ := f.sums p nd hx hk
        exact ⟨x, y, old h1, old h2, h3⟩
    · intro h nd hx
      rw [hN] at hx
      split at hx
      · cases hx
        have := f.positive a na hna
        omega
      · exact f.positive h nd hx
    · intro h
      have hm : h ∈ (withNode s2 N).q ↔ h = s.nalloc ∨ h ∈ s2.q := mem_insertMember _ _ _
      rw [hm, mem2, succ]
      constructor
      · rintro (rfl | ⟨nb', na', hq'⟩)
        · refine ⟨by omega, fun p c hc => ?_⟩
          rcases (hC _ _ _).mp hc with ⟨_, hh⟩ | hc
          · unfold Node.child at hh
            split at hh
            · rw [show N.left = a from rfl] at hh; rw [hh] at alt; omega
            · rw [show N.right = b from rfl] at hh; rw [hh] at blt; omega
          · have := f.child_lt hc; omega
        · obtain ⟨h1, h2⟩ := (f.queue h).mp hq'
          refine ⟨by omega, fun p c hc => ?_⟩
          rcases (hC _ _ _).mp hc with ⟨_, hh⟩ | hc
          · unfold Node.child at hh
            split at hh
            · exact na' hh.symm
            · exact nb' hh.symm
          · exact h2 p c hc
      · rintro ⟨hlt, hnc⟩
        by_cases he : h = s.nalloc
        · exact .inl he
        · have : h.toNat ≠ s.nalloc.toNat := fun e => he (BitVec.eq_of_toNat_eq e)
          refine .inr ⟨?_, ?_, (f.queue h).mpr ⟨by omega, fun p c hc => hnc p c ((hC _ _ _).mpr (.inr hc))⟩⟩
          · rintro rfl; exact hnc s.nalloc true ((hC _ _ _).mpr (.inl ⟨rfl, rfl⟩))
          · rintro rfl; exact hnc s.nalloc false ((hC _ _ _).mpr (.inl ⟨rfl, rfl⟩))
    · exact (permq.nodup_iff).mpr (List.nodup_cons.mpr ⟨fresh, nd2.erase b⟩)
    · have l1 : (withNode s2 N).q.length = s2.q.length + 1 := permq.length_eq
      have l0 : s.q.length = s2.q.length + 1 + 1 := perm0.length_eq
      have := f.count
      rw [succ, l1]
      omega
    · rw [(permq.map _).sum_eq]
      simp only [List.map_cons, List.sum_cons]
      have wN : weight (withNode s2 N) s.nalloc = N.freq.toNat := weight_of (by rw [hN, if_pos rfl])
      have wo : s2.q.map (weight (withNode s2 N)) = s2.q.map (weight s) := by
        apply List.map_congr_left
        intro h hh
        obtain ⟨nd, hx⟩ := alq h ((mem2 h).mp hh).2.2
        rw [weight_of hx, weight_of (old hx)]
      rw [wN, wo, freqN]; omega
    · intro p nd hx hk
      have qOld : ∀ {p h}, p.toNat ≤ s.nalloc.toNat → (queuedAt (withNode s2 N) p h ↔ queuedAt s p h) := by
        intro p h hp
        unfold queuedAt
        constructor
        · rintro ⟨h1, h2⟩
          exact ⟨h1, fun p' c hp' hc => h2 p' c hp' ((hC _ _ _).mpr (.inr hc))⟩
        · rintro ⟨h1, h2⟩
          refine ⟨h1, fun p' c hp' hc => ?_⟩
          rcases (hC _ _ _).mp hc with ⟨rfl, _⟩ | hc
          · omega
          · exact h2 p' c hp' hc
      have kOld : ∀ {h k}, keyBelow s h k → keyBelow (withNode s2 N) h k := fun hb => keyBelow_withNode hs2 N hb
      rw [hN] at hx
      split at hx
      · rename_i he
        cases hx; subst he
        have inq : ∀ h, queuedAt s s.nalloc h ↔ h ∈ s.q := by
          intro h
          rw [f.queue]
          unfold queuedAt
          constructor
          · rintro ⟨h1, h2⟩; exact ⟨h1, fun p c hc => h2 p c (f.child_lt hc).2 hc⟩
          · rintro ⟨h1, h2⟩; exact ⟨h1, fun p c _ hc => h2 p c hc⟩
        refine ⟨(qOld le_rfl).mpr ((inq _).mpr hma), (qOld le_rfl).mpr ((inq _).mpr hb1.2), ?_, ?_⟩
        · rcases la b hb1.2 with e | hk'
          · exact absurd e.symm hab
          · exact kOld hk'
        · intro h hqa hne1 hne2
          have hh := (inq h).mp ((qOld le_rfl).mp hqa)
          rcases lb h ((f.nodup.mem_erase_iff).mpr ⟨hne1, hh⟩) with e | hk'
          · exact absurd e hne2
          · exact kOld hk'
      · have hp := nodeAt_lt hx
        obtain ⟨g1, g2, g3, g4⟩ := f.greedy p nd hx hk
        exact ⟨(qOld hp.le).mpr g1, (qOld hp.le).mpr g2, kOld g3,
          fun h hqa h1 h2 => kOld (g4 h ((qOld hp.le).mp hqa) h1 h2)⟩

/-- A pass of step 2 in a full arena ends in `AllocationFailure`. -/
theorem mergeOnce_full {s : State} {n w : Nat} (f : Forest s n w) (hq : 1 < s.q.length)
    (hs : s.config.arenaSize ≤ s.nalloc.toNat) : mergeOnce s = .error (.raised .allocationFailure) := by
  have alq : ∀ h ∈ s.q, ∃ nd, s.nodeAt h = some nd := fun h hh => f.queued hh
  obtain ⟨a, ha, hma⟩ := pqExtractMin_yields (s := s) (by intro e; simp [e] at hq) alq
  let s1 : State := { s with q := s.q.erase a }
  have len1 : s1.q.length = s.q.length - 1 := List.length_erase_of_mem hma
  obtain ⟨b, hb, hmb⟩ := pqExtractMin_yields (s := s1) (by intro e; rw [e] at len1; simp at len1; omega)
    fun h hh => alq h (List.mem_of_mem_erase hh)
  obtain ⟨na, hna⟩ := alq a hma
  obtain ⟨nb, hnb⟩ := alq b (List.mem_of_mem_erase hmb)
  let s2 : State := { s with q := (s.q.erase a).erase b }
  have h1 : readNode s2 a = .ok na := (readNode_eq_ok _ _ _).mpr hna
  have h2 : readNode s2 b = .ok nb := (readNode_eq_ok _ _ _).mpr hnb
  have h3 : alloc s2 = .error (.raised .allocationFailure) := (alloc_eq_error _ _).mpr ⟨hs, rfl⟩
  simp only [mergeOnce, ha, proc_bind_ok]
  show (pqExtractMin s1 >>= _) = _
  rw [hb, proc_bind_ok]
  show (readNode s2 a >>= _) = _
  rw [h1, proc_bind_ok]
  show (readNode s2 b >>= _) = _
  rw [h2, proc_bind_ok]
  show (alloc s2 >>= _) = _
  rw [h3, proc_bind_error]

/-- Step 2 of R120 in an arena of `2n - 1` entries or more: one candidate is left (R126). -/
theorem mergeLoop_forest {k : Nat} {s : State} {n w : Nat} (f : Forest s n w) (hw : w < 2 ^ 40) (hn : 1 ≤ n)
    (hk : s.q.length ≤ k + 1) (hq : 1 ≤ s.q.length) (hs : 2 * n - 1 ≤ s.config.arenaSize) :
    ∃ t, mergeLoop k s = .ok t ∧ Forest t n w ∧ t.q.length = 1 ∧ KeepsLeaves s t := by
  induction k generalizing s with
  | zero => exact ⟨s, rfl, f, by omega, .refl s⟩
  | succ k ih =>
    simp only [mergeLoop]
    split
    · rename_i h1
      have h1 : 1 < s.q.length := h1
      have hc := f.count
      obtain ⟨u, hu, fu, nu, ku⟩ := mergeOnce_forest f hw h1 (by omega)
      have cu : u.config = s.config := by rw [(mergeOnce_arena hu).1]
      have := fu.count
      obtain ⟨t, ht, ft, qt, kt⟩ := ih fu (by omega) (by omega) (by rw [cu]; exact hs)
      exact ⟨t, by rw [hu, proc_bind_ok]; exact ht, ft, qt, ku.trans kt⟩
    · rename_i h1
      have h1 : ¬ 1 < s.q.length := h1
      exact ⟨s, rfl, f, by omega, .refl s⟩

/-- Step 2 of R120 in a smaller arena ends in `AllocationFailure` (R124). -/
theorem mergeLoop_full {k : Nat} {s : State} {n w : Nat} (f : Forest s n w) (hw : w < 2 ^ 40)
    (hk : s.q.length ≤ k + 1) (hf : s.nalloc.toNat ≤ s.config.arenaSize) (hs : s.config.arenaSize < 2 * n - 1) :
    mergeLoop k s = .error (.raised .allocationFailure) := by
  induction k generalizing s with
  | zero => have := f.count; omega
  | succ k ih =>
    have hc := f.count
    have h1 : 1 < pqSize s := by show 1 < s.q.length; omega
    simp only [mergeLoop, if_pos h1]
    by_cases hfull : s.nalloc.toNat < s.config.arenaSize
    · obtain ⟨u, hu, fu, nu, _⟩ := mergeOnce_forest f hw h1 hfull
      have cu : u.config = s.config := by rw [(mergeOnce_arena hu).1]
      have := fu.count
      rw [hu, proc_bind_ok]
      exact ih fu (by omega) (by rw [cu]; omega) (by rw [cu]; exact hs)
    · rw [mergeOnce_full f h1 (by omega), proc_bind_error]

/-! ### Step 1: the leaves -/

theorem Forest.allLeaf {s : State} {n w : Nat} (f : Forest s n w) (hn : s.nalloc.toNat = n) {h : Handle} {nd : Node}
    (hx : s.nodeAt h = some nd) : nd.kind = .leaf := by
  obtain ⟨nd', hx', hk, _⟩ := f.leaves h (by have := nodeAt_lt hx; omega)
  rw [hx] at hx'; cases hx'; exact hk

theorem Forest.noChild {s : State} {n w : Nat} (f : Forest s n w) (hn : s.nalloc.toNat = n) (p : Handle) (b : Bool)
    (h : Handle) : ¬ isChild s p b h := by
  rintro ⟨nd, hx, hk, _⟩
  rw [f.allLeaf hn hx] at hk; cases hk

/-- No node yet. -/
theorem forest_empty {s : State} (hn : s.nalloc = 0) (hq : s.q = []) : Forest s 0 0 := by
  have none : ∀ h, s.nodeAt h = none := by intro h; simp [State.nodeAt, hn]
  have z : s.nalloc.toNat = 0 := by rw [hn]; rfl
  refine ⟨by omega, by omega, fun h hh => by omega, fun h h' _ _ _ hh => by omega, fun p _ hh => by omega, ?_, ?_, ?_, ?_, ?_,
    by rw [hq, z]; rfl, by rw [hq]; rfl, ?_⟩
  · rintro h p b p' b' ⟨nd, hx, _⟩; rw [none] at hx; cases hx
  · intro p nd hx; rw [none] at hx; cases hx
  · intro p nd hx; rw [none] at hx; cases hx
  · intro h; rw [hq, z]; simp
  · rw [hq]; exact List.nodup_nil
  · intro p nd hx; rw [none] at hx; cases hx

/-- A Leaf of a greater symbol joins a forest of leaves. -/
theorem Forest.addLeaf {s : State} {n w : Nat} (f : Forest s n w) (hn : s.nalloc.toNat = n) (hle : n + 1 ≤ 256)
    (hs : s.nalloc.toNat < s.config.arenaSize) (x : Symbol) (c : Count) (hc : c ≠ 0)
    (hx : ∀ h nd, s.nodeAt h = some nd → nd.sym.toNat < x.toNat) :
    Forest (withNode s (leafNode x c)) (n + 1) (w + c.toNat) := by
  have succ : (withNode s (leafNode x c)).nalloc.toNat = s.nalloc.toNat + 1 := nalloc_succ hs
  have hN := nodeAt_withNode hs (leafNode x c)
  have old : ∀ {h nd}, s.nodeAt h = some nd → (withNode s (leafNode x c)).nodeAt h = some nd :=
    fun hx => nodeAt_withNode_old hs _ hx
  have nc : ∀ p b h, ¬ isChild (withNode s (leafNode x c)) p b h := by
    intro p b h hc
    rcases (isChild_withNode hs _ p b h).mp hc with ⟨_, hk, _⟩ | hc
    · cases hk
    · exact f.noChild hn p b h hc
  have leaf : ∀ h nd, (withNode s (leafNode x c)).nodeAt h = some nd → nd.kind = .leaf := by
    intro h nd hx
    rw [hN] at hx
    split at hx
    · cases hx; rfl
    · exact f.allLeaf hn hx
  have fresh : s.nalloc ∉ s.q := fun hm => by have := ((f.queue _).mp hm).1; omega
  have perm : (withNode s (leafNode x c)).q.Perm (s.nalloc :: s.q) := insertMember_perm fresh
  have freq : (leafNode x c).freq.toNat = c.toNat := by
    have := c.isLt
    show (c.setWidth 40).toNat = _
    rw [BitVec.toNat_setWidth, Nat.mod_eq_of_lt]; omega
  have cpos : 1 ≤ c.toNat := by
    rcases Nat.eq_zero_or_pos c.toNat with h | h
    · exact absurd (BitVec.eq_of_toNat_eq (by simpa using h)) hc
    · exact h
  refine ⟨hle, by omega, ?_, ?_, fun p hp hlt => by omega, fun h p b p' b' h1 => (nc p b h h1).elim,
    fun p nd hx hk => (by rw [leaf p nd hx] at hk; cases hk), ?_, ?_, ?_, ?_, ?_,
    fun p nd hx hk => (by rw [leaf p nd hx] at hk; cases hk)⟩
  · intro h hh
    by_cases he : h = s.nalloc
    · subst he; exact ⟨leafNode x c, by rw [hN, if_pos rfl], rfl, rfl, rfl⟩
    · have : h.toNat ≠ s.nalloc.toNat := fun e => he (BitVec.eq_of_toNat_eq e)
      obtain ⟨nd, hx, hr⟩ := f.leaves h (by omega)
      exact ⟨nd, old hx, hr⟩
  · intro h h' nd nd' hlt hlt' h1 h2
    have n1 : h ≠ s.nalloc := by rintro rfl; omega
    rw [hN, if_neg n1] at h1
    rw [hN] at h2
    split at h2
    · cases h2; exact hx h nd h1
    · exact f.rising h h' nd nd' hlt (by have := nodeAt_lt h2; omega) h1 h2
  · intro h nd h1
    rw [hN] at h1
    split at h1
    · cases h1; omega
    · exact f.positive h nd h1
  · intro h
    have hm : h ∈ (withNode s (leafNode x c)).q ↔ h = s.nalloc ∨ h ∈ s.q := mem_insertMember _ _ _
    rw [hm, f.queue, succ]
    constructor
    · rintro (rfl | ⟨h1, _⟩)
      · exact ⟨by omega, fun p b => nc p b _⟩
      · exact ⟨by omega, fun p b => nc p b _⟩
    · rintro ⟨h1, _⟩
      by_cases he : h = s.nalloc
      · exact .inl he
      · have : h.toNat ≠ s.nalloc.toNat := fun e => he (BitVec.eq_of_toNat_eq e)
        exact .inr ⟨by omega, fun p b => f.noChild hn p b h⟩
  · exact perm.nodup_iff.mpr (List.nodup_cons.mpr ⟨fresh, f.nodup⟩)
  · have l : (withNode s (leafNode x c)).q.length = s.q.length + 1 := perm.length_eq
    have := f.count
    rw [l, succ]; omega
  · rw [(perm.map _).sum_eq]
    simp only [List.map_cons, List.sum_cons]
    rw [weight_of (by rw [hN, if_pos rfl] : (withNode s (leafNode x c)).nodeAt s.nalloc = some (leafNode x c)), freq]
    have wo : s.q.map (weight (withNode s (leafNode x c))) = s.q.map (weight s) := by
      apply List.map_congr_left
      intro h hh
      obtain ⟨nd, hx⟩ := f.queued hh
      rw [weight_of hx, weight_of (old hx)]
    rw [wo, f.total]; omega

/-- The symbols of a list that have a count. -/
def countedIn (f : Vector Count 256) (xs : List Symbol) : List Symbol := xs.filter fun x => readTable f x != 0

theorem countedIn_cons_of_ne {f : Vector Count 256} {x : Symbol} {xs : List Symbol} (hc : readTable f x ≠ 0) :
    (countedIn f (x :: xs)).length = (countedIn f xs).length + 1 := by
  unfold countedIn
  rw [List.filter_cons_of_pos (by simpa using hc), List.length_cons]

theorem countedIn_cons_of_eq {f : Vector Count 256} {x : Symbol} {xs : List Symbol} (hc : readTable f x = 0) :
    countedIn f (x :: xs) = countedIn f xs := List.filter_cons_of_neg (by simpa using hc)

/-- The sum of the counts of a list of symbols. -/
def countSum (f : Vector Count 256) (xs : List Symbol) : Nat := (xs.map fun x => (readTable f x).toNat).sum

/-- Step 1 of R120 with room for all its leaves. -/
theorem leafLoop_forest {xs : List Symbol} {s : State} {n w : Nat} (f : Forest s n w) (hn : s.nalloc.toNat = n)
    (hx : ∀ h nd, s.nodeAt h = some nd → ∀ x ∈ xs, nd.sym.toNat < x.toNat)
    (sorted : xs.Pairwise fun x y => x.toNat < y.toNat) (hle : n + (countedIn s.freq xs).length ≤ 256)
    (hs : n + (countedIn s.freq xs).length ≤ s.config.arenaSize) :
    ∃ t, leafLoop xs s = .ok t ∧ Forest t (n + (countedIn s.freq xs).length) (w + countSum s.freq xs) ∧
      t.nalloc.toNat = n + (countedIn s.freq xs).length ∧
      (∀ h nd, s.nodeAt h = some nd → t.nodeAt h = some nd) ∧
      (∀ h nd, t.nodeAt h = some nd → s.nodeAt h = some nd ∨
        (readTable s.freq nd.sym ≠ 0 ∧ nd.freq.toNat = (readTable s.freq nd.sym).toNat)) ∧
      ∀ x ∈ xs, readTable s.freq x ≠ 0 → ∃ h nd, t.nodeAt h = some nd ∧ nd.kind = .leaf ∧ nd.sym = x := by
  induction xs generalizing s n w with
  | nil => exact ⟨s, rfl, f, hn, fun _ _ h => h, fun _ _ h => .inl h, fun x hx => by cases hx⟩
  | cons x xs ih =>
    obtain ⟨sx, sxs⟩ := List.pairwise_cons.mp sorted
    by_cases hc : readTable s.freq x = 0
    · have e1 : countedIn s.freq (x :: xs) = countedIn s.freq xs := countedIn_cons_of_eq hc
      have e2 : countSum s.freq (x :: xs) = countSum s.freq xs := by simp [countSum, hc]
      rw [e1] at hle hs
      obtain ⟨t, ht, ft, nt, o1, o2, o3⟩ := ih f hn (fun h nd h1 y hy => hx h nd h1 y (List.mem_cons_of_mem _ hy)) sxs hle hs
      refine ⟨t, by simp only [leafLoop, if_pos hc]; exact ht, by rw [e1, e2]; exact ft, by rw [e1]; exact nt, o1, o2, ?_⟩
      intro y hy hne
      rcases List.mem_cons.mp hy with rfl | hy
      · exact absurd hc hne
      · exact o3 y hy hne
    · have e1 : (countedIn s.freq (x :: xs)).length = (countedIn s.freq xs).length + 1 := countedIn_cons_of_ne hc
      have e2 : countSum s.freq (x :: xs) = (readTable s.freq x).toNat + countSum s.freq xs := by simp [countSum]
      rw [e1] at hle hs
      have hs' : s.nalloc.toNat < s.config.arenaSize := by omega
      have fu := f.addLeaf hn (by omega) hs' x _ hc fun h nd h1 => hx h nd h1 x List.mem_cons_self
      have hN := nodeAt_withNode hs' (leafNode x (readTable s.freq x))
      obtain ⟨t, ht, ft, nt, o1, o2, o3⟩ := ih fu (by rw [nalloc_succ hs']; omega)
        (by
          intro h nd h1 y hy
          rw [hN] at h1
          split at h1
          · cases h1; exact sx y hy
          · exact hx h nd h1 y (List.mem_cons_of_mem _ hy)) sxs (by show n + 1 + (countedIn s.freq xs).length ≤ _; omega)
        (by show n + 1 + (countedIn s.freq xs).length ≤ s.config.arenaSize; omega)
      have freq : (leafNode x (readTable s.freq x)).freq.toNat = (readTable s.freq x).toNat := by
        have := (readTable s.freq x).isLt
        show ((readTable s.freq x).setWidth 40).toNat = _
        rw [BitVec.toNat_setWidth, Nat.mod_eq_of_lt]; omega
      refine ⟨t, ?_, ?_, ?_, ?_, ?_, ?_⟩
      · simp only [leafLoop, if_neg hc]
        rw [addNode_yields hs', proc_bind_ok]; exact ht
      · have a1 : n + (countedIn s.freq (x :: xs)).length = n + 1 + (countedIn s.freq xs).length := by omega
        have a2 : w + countSum s.freq (x :: xs) = w + (readTable s.freq x).toNat + countSum s.freq xs := by omega
        rw [a1, a2]; exact ft
      · have a1 : n + (countedIn s.freq (x :: xs)).length = n + 1 + (countedIn s.freq xs).length := by omega
        rw [a1]; exact nt
      · exact fun h nd h1 => o1 h nd (nodeAt_withNode_old hs' _ h1)
      · intro h nd h1
        rcases o2 h nd h1 with h2 | h2
        · rw [hN] at h2
          split at h2
          · cases h2; exact .inr ⟨hc, freq⟩
          · exact .inl h2
        · exact .inr h2
      · intro y hy hne
        rcases List.mem_cons.mp hy with rfl | hy
        · exact ⟨s.nalloc, _, o1 _ _ (by rw [hN, if_pos rfl]), rfl, rfl⟩
        · exact o3 y hy hne

/-- Step 1 of R120 without room for all its leaves ends in `AllocationFailure`. -/
theorem leafLoop_full {xs : List Symbol} {s : State} (hf : s.nalloc.toNat ≤ s.config.arenaSize)
    (hs : s.config.arenaSize < s.nalloc.toNat + (countedIn s.freq xs).length) :
    leafLoop xs s = .error (.raised .allocationFailure) := by
  induction xs generalizing s with
  | nil => simp [countedIn] at hs; omega
  | cons x xs ih =>
    by_cases hc : readTable s.freq x = 0
    · have e1 : countedIn s.freq (x :: xs) = countedIn s.freq xs := countedIn_cons_of_eq hc
      rw [e1] at hs
      simp only [leafLoop, if_pos hc]
      exact ih hf hs
    · have e1 : (countedIn s.freq (x :: xs)).length = (countedIn s.freq xs).length + 1 := countedIn_cons_of_ne hc
      rw [e1] at hs
      simp only [leafLoop, if_neg hc]
      by_cases hfull : s.nalloc.toNat < s.config.arenaSize
      · rw [addNode_yields hfull, proc_bind_ok]
        have hu : (withNode s (leafNode x (readTable s.freq x))).nalloc.toNat = s.nalloc.toNat + 1 := nalloc_succ hfull
        exact ih (by rw [hu]; exact hfull) (by rw [hu]; show s.config.arenaSize < _ + (countedIn s.freq xs).length; omega)
      · have h3 : alloc s = .error (.raised .allocationFailure) := (alloc_eq_error _ _).mpr ⟨by omega, rfl⟩
        simp only [addNode, h3, proc_bind_error]

/-! ### BUILD -/

theorem symbols_sorted : symbols.Pairwise fun x y => x.toNat < y.toNat := by
  unfold symbols
  rw [List.pairwise_map]
  refine List.Pairwise.imp_of_mem ?_ List.pairwise_lt_range
  intro a b ha hb hab
  rw [List.mem_range] at ha hb
  rw [BitVec.toNat_ofNat, BitVec.toNat_ofNat, Nat.mod_eq_of_lt ha, Nat.mod_eq_of_lt hb]
  exact hab

theorem mem_symbols (x : Symbol) : x ∈ symbols :=
  List.mem_map.mpr ⟨x.toNat, List.mem_range.mpr x.isLt, by simp⟩

theorem distinct_le (s : State) : s.distinct ≤ 256 := by
  refine (List.length_filter_le _ _).trans ?_
  simp [symbols]

theorem countSum_le (f : Vector Count 256) (xs : List Symbol) : countSum f xs ≤ xs.length * (2 ^ 32 - 1) := by
  induction xs with
  | nil => simp [countSum]
  | cons x xs ih =>
    have := (readTable f x).isLt
    simp only [countSum, List.map_cons, List.sum_cons, List.length_cons] at *
    omega

/-- The sum of all counters fits a node's frequency field (R130). -/
theorem total_lt (s : State) : s.total < 2 ^ 40 := by
  have := countSum_le s.freq symbols
  have l : symbols.length = 256 := by simp [symbols]
  rw [l] at this
  have e : s.total = countSum s.freq symbols := rfl
  omega

/-- Some counter is above 0 exactly if there is a distinct symbol. -/
theorem hasSymbol_iff (s : State) : s.hasSymbol = true ↔ 1 ≤ s.distinct := by
  have h1 : s.hasSymbol = true ↔ ∃ x, readTable s.freq x ≠ 0 := by
    unfold State.hasSymbol
    rw [List.any_eq_true]
    constructor
    · rintro ⟨c, hc, hne⟩
      obtain ⟨i, hi, rfl⟩ := List.getElem_of_mem hc
      have hi' : i < 256 := by simpa using hi
      refine ⟨BitVec.ofNat 8 i, ?_⟩
      have e : (BitVec.ofNat 8 i).toNat = i := Nat.mod_eq_of_lt hi'
      simpa [readTable, e] using hne
    · rintro ⟨x, hx⟩
      have := x.isLt
      exact ⟨readTable s.freq x, by simp [readTable], by simpa using hx⟩
  rw [h1]
  unfold State.distinct
  constructor
  · rintro ⟨x, hx⟩
    exact List.length_pos_of_mem (List.mem_filter.mpr ⟨mem_symbols x, by simpa using hx⟩)
  · intro h
    obtain ⟨x, hx⟩ := List.exists_mem_of_length_pos h
    exact ⟨x, by simpa using (List.mem_filter.mp hx).2⟩

/-- A forest of one candidate is a tree, and the candidate its root (R125). -/
theorem Forest.tree {s : State} {n w : Nat} (f : Forest s n w) (hn : 1 ≤ n) (hq : s.q.length = 1) :
    ∃ r, s.q = [r] ∧ r.toNat = s.nalloc.toNat - 1 ∧ TreePresent { s with root := r, q := [] } n ∧
      weight s r = w := by
  obtain ⟨r, hr⟩ := List.length_eq_one_iff.mp hq
  have hc := f.count
  have hb := s.nalloc.isLt
  have last : (BitVec.ofNat 9 (s.nalloc.toNat - 1)).toNat = s.nalloc.toNat - 1 := Nat.mod_eq_of_lt (by omega)
  have hm : BitVec.ofNat 9 (s.nalloc.toNat - 1) ∈ s.q :=
    (f.queue _).mpr ⟨by omega, fun p b hp => by have := f.child_lt hp; omega⟩
  rw [hr, List.mem_singleton] at hm
  have hrt : r.toNat = s.nalloc.toNat - 1 := by rw [← hm]; exact last
  refine ⟨r, hr, hrt, ⟨⟨hn, f.leafCount⟩, by show s.nalloc.toNat = _; omega, hrt, f.leaves, f.rising, f.internals, ?_, f.sums,
    f.positive⟩, by have := f.total; rw [hr] at this; simpa using this⟩
  intro h hlt hne
  have hnq : h ∉ s.q := by rw [hr, List.mem_singleton]; exact hne
  rw [f.queue] at hnq
  push Not at hnq
  obtain ⟨p, b, hp⟩ := hnq hlt
  exact ⟨p, b, hp, fun p' b' hp' => f.oneParent h p' b' p b hp' hp⟩

/-- BUILD's pseudocode from no tree, with room for all nodes: the tree it ends with (R120, R124, R125). -/
theorem buildBody_builds {s : State} (ha : TreeAbsent s) (hq : s.q = []) (hd : 1 ≤ s.distinct)
    (hs : 2 * s.distinct - 1 ≤ s.config.arenaSize) :
    ∃ r t, buildBody s = .ok ({ t with root := r, q := [] }, []) ∧ ArenaOnly s t ∧ Forest t s.distinct s.total ∧
      t.q = [r] ∧ LeavesOf s.freq t := by
  have hd' := distinct_le s
  have hn : s.nalloc.toNat = 0 := by rw [ha.2]; rfl
  have none : ∀ h nd, s.nodeAt h ≠ some nd := by intro h nd; simp [State.nodeAt, ha.2]
  have ed : (countedIn s.freq symbols).length = s.distinct := rfl
  obtain ⟨t, ht, ft, nt, _, o2, o3⟩ := leafLoop_forest (xs := symbols) (forest_empty ha.2 hq) hn
    (fun h nd hx => absurd hx (none h nd)) symbols_sorted (by omega) (by omega)
  rw [ed, Nat.zero_add] at nt
  have ft : Forest t s.distinct s.total := by
    have e : s.total = countSum s.freq symbols := rfl
    rw [ed, Nat.zero_add, Nat.zero_add] at ft
    rw [e]; exact ft
  have at' := (leafLoop_arena ht).1
  have ct : t.config = s.config := by rw [at']
  have lt : LeavesOf s.freq t :=
    ⟨fun h nd hx _ => (o2 h nd hx).resolve_left (none h nd), fun x hx => o3 x (mem_symbols x) hx⟩
  have ht_count := ft.count
  obtain ⟨u, hu, fu, qu, ku⟩ := mergeLoop_forest (k := t.q.length) ft (total_lt s) hd (by omega) (by omega)
    (by rw [ct]; exact hs)
  have au := (mergeLoop_arena hu).1
  have lu : LeavesOf s.freq u :=
    ⟨fun h nd hx hk => lt.counted h nd (ku.2 h nd hx hk) hk, fun x hx => by
      obtain ⟨h, nd, h1, h2, h3⟩ := lt.present x hx
      exact ⟨h, nd, ku.1 h nd h1, h2, h3⟩⟩
  obtain ⟨r, hr, _⟩ := fu.tree hd qu
  refine ⟨r, u, ?_, at'.trans au, fu, hr, lu⟩
  obtain ⟨r', h1, h2⟩ := pqExtractMin_yields (s := u) (by rw [hr]; simp) fun h hh => fu.queued hh
  rw [hr, List.mem_singleton] at h2
  subst h2
  unfold buildBody
  rw [require_of ha.1, proc_bind_ok, require_of ((hasSymbol_iff s).mpr hd), proc_bind_ok, ht, proc_bind_ok]
  show (mergeLoop t.q.length t >>= _) = _
  rw [hu, proc_bind_ok, h1, proc_bind_ok]
  simp [hr]

/-- BUILD's pseudocode from no tree in a smaller arena (R124). -/
theorem buildBody_full {s : State} (ha : TreeAbsent s) (hq : s.q = []) (hd : 1 ≤ s.distinct)
    (hs : s.config.arenaSize < 2 * s.distinct - 1) : buildBody s = .error (.raised .allocationFailure) := by
  have hd' := distinct_le s
  have hn : s.nalloc.toNat = 0 := by rw [ha.2]; rfl
  have none : ∀ h nd, s.nodeAt h ≠ some nd := by intro h nd; simp [State.nodeAt, ha.2]
  have ed : (countedIn s.freq symbols).length = s.distinct := rfl
  unfold buildBody
  rw [require_of ha.1, proc_bind_ok, require_of ((hasSymbol_iff s).mpr hd), proc_bind_ok]
  by_cases hfit : s.distinct ≤ s.config.arenaSize
  · obtain ⟨t, ht, ft, nt, _⟩ := leafLoop_forest (xs := symbols) (forest_empty ha.2 hq) hn
      (fun h nd hx => absurd hx (none h nd)) symbols_sorted (by omega) (by omega)
    have ft : Forest t s.distinct s.total := by
      have e : s.total = countSum s.freq symbols := rfl
      rw [ed, Nat.zero_add, Nat.zero_add] at ft
      rw [e]; exact ft
    have ct : t.config = s.config := by rw [(leafLoop_arena ht).1]
    rw [ht, proc_bind_ok]
    show (mergeLoop t.q.length t >>= _) = _
    rw [mergeLoop_full ft (total_lt s) (by omega) (by rw [ct, nt]; omega) (by rw [ct]; exact hs), proc_bind_error]
  · rw [leafLoop_full (by omega) (by omega), proc_bind_error]

end Sys2Proof.Machine
end

