-- ==== Sys2Proof/Laws/PerInstr.lean ====
section
/-! SUPPORT. Statements about every command, one lemma per constructor of `Instr`. Family `EncodesItsRow`: the word of
a command selects the row of the opcode map that names it (30_encoding.md R73, R76). -/

namespace Sys2Proof

theorem packWord_and (op a m n : BitVec 8) (d k : BitVec 32) :
    packWord op a d &&& packWord m n k = packWord (op &&& m) (a &&& n) (d &&& k) := by
  apply BitVec.eq_of_getLsbD_eq
  intro i hi
  rw [BitVec.getLsbD_and, packWord_getLsbD, packWord_getLsbD, packWord_getLsbD]
  split
  · simp
  · split <;> simp

/-- The command's word selects the row with the command's name. -/
def Laws.EncodesItsRow.Statement (i : Instr) : Prop :=
  ∃ r ∈ opcodeTable, r.mnemonic = i.mnemonic ∧ r.selects (encode i) = true

/-- Format `Z`: a fixed word. -/
theorem encodesItsRow_fixed (i : Instr) (h : (opcodeTable.any fun r => r.mnemonic == i.mnemonic && r.selects (encode i)) = true) :
    Laws.EncodesItsRow.Statement i := by
  obtain ⟨r, hr, hp⟩ := List.any_eq_true.mp h
  simp only [Bool.and_eq_true, beq_iff_eq] at hp
  exact ⟨r, hr, hp.1, hp.2⟩

/-- Format `A`: the mask leaves out field `a`. -/
theorem selects_formatA (m : String) (op a : BitVec 8) :
    OpRow.selects ⟨m, packWord op 0#8 0#32, packWord 0xFF#8 0x00#8 0xFFFFFFFF#32⟩ (packWord op a 0#32) = true := by
  have h : op &&& 0xFF#8 = op := BitVec.and_allOnes
  simp [OpRow.selects, packWord_and, h]

/-- Format `AD`: the mask leaves out fields `a` and `d`. -/
theorem selects_formatAD (m : String) (op a : BitVec 8) (d : BitVec 32) :
    OpRow.selects ⟨m, packWord op 0#8 0#32, packWord 0xFF#8 0x00#8 0#32⟩ (packWord op a d) = true := by
  have h : op &&& 0xFF#8 = op := BitVec.and_allOnes
  simp [OpRow.selects, packWord_and, h]

/-- Format `H`: the mask leaves out `d[8:0]`. -/
theorem selects_formatH (m : String) (op : BitVec 8) (x : Handle) :
    OpRow.selects ⟨m, packWord op 0#8 0#32, packWord 0xFF#8 0xFF#8 0xFFFFFE00#32⟩ (packWord op 0#8 (x.setWidth 32)) = true := by
  have h : op &&& 0xFF#8 = op := BitVec.and_allOnes
  have hx : x.setWidth 32 &&& 0xFFFFFE00#32 = 0#32 := by revert x; decide +kernel
  simp [OpRow.selects, packWord_and, h, hx]

theorem Laws.EncodesItsRow.nop : Laws.EncodesItsRow.Statement .nop := encodesItsRow_fixed _ (by decide +kernel)
theorem Laws.EncodesItsRow.rdstat : Laws.EncodesItsRow.Statement .rdstat := encodesItsRow_fixed _ (by decide +kernel)
theorem Laws.EncodesItsRow.clrerr : Laws.EncodesItsRow.Statement .clrerr := encodesItsRow_fixed _ (by decide +kernel)
theorem Laws.EncodesItsRow.fclr : Laws.EncodesItsRow.Statement .fclr := encodesItsRow_fixed _ (by decide +kernel)
theorem Laws.EncodesItsRow.count (sym : Symbol) : Laws.EncodesItsRow.Statement (.count sym) :=
  ⟨⟨"COUNT", 0x110000000000#48, 0xFF00FFFFFFFF#48⟩, by simp [opcodeTable], rfl, selects_formatA _ _ _⟩
theorem Laws.EncodesItsRow.ldf (sym : Symbol) (cnt : Count) : Laws.EncodesItsRow.Statement (.ldf sym cnt) :=
  ⟨⟨"LDF", 0x120000000000#48, 0xFF0000000000#48⟩, by simp [opcodeTable], rfl, selects_formatAD _ _ _ _⟩
theorem Laws.EncodesItsRow.rdfreq (sym : Symbol) : Laws.EncodesItsRow.Statement (.rdfreq sym) :=
  ⟨⟨"RDFREQ", 0x130000000000#48, 0xFF00FFFFFFFF#48⟩, by simp [opcodeTable], rfl, selects_formatA _ _ _⟩
theorem Laws.EncodesItsRow.build : Laws.EncodesItsRow.Statement .build := encodesItsRow_fixed _ (by decide +kernel)
theorem Laws.EncodesItsRow.rdnode (handle : Handle) : Laws.EncodesItsRow.Statement (.rdnode handle) :=
  ⟨⟨"RDNODE", 0x210000000000#48, 0xFFFFFFFFFE00#48⟩, by simp [opcodeTable], rfl, selects_formatH _ _ _⟩
theorem Laws.EncodesItsRow.release : Laws.EncodesItsRow.Statement .release := encodesItsRow_fixed _ (by decide +kernel)
theorem Laws.EncodesItsRow.gen : Laws.EncodesItsRow.Statement .gen := encodesItsRow_fixed _ (by decide +kernel)
theorem Laws.EncodesItsRow.rdcode (sym : Symbol) : Laws.EncodesItsRow.Statement (.rdcode sym) :=
  ⟨⟨"RDCODE", 0x310000000000#48, 0xFF00FFFFFFFF#48⟩, by simp [opcodeTable], rfl, selects_formatA _ _ _⟩
theorem Laws.EncodesItsRow.ebegin : Laws.EncodesItsRow.Statement .ebegin := encodesItsRow_fixed _ (by decide +kernel)
theorem Laws.EncodesItsRow.enc (sym : Symbol) : Laws.EncodesItsRow.Statement (.enc sym) :=
  ⟨⟨"ENC", 0x410000000000#48, 0xFF00FFFFFFFF#48⟩, by simp [opcodeTable], rfl, selects_formatA _ _ _⟩
theorem Laws.EncodesItsRow.eend : Laws.EncodesItsRow.Statement .eend := encodesItsRow_fixed _ (by decide +kernel)
theorem Laws.EncodesItsRow.dbegin : Laws.EncodesItsRow.Statement .dbegin := encodesItsRow_fixed _ (by decide +kernel)
theorem Laws.EncodesItsRow.dec (bitval : BitVec 8) : Laws.EncodesItsRow.Statement (.dec bitval) :=
  ⟨⟨"DEC", 0x510000000000#48, 0xFF00FFFFFFFF#48⟩, by simp [opcodeTable], rfl, selects_formatA _ _ _⟩
theorem Laws.EncodesItsRow.dend : Laws.EncodesItsRow.Statement .dend := encodesItsRow_fixed _ (by decide +kernel)

end Sys2Proof
end

