-- ==== Sys2Proof/Laws/Run.lean ====
section
/-! SUPPORT. Runs over a list of events, said once: one event and then the rest, one run after another, and the frames
that no run commits (44_encoder.md R159, 45_decoder.md R173). -/

namespace Sys2Proof.Machine

/-- A run is one event and then the run of the others. -/
theorem runEvents_cons {e : Event} {es : List Event} {s u : State} {t : List Exchange} :
    runEvents (e :: es) s = some (t, u) ↔
      ∃ v t', runEvent e s = .next v ∧ runEvents es v = some (t', u) ∧ t = ⟨e, tokensSince s v⟩ :: t' := by
  simp only [runEvents]
  cases runEvent e s with
  | next v =>
    simp only [Option.map_eq_some_iff, Prod.mk.injEq, Prod.exists, Host.Outcome.next.injEq]
    constructor
    · rintro ⟨t', u', h, rfl, rfl⟩; exact ⟨v, t', rfl, h, rfl⟩
    · rintro ⟨_, t', rfl, h, rfl⟩; exact ⟨t', u, h, rfl, rfl⟩
  | fault f => simp
  | refused r => simp

/-- Runs compose. -/
theorem runEvents_append {es fs : List Event} {s v u : State} {t t' : List Exchange}
    (h : runEvents es s = some (t, v)) (h' : runEvents fs v = some (t', u)) :
    runEvents (es ++ fs) s = some (t ++ t', u) := by
  induction es generalizing s t with
  | nil => simp only [runEvents, Option.some.injEq, Prod.mk.injEq] at h; obtain ⟨rfl, rfl⟩ := h; exact h'
  | cons e es ih =>
    obtain ⟨w, t1, hw, h1, rfl⟩ := runEvents_cons.mp h
    exact runEvents_cons.mpr ⟨w, t1 ++ t', hw, ih h1, rfl⟩

/-- A transcript holds the events of its run. -/
theorem runEvents_events {es : List Event} {s u : State} {t : List Exchange} (h : runEvents es s = some (t, u)) :
    t.map (·.event) = es := by
  induction es generalizing s t with
  | nil => simp only [runEvents, Option.some.injEq, Prod.mk.injEq] at h; obtain ⟨rfl, rfl⟩ := h; rfl
  | cons e es ih =>
    obtain ⟨w, t1, hw, h1, rfl⟩ := runEvents_cons.mp h
    simp [ih h1]

/-- What was emitted is the response. -/
@[simp] theorem tokensSince_emit (toks : List Token) (s : State) : tokensSince s (emit toks s) = toks := by
  simp [tokensSince]

/-- No frame is closed across an exchange that was not accepted. -/
theorem untilClosed_broken {close : Instr} {t t' : List Exchange} {x : Exchange} (hx : x.accepted = false)
    (ht : .cmd (encode close) ∉ t.map (·.event)) : untilClosed close (t ++ x :: t') = none := by
  induction t with
  | nil => simp [untilClosed, hx]
  | cons y t ih =>
    simp only [List.map_cons, List.mem_cons, not_or] at ht
    simp only [List.cons_append, untilClosed, ih ht.2]
    split
    · rw [if_neg (fun h => ht.1 h.symm)]; rfl
    · rfl

/-- No frame is committed across an exchange that was not accepted. -/
theorem committedFrame_broken {opening close : Instr} {t t' : List Exchange} {x : Exchange} (hx : x.accepted = false)
    (ht : .cmd (encode close) ∉ t.map (·.event)) : committedFrame opening close (t ++ x :: t') = none := by
  cases t with
  | nil => simp [committedFrame, hx]
  | cons y t =>
    simp only [List.map_cons, List.mem_cons, not_or] at ht
    simp only [List.cons_append, committedFrame, untilClosed_broken hx ht.2, ite_self]

end Sys2Proof.Machine
end

