-- ==== Sys2Proof/Laws/Step.lean ====
section
/-! SUPPORT. Everything a step can do, said once: it waits, it executes a command, it refuses a reserved word, it
resets, or it resets inside a command. -/

namespace Sys2Proof.Machine

theorem step_waits {s : State} (h : s.pending = []) : step s = .next s := by simp [step, h]

theorem step_event {s : State} {e : Event} {rest : List Event} (h : s.pending = e :: rest) :
    step s = runEvent e (takeEvent rest s) := by simp [step, h]

/-- Everything an accepted word can do when it answers a next state. -/
theorem runWord_next {w : Word} {s t : State} (h : runWord w s = .next t) :
    (∃ i, decode w = .ok i ∧ exec i s = .next t) ∨ (∃ e, decode w = .error e) ∧ t = raise .illegalCommand s := by
  unfold runWord at h
  split at h
  · rename_i i hd; exact .inl ⟨i, hd, h⟩
  · rename_i e hd; exact .inr ⟨⟨e, hd⟩, by simpa using h.symm⟩

/-- Everything a cut command can do when it answers a next state. -/
theorem cutWord_next {w : Word} {k : Nat} {s t : State} (h : cutWord w k s = .next t) :
    ∃ u, runWord w s = .next u ∧ t = emit ((tokensSince s u).dropLast.take k) (resetBlock s) := by
  unfold cutWord at h
  split at h
  · rename_i u hu; exact ⟨u, hu, by simpa using h.symm⟩
  · cases h
  · cases h

/-- Everything a step can do when it answers a next state. -/
theorem step_next {s t : State} (h : step s = .next t) :
    (s.pending = [] ∧ t = s) ∨
    (∃ w rest i, s.pending = .cmd w :: rest ∧ decode w = .ok i ∧ exec i (takeEvent rest s) = .next t) ∨
    (∃ w rest e, s.pending = .cmd w :: rest ∧ decode w = .error e ∧ t = raise .illegalCommand (takeEvent rest s)) ∨
    (∃ rest, s.pending = .rst :: rest ∧ t = resetBlock (takeEvent rest s)) ∨
    (∃ w k rest u, s.pending = .cut w k :: rest ∧ runWord w (takeEvent rest s) = .next u ∧
      t = emit ((tokensSince (takeEvent rest s) u).dropLast.take k) (resetBlock (takeEvent rest s))) := by
  cases hp : s.pending with
  | nil => rw [step_waits hp] at h; exact .inl ⟨rfl, by simpa using h.symm⟩
  | cons e rest =>
    rw [step_event hp] at h
    cases e with
    | cmd w =>
      rcases runWord_next h with ⟨i, hd, hx⟩ | ⟨⟨e, hd⟩, rfl⟩
      · exact .inr (.inl ⟨w, rest, i, rfl, hd, hx⟩)
      · exact .inr (.inr (.inl ⟨w, rest, e, rfl, hd, rfl⟩))
    | rst => exact .inr (.inr (.inr (.inl ⟨rest, rfl, by simpa [runEvent] using h.symm⟩)))
    | cut w k =>
      obtain ⟨u, hu, rfl⟩ := cutWord_next h
      exact .inr (.inr (.inr (.inr ⟨w, k, rest, u, rfl, hu, rfl⟩)))

end Sys2Proof.Machine
end

