-- ==== Sys2Proof/Laws/Walk.lean ====
section
/-! SUPPORT. Paths of a well-formed tree, and what the walk of GEN and a code in the table have to do with them
(43_code_generator.md R141, R142, 42_tree_builder.md R128). -/

namespace Sys2Proof.Machine

/-! ### Following edges -/

theorem follow_nil (s : State) (h : Handle) : follow s h [] = some h := rfl

theorem follow_cons {s : State} {h l : Handle} {b : Bool} {bs : List Bool} :
    follow s h (b :: bs) = some l ↔ ∃ c, isChild s h b c ∧ follow s c bs = some l := by
  unfold isChild
  simp only [follow]
  constructor
  · intro hf
    split at hf
    · rename_i nd hx
      split at hf
      · rename_i hk; exact ⟨nd.child b, ⟨nd, hx, hk, rfl⟩, hf⟩
      · cases hf
    · cases hf
  · rintro ⟨c, ⟨nd, hx, hk, rfl⟩, hf⟩
    simp [hx, hk, hf]

theorem follow_append {s : State} {h l : Handle} {p q : List Bool} :
    follow s h (p ++ q) = some l ↔ ∃ m, follow s h p = some m ∧ follow s m q = some l := by
  induction p generalizing h with
  | nil => simp [follow_nil]
  | cons b p ih =>
    simp only [List.cons_append, follow_cons, ih]
    constructor
    · rintro ⟨c, hc, m, h1, h2⟩; exact ⟨m, ⟨c, hc, h1⟩, h2⟩
    · rintro ⟨m, ⟨c, hc, h1⟩, h2⟩; exact ⟨c, hc, m, h1, h2⟩

theorem follow_snoc {s : State} {h l : Handle} {p : List Bool} {b : Bool} :
    follow s h (p ++ [b]) = some l ↔ ∃ m, follow s h p = some m ∧ isChild s m b l := by
  rw [follow_append]
  simp only [follow_cons, follow_nil, Option.some.injEq, exists_eq_right]

/-! ### Paths of a well-formed tree -/

namespace TreePresent

variable {s : State} {n : Nat}

theorem leaf_iff (T : TreePresent s n) {h : Handle} {nd : Node} (hx : s.nodeAt h = some nd) :
    nd.kind = .leaf ↔ h.toNat < n := by
  constructor
  · intro hk
    by_contra hn
    have hlt : h.toNat < s.nalloc.toNat := by
      unfold State.nodeAt at hx
      split at hx
      · assumption
      · cases hx
    obtain ⟨nd', hx', hk', _⟩ := T.internals h (by omega) hlt
    rw [hx] at hx'; cases hx'; rw [hk] at hk'; cases hk'
  · intro hn
    obtain ⟨nd', hx', hk', _⟩ := T.leaves h hn
    rw [hx] at hx'; cases hx'; exact hk'

theorem allocated (T : TreePresent s n) {h : Handle} (hlt : h.toNat < s.nalloc.toNat) : ∃ nd, s.nodeAt h = some nd := by
  by_cases hn : h.toNat < n
  · obtain ⟨nd, hx, _⟩ := T.leaves h hn; exact ⟨nd, hx⟩
  · obtain ⟨nd, hx, _⟩ := T.internals h (by omega) hlt; exact ⟨nd, hx⟩

theorem root_lt (T : TreePresent s n) : s.root.toNat < s.nalloc.toNat := by
  have := T.rootLast; have := T.size; have := T.leafCount; omega

theorem root_ne_nil (T : TreePresent s n) : s.root ≠ NIL := by
  intro e
  have h1 := T.root_lt
  have h2 := s.nalloc.isLt
  have h3 := T.size
  rw [e] at h1
  have : NIL.toNat = 511 := rfl
  omega

/-- A child is allocated and older than its parent. -/
theorem child_lt (T : TreePresent s n) {p c : Handle} {b : Bool} (hc : isChild s p b c) :
    n ≤ p.toNat ∧ c.toNat < p.toNat ∧ p.toNat < s.nalloc.toNat := by
  obtain ⟨nd, hx, hk, rfl⟩ := hc
  have hlt : p.toNat < s.nalloc.toNat := by
    unfold State.nodeAt at hx
    split at hx
    · assumption
    · cases hx
  have hn : ¬ p.toNat < n := fun h => by rw [(T.leaf_iff hx).mpr h] at hk; cases hk
  obtain ⟨nd', hx', _, _, hl, hr, _⟩ := T.internals p (by omega) hlt
  rw [hx] at hx'; cases hx'
  refine ⟨by omega, ?_, hlt⟩
  unfold Node.child
  split <;> assumption

theorem parent_unique (T : TreePresent s n) {h p p' : Handle} {b b' : Bool} (h1 : isChild s p b h)
    (h2 : isChild s p' b' h) : p = p' ∧ b = b' := by
  have l := T.child_lt h1
  obtain ⟨q, c, _, hu⟩ := T.oneParent h (by omega) (by rintro rfl; have := T.rootLast; omega)
  obtain ⟨e1, e2⟩ := hu p b h1
  obtain ⟨e3, e4⟩ := hu p' b' h2
  exact ⟨e1.trans e3.symm, e2.trans e4.symm⟩

/-- A path leads to older nodes, one or more steps per edge. -/
theorem follow_le (T : TreePresent s n) {h l : Handle} {bs : List Bool} (hf : follow s h bs = some l) :
    l.toNat + bs.length ≤ h.toNat := by
  induction bs generalizing h with
  | nil => cases hf; simp
  | cons b bs ih =>
    obtain ⟨c, hc, hf⟩ := follow_cons.mp hf
    have := ih hf
    have := T.child_lt hc
    simp only [List.length_cons]; omega

/-- A path passes through Internal nodes only, until its end. -/
theorem follow_short (T : TreePresent s n) {h l : Handle} {bs : List Bool} (hf : follow s h bs = some l) :
    bs = [] ∨ bs.length + n ≤ h.toNat + 1 := by
  induction bs generalizing h with
  | nil => exact .inl rfl
  | cons b bs ih =>
    obtain ⟨c, hc, hf⟩ := follow_cons.mp hf
    have hl := T.child_lt hc
    right
    simp only [List.length_cons]
    rcases ih hf with rfl | h1
    · simp; omega
    · omega

/-- Two paths from one node to one node are the same path. -/
theorem follow_inj (T : TreePresent s n) {h l : Handle} {p q : List Bool} (hp : follow s h p = some l)
    (hq : follow s h q = some l) : p = q := by
  induction p using List.reverseRecOn generalizing l q with
  | nil =>
    cases hp
    have := T.follow_le hq
    exact (List.length_eq_zero_iff.mp (by omega)).symm
  | append_singleton p b ih =>
    obtain ⟨m, hm, hc⟩ := follow_snoc.mp hp
    rcases List.eq_nil_or_concat q with rfl | ⟨q', b', rfl⟩
    · cases hq
      have := T.follow_le hp
      simp at this
    · rw [List.concat_eq_append] at hq ⊢
      obtain ⟨m', hm', hc'⟩ := follow_snoc.mp hq
      obtain ⟨rfl, rfl⟩ := T.parent_unique hc hc'
      rw [ih hm hm']

/-- Every node is reached from the root. -/
theorem reached (T : TreePresent s n) {h : Handle} (hlt : h.toNat < s.nalloc.toNat) :
    ∃ bs, follow s s.root bs = some h := by
  generalize hd : s.nalloc.toNat - h.toNat = d
  induction d using Nat.strong_induction_on generalizing h with
  | _ d ih =>
    by_cases he : h = s.root
    · subst he; exact ⟨[], rfl⟩
    · obtain ⟨p, b, hc, _⟩ := T.oneParent h hlt he
      have hl := T.child_lt hc
      obtain ⟨bs, hb⟩ := ih (s.nalloc.toNat - p.toNat) (by omega) hl.2.2 rfl
      exact ⟨bs ++ [b], follow_snoc.mpr ⟨p, hb, hc⟩⟩

/-- Two leaves with one symbol are one leaf. -/
theorem leaf_unique (T : TreePresent s n) {h h' : Handle} {nd nd' : Node} (hx : s.nodeAt h = some nd)
    (hx' : s.nodeAt h' = some nd') (hk : nd.kind = .leaf) (hk' : nd'.kind = .leaf) (he : nd.sym = nd'.sym) : h = h' := by
  have h1 := (T.leaf_iff hx).mp hk
  have h2 := (T.leaf_iff hx').mp hk'
  rcases Nat.lt_trichotomy h.toNat h'.toNat with hlt | heq | hgt
  · have := T.rising h h' nd nd' hlt h2 hx hx'; rw [he] at this; omega
  · exact BitVec.eq_of_toNat_eq heq
  · have := T.rising h' h nd' nd hgt h1 hx' hx; rw [he] at this; omega

/-- A path that leads to a Leaf ends there. -/
theorem follow_leaf (_T : TreePresent s n) {h l : Handle} {nd : Node} {bs : List Bool} (hx : s.nodeAt h = some nd)
    (hk : nd.kind = .leaf) (hf : follow s h bs = some l) : bs = [] := by
  cases bs with
  | nil => rfl
  | cons b bs =>
    obtain ⟨c, ⟨nd', hx', hk', _⟩, _⟩ := follow_cons.mp hf
    rw [hx] at hx'; cases hx'; rw [hk] at hk'; cases hk'

end TreePresent

/-! ### A code written and read -/

theorem pathValue_testBit (path : List Bool) (i : Nat) : (pathValue path).testBit i = (path[i]?).getD false := by
  induction path generalizing i with
  | nil => simp [pathValue]
  | cons b bs ih =>
    cases i with
    | zero => cases b <;> simp [pathValue, Nat.testBit_zero]
    | succ i =>
      have : (b.toNat + 2 * pathValue bs) / 2 = pathValue bs := by cases b <;> (simp; try omega)
      simp [pathValue, Nat.testBit_succ, this, ih]

theorem pathBits_getLsbD (path : List Bool) (i : Nat) (hi : i < 255) :
    (pathBits path).getLsbD i = (path[i]?).getD false := by
  rw [pathBits, BitVec.getLsbD_ofNat, pathValue_testBit]
  simp [hi]

/-- A code of at most `MAXLEN` bits reads back as it was written (10_state.md R33). -/
theorem code_of_entry {s : State} {x : Symbol} {path : List Bool} (hl : path.length ≤ 255)
    (h1 : readTable s.clen x = BitVec.ofNat 8 path.length) (h2 : readTable s.cbits x = pathBits path) :
    s.code x = path := by
  have e : (readTable s.clen x).toNat = path.length := by
    rw [h1, BitVec.toNat_ofNat, Nat.mod_eq_of_lt]; omega
  apply List.ext_getElem?
  intro i
  simp only [State.code, e, List.getElem?_map, h2]
  by_cases hi : i < path.length
  · rw [List.getElem?_range hi, List.getElem?_eq_getElem hi]
    simp [pathBits_getLsbD path i (by omega), List.getElem?_eq_getElem hi]
  · rw [List.getElem?_eq_none (by simpa using hi), List.getElem?_eq_none (by simpa using hi)]
    rfl

theorem code_length (s : State) (x : Symbol) : (s.code x).length = (readTable s.clen x).toNat := by simp [State.code]

/-! ### The walk -/

theorem nodeAt_tableOnly {s t : State} (e : TableOnly s t) (h : Handle) : t.nodeAt h = s.nodeAt h := by
  unfold TableOnly at e; rw [e]; rfl

theorem setCode_tableOnly (x : Symbol) (path : List Bool) (s : State) : TableOnly s (setCode x path s) := rfl

/-- The walk from a node of a tree gives every Leaf below the node its path, and leaves every other symbol's entry
alone (R141). -/
theorem walk_gives {s0 : State} {n : Nat} (T : TreePresent s0 n) {k : Nat} {h : Handle} {path : List Bool} {s : State}
    (e : TableOnly s0 s) (hk : 1 ≤ k) (hf : h.toNat + 2 ≤ n + k) (ha : h.toNat < s0.nalloc.toNat) :
    ∃ t, walk k h path s = .ok t ∧ TableOnly s0 t ∧
      (∀ l nd bs, follow s0 h bs = some l → s0.nodeAt l = some nd → nd.kind = .leaf →
        readTable t.clen nd.sym = BitVec.ofNat 8 (path ++ bs).length ∧
        readTable t.cbits nd.sym = pathBits (path ++ bs)) ∧
      ∀ x, (∀ l nd bs, follow s0 h bs = some l → s0.nodeAt l = some nd → nd.kind = .leaf → nd.sym ≠ x) →
        readTable t.clen x = readTable s.clen x ∧ readTable t.cbits x = readTable s.cbits x := by
  induction k generalizing h path s with
  | zero => omega
  | succ k ih =>
    obtain ⟨nd, hx⟩ := T.allocated ha
    have hr : readNode s h = .ok nd := (readNode_eq_ok _ _ _).mpr (by rw [nodeAt_tableOnly e]; exact hx)
    simp only [walk, hr, proc_bind_ok]
    cases hkind : nd.kind with
    | leaf =>
      refine ⟨setCode nd.sym path s, rfl, e.trans (setCode_tableOnly _ _ _), ?_, ?_⟩
      · intro l nd' bs hfl hxl hkl
        have := T.follow_leaf hx hkind hfl
        subst this
        cases hfl
        rw [hx] at hxl; cases hxl
        simp [setCode]
      · intro x hno
        have hne : x ≠ nd.sym := fun he => hno h nd [] rfl hx hkind he.symm
        simp [setCode, readTable_writeTable_other, hne]
    | internal =>
      have hcl : isChild s0 h false nd.left := ⟨nd, hx, hkind, rfl⟩
      have hcr : isChild s0 h true nd.right := ⟨nd, hx, hkind, rfl⟩
      have ll := T.child_lt hcl
      have lr := T.child_lt hcr
      obtain ⟨t1, w1, e1, g1, k1⟩ := ih (h := nd.left) (path := path ++ [LEFT_BIT]) e (by omega) (by omega) (by omega)
      obtain ⟨t2, w2, e2, g2, k2⟩ := ih (h := nd.right) (path := path ++ [RIGHT_BIT]) e1 (by omega) (by omega) (by omega)
      have isL : ∀ c, isChild s0 h false c → c = nd.left := by
        rintro c ⟨nd', hx', _, rfl⟩; rw [hx] at hx'; cases hx'; rfl
      have isR : ∀ c, isChild s0 h true c → c = nd.right := by
        rintro c ⟨nd', hx', _, rfl⟩; rw [hx] at hx'; cases hx'; rfl
      refine ⟨t2, by simp only [w1, proc_bind_ok, w2], e2, ?_, ?_⟩
      · intro l nd' bs hfl hxl hkl
        cases bs with
        | nil => cases hfl; rw [hx] at hxl; cases hxl; rw [hkind] at hkl; cases hkl
        | cons b bs =>
          obtain ⟨c, hc, hfc⟩ := follow_cons.mp hfl
          cases b with
          | false =>
            cases isL c hc
            obtain ⟨a1, a2⟩ := g1 l nd' bs hfc hxl hkl
            obtain ⟨b1, b2⟩ := k2 nd'.sym (by
              intro l' nd'' bs' hf' hx' hk' he
              cases T.leaf_unique hx' hxl hk' hkl he
              have := T.follow_inj hfl (follow_cons.mpr ⟨nd.right, hcr, hf'⟩)
              cases this)
            rw [b1, b2, a1, a2]
            simp
          | true =>
            cases isR c hc
            obtain ⟨a1, a2⟩ := g2 l nd' bs hfc hxl hkl
            rw [a1, a2]
            simp
      · intro x hno
        obtain ⟨a1, a2⟩ := k2 x fun l nd' bs h1 => hno l nd' (true :: bs) (follow_cons.mpr ⟨_, hcr, h1⟩)
        obtain ⟨b1, b2⟩ := k1 x fun l nd' bs h1 => hno l nd' (false :: bs) (follow_cons.mpr ⟨_, hcl, h1⟩)
        exact ⟨a1.trans b1, a2.trans b2⟩

/-- GEN's pseudocode with a tree (R140 to R142): a symbol on a leaf gets its path, or `[LEFT_BIT]` at a Leaf root, and
every other symbol has no entry. -/
theorem genBody_gives {s : State} {n : Nat} (T : TreePresent s n) :
    ∃ t, genBody s = .ok (t, []) ∧
      (∀ l nd bs, follow s s.root bs = some l → s.nodeAt l = some nd → nd.kind = .leaf →
        readTable t.clen nd.sym = BitVec.ofNat 8 (if l = s.root then [LEFT_BIT] else bs).length ∧
        readTable t.cbits nd.sym = pathBits (if l = s.root then [LEFT_BIT] else bs)) ∧
      ∀ x, (∀ l nd, s.nodeAt l = some nd → nd.kind = .leaf → nd.sym ≠ x) →
        readTable t.clen x = 0 ∧ readTable t.cbits x = 0 := by
  have hroot := T.root_lt
  have hsize := T.size
  have hlast := T.rootLast
  have hcount := T.leafCount
  have e : TableOnly s (clearTable s) := rfl
  obtain ⟨nd, hx⟩ := T.allocated hroot
  have hr : readNode (clearTable s) s.root = .ok nd := (readNode_eq_ok _ _ _).mpr hx
  have hr' : readNode (clearTable s) (clearTable s).root = .ok nd := hr
  cases hkind : nd.kind with
  | leaf =>
    refine ⟨setCode nd.sym [LEFT_BIT] (clearTable s), ?_, ?_, ?_⟩
    · simp only [genBody, if_neg T.root_ne_nil, genTree, hr', proc_bind_ok, hkind, proc_pure]
    · intro l nd' bs hf hl hk
      have := T.follow_leaf hx hkind hf
      subst this
      cases hf
      rw [hx] at hl; cases hl
      simp [setCode]
    · intro x hno
      have hne : x ≠ nd.sym := fun he => hno s.root nd hx hkind he.symm
      simp [setCode, clearTable, readTable_writeTable_other, hne]
  | internal =>
    obtain ⟨t, ht, _, g, k⟩ := walk_gives T (k := MAXLEN + 1) (path := []) e (by decide)
      (by have : MAXLEN + 1 = 256 := rfl; omega) hroot
    refine ⟨t, ?_, ?_, ?_⟩
    · simp only [genBody, if_neg T.root_ne_nil, genTree, hr', proc_bind_ok, hkind]
      show (walk (MAXLEN + 1) s.root [] (clearTable s) >>= _) = _
      rw [ht, proc_bind_ok, proc_pure]
    · intro l nd' bs hf hl hk
      have hne : l ≠ s.root := by
        rintro rfl
        rw [hx] at hl; cases hl; rw [hkind] at hk; cases hk
      rw [if_neg hne]
      simpa using g l nd' bs hf hl hk
    · intro x hno
      obtain ⟨a, b⟩ := k x fun l nd' bs _ hl hk => hno l nd' hl hk
      rw [a, b]
      simp [clearTable]

end Sys2Proof.Machine
end

