-- ==== Sys2Proof/Machine/Assembler.lean ====
section
/-! DEFINITION. The assembler's text (30_encoding.md R85, R86): one line of characters to the words of its commands.
Blanks may stand between the parts of a line, and an empty line or a comment is no command (log 13). -/

namespace Sys2Proof

/-- A part of a line. -/
inductive Lexeme where
  /-- A mnemonic. -/
  | name (letters : List Char)
  /-- A decimal or hexadecimal number, or a quoted character as its ASCII value. -/
  | number (n : Nat)
  /-- A quoted text. -/
  | text (chars : List Char)
  | comma | colon | opening | closing
deriving DecidableEq, Repr

/-- The opening and the closing brace of LDFT (R86), by their ASCII values. -/
def braceOpen : Char := Char.ofNat 123
/-- See `braceOpen`. -/
def braceClose : Char := Char.ofNat 125

/-- The value of a digit in base 10 or 16. -/
def digitValue (base : Nat) (c : Char) : Option Nat :=
  let n := c.toNat
  let v := if 48 ≤ n ∧ n ≤ 57 then n - 48 else if 97 ≤ n ∧ n ≤ 102 then n - 87
    else if 65 ≤ n ∧ n ≤ 70 then n - 55 else base
  if v < base then some v else none

/-- A numeral, most significant digit first. -/
def numeralFrom (base : Nat) : Nat → List Char → Option Nat
  | acc, [] => some acc
  | acc, c :: cs =>
    match digitValue base c with
    | some v => numeralFrom base (base * acc + v) cs
    | none => none

/-- A decimal number, or a hexadecimal one `0x..` (R85). -/
def numeral : List Char → Option Nat
  | '0' :: 'x' :: c :: cs => numeralFrom 16 0 (c :: cs)
  | c :: cs => numeralFrom 10 0 (c :: cs)
  | [] => none

/-- Letters in upper case, as mnemonics are written (R85). -/
def isUpper (c : Char) : Bool := decide (65 ≤ c.toNat ∧ c.toNat ≤ 90)

/-- A character of a numeral. -/
def isNumeralChar (c : Char) : Bool := (digitValue 16 c).isSome || c == 'x'

/-- The value of a character operand: "its ASCII byte value" (R85). -/
def asciiValue (c : Char) : Option Nat := if c.toNat < 128 then some c.toNat else none

/-- The parts of a line; a `;` starts a comment (R85). The first argument bounds the parts. -/
def lexLine : Nat → List Char → Option (List Lexeme)
  | _, [] => some []
  | 0, _ :: _ => none
  | k + 1, c :: cs =>
    if c = ' ' ∨ c = '\t' then lexLine k cs
    else if c = ';' then some []
    else if c = ',' then (lexLine k cs).map (.comma :: ·)
    else if c = ':' then (lexLine k cs).map (.colon :: ·)
    else if c = braceOpen then (lexLine k cs).map (.opening :: ·)
    else if c = braceClose then (lexLine k cs).map (.closing :: ·)
    else if c = '\'' then
      match cs with
      | x :: '\'' :: rest => (asciiValue x).bind fun n => (lexLine k rest).map (.number n :: ·)
      | _ => none
    else if c = '"' then
      match cs.dropWhile (· != '"') with
      | _ :: rest => (lexLine k rest).map (.text (cs.takeWhile (· != '"')) :: ·)
      | [] => none
    else if isUpper c then
      (lexLine k (cs.dropWhile isUpper)).map (.name (c :: cs.takeWhile isUpper) :: ·)
    else
      (numeral (c :: cs.takeWhile isNumeralChar)).bind fun n =>
        (lexLine k (cs.dropWhile isNumeralChar)).map (.number n :: ·)

/-- The characters of a text as byte values; none if one is not ASCII. -/
def textBytes : List Char → Option (List Nat)
  | [] => some []
  | c :: cs => (asciiValue c).bind fun n => (textBytes cs).map (n :: ·)

/-- The digits of a bit-string; none if a character is no digit 0 or 1 (R86). -/
def bitDigits : List Char → Option (List Nat)
  | [] => some []
  | c :: cs => if c = '0' ∨ c = '1' then (bitDigits cs).map fun ds => (c.toNat - 48) :: ds else none

/-- The listed pairs of LDFT, up to the closing brace (R86). R86 gives the form `s1: n1, s2: n2, ...` between the braces
and no more: that the list may be empty, and that a comma may stand between the last pair and the closing brace, is the
model's choice (DESIGN CHOICE, log 13). -/
def ldftEntries : List Lexeme → Option (List (Nat × Nat))
  | [.closing] => some []
  | [.number s, .colon, .number n, .closing] => some [(s, n)]
  | .number s :: .colon :: .number n :: .comma :: rest => (ldftEntries rest).map ((s, n) :: ·)
  | _ => none

/-- A command without operand. -/
def parsePlain (m : List Char) : Option Asm :=
  if m = ['N', 'O', 'P'] then some .nop
  else if m = ['R', 'D', 'S', 'T', 'A', 'T'] then some .rdstat
  else if m = ['C', 'L', 'R', 'E', 'R', 'R'] then some .clrerr
  else if m = ['F', 'C', 'L', 'R'] then some .fclr
  else if m = ['B', 'U', 'I', 'L', 'D'] then some .build
  else if m = ['R', 'E', 'L', 'E', 'A', 'S', 'E'] then some .release
  else if m = ['G', 'E', 'N'] then some .gen
  else if m = ['E', 'B', 'E', 'G', 'I', 'N'] then some .ebegin
  else if m = ['E', 'E', 'N', 'D'] then some .eend
  else if m = ['D', 'B', 'E', 'G', 'I', 'N'] then some .dbegin
  else if m = ['D', 'E', 'N', 'D'] then some .dend
  else none

/-- A command with one operand (R85). -/
def parseOne (m : List Char) (x : Nat) : Option Asm :=
  if m = ['C', 'O', 'U', 'N', 'T'] then some (.count x)
  else if m = ['R', 'D', 'F', 'R', 'E', 'Q'] then some (.rdfreq x)
  else if m = ['R', 'D', 'N', 'O', 'D', 'E'] then some (.rdnode x)
  else if m = ['R', 'D', 'C', 'O', 'D', 'E'] then some (.rdcode x)
  else if m = ['E', 'N', 'C'] then some (.enc x)
  else if m = ['D', 'E', 'C'] then some (.dec x)
  else none

/-- A pseudo-instruction on a text or a bit-string (R86). -/
def parseText (m : List Char) (t : List Char) : Option Asm :=
  if m = ['C', 'O', 'U', 'N', 'T', 'S'] then (textBytes t).map .counts
  else if m = ['E', 'N', 'C', 'S'] then (textBytes t).map .encs
  else if m = ['D', 'E', 'C', 'S'] then (bitDigits t).map .decs
  else if m = ['C', 'O', 'M', 'P', 'R', 'E', 'S', 'S'] then (textBytes t).map .compress
  else if m = ['D', 'E', 'C', 'O', 'M', 'P', 'R', 'E', 'S', 'S'] then (bitDigits t).map .decompress
  else none

/-- A line from its parts: `MNEMONIC`, `MNEMONIC operand`, `MNEMONIC operand, operand` (R85), or a pseudo-instruction
(R86). -/
def parseParts : List Lexeme → Option Asm
  | [.name m] => parsePlain m
  | [.name m, .number x] => parseOne m x
  | [.name m, .number x, .comma, .number y] => if m = ['L', 'D', 'F'] then some (.ldf x y) else none
  | [.name m, .text t] => parseText m t
  | .name m :: .opening :: rest => if m = ['L', 'D', 'F', 'T'] then (ldftEntries rest).map .ldft else none
  | _ => none

/-- The words of one line of text; none if the assembler rejects it (R85). -/
def assembleLine (line : List Char) : Option (List Word) :=
  (lexLine (line.length + 1) line).bind fun parts =>
    match parts with
    | [] => some []
    | p :: ps => (parseParts (p :: ps)).bind Asm.assemble

/-- The words of a program, one line after the other; none if a line is rejected. -/
def assembleProgram : List (List Char) → Option (List Word)
  | [] => some []
  | l :: ls => (assembleLine l).bind fun ws => (assembleProgram ls).map (ws ++ ·)

end Sys2Proof
end

