-- ==== Sys2Proof/Tests/Slice0.lean ====
section
/-! SUPPORT. Tests: every expected value is written out from spec/ (the file and trace are named), none from a run of the
model. Each is about one step on a small state. -/

set_option Elab.async false

namespace Sys2Proof.Machine.Tests

/-! ### Small states -/

/-- The tree of "aaabbc" (42_tree_builder.md R120, example). -/
def tree : Memory :=
  [(0, ⟨.leaf, 0x61, NIL, NIL, 3⟩), (1, ⟨.leaf, 0x62, NIL, NIL, 2⟩), (2, ⟨.leaf, 0x63, NIL, NIL, 1⟩),
   (3, ⟨.internal, 0, 2, 1, 3⟩), (4, ⟨.internal, 0, 0, 3, 6⟩)]

/-- The counts of "aaabbc". -/
def counted : State :=
  { State.reset with freq := writeTable (writeTable (writeTable State.reset.freq 0x61 3) 0x62 2) 0x63 1 }

/-- The tree of "aaabbc" present, no table. -/
def built : State := { counted with root := 4, nalloc := 5, node := tree }

/-- And its code table: 'a' = "0", 'b' = "11", 'c' = "10" (43_code_generator.md R140, example). -/
def coded : State :=
  { built with
    clen := writeTable (writeTable (writeTable State.reset.clen 0x61 1) 0x62 2) 0x63 2
    cbits := writeTable (writeTable State.reset.cbits 0x62 0b11) 0x63 0b01 }

/-- The tree of "aaaa" (42_tree_builder.md R123, example). -/
def single : State :=
  { State.reset with root := 0, nalloc := 1, node := [(0, ⟨.leaf, 0x61, NIL, NIL, 4⟩)] }

/-- An open encode frame. -/
def encoding (s : State) : State := { s with mode := .encode }

/-- An open decode frame with the cursor at `h`. -/
def decoding (s : State) (h : Handle) : State := { s with mode := .decode, cur := h }

/-- Mode FATAL after `ST(2)` (95_test_vectors.md trace X1). -/
def dead : State := { State.reset with mode := .fatal, err := 2 }

/-- The next state, if there is one. -/
def after (i : Instr) (s : State) : Option State :=
  match exec i s with
  | .next t => some t
  | .fault _ => none
  | .refused _ => none

/-- The words of the tokens answered to a command in a state with no output yet. -/
def reply (i : Instr) (s : State) : Option (List TokenWord) := (after i s).map fun t => t.out.map Token.word

/-- One step of the host's event. -/
def afterEvent (e : Event) (s : State) : Option State :=
  match step { s with pending := [e] } with
  | .next t => some t
  | .fault _ => none
  | .refused _ => none

/-! ### The assembler's checks, each refusing an ill-formed line (30_encoding.md R85) -/

theorem test_smoke_count_operand : (Asm.count 256).wellFormed = false := by decide
theorem test_smoke_ldf_symbol : (Asm.ldf 256 0).wellFormed = false := by decide
theorem test_smoke_ldf_count : (Asm.ldf 0 4294967296).wellFormed = false := by decide
theorem test_smoke_rdfreq_operand : (Asm.rdfreq 256).wellFormed = false := by decide
theorem test_smoke_rdnode_handle : (Asm.rdnode 512).wellFormed = false := by decide
theorem test_smoke_rdcode_operand : (Asm.rdcode 256).wellFormed = false := by decide
theorem test_smoke_enc_operand : (Asm.enc 256).wellFormed = false := by decide
theorem test_smoke_dec_operand : (Asm.dec 256).wellFormed = false := by decide
theorem test_smoke_dec_two_is_legal : (Asm.dec 2).wellFormed = true := by decide
theorem test_smoke_counts_text : (Asm.counts [0x61, 256]).wellFormed = false := by decide
theorem test_smoke_encs_text : (Asm.encs [256]).wellFormed = false := by decide
theorem test_smoke_decs_digit : (Asm.decs [0, 2]).wellFormed = false := by decide
theorem test_smoke_ldft_count : (Asm.ldft [(0x61, 1), (0x62, 4294967296)]).wellFormed = false := by decide
theorem test_smoke_compress_text : (Asm.compress [256]).wellFormed = false := by decide
theorem test_smoke_decompress_digit : (Asm.decompress [2]).wellFormed = false := by decide

/-- 30_encoding.md R86: COMPRESS "ab" and DECOMPRESS "10", words from R76. -/
theorem test_compress_words : (Asm.compress [0x61, 0x62]).assemble =
    some [0x100000000000#48, 0x116100000000#48, 0x116200000000#48, 0x200000000000#48, 0x300000000000#48,
      0x400000000000#48, 0x416100000000#48, 0x416200000000#48, 0x420000000000#48] := by decide +kernel
theorem test_decompress_words : (Asm.decompress [1, 0]).assemble =
    some [0x500000000000#48, 0x510100000000#48, 0x510000000000#48, 0x520000000000#48] := by decide +kernel
/-- 30_encoding.md R86: LDFT clears, then loads in the listed order. -/
theorem test_ldft_words : (Asm.ldft [(0x62, 5), (0x61, 1)]).assemble =
    some [0x100000000000#48, 0x126200000005#48, 0x126100000001#48] := by decide +kernel

/-! ### The assembler's text (30_encoding.md R85, R86; words from 95_test_vectors.md) -/

/-- `LDF 'b', 5 ; comment`. -/
theorem test_text_ldf :
    assembleLine ['L', 'D', 'F', ' ', '\'', 'b', '\'', ',', ' ', '5', ' ', ';', ' ', 'x'] = some [0x126200000005#48] := by
  decide +kernel
/-- `RDNODE 0x1FF`, and the handle one above. -/
theorem test_text_rdnode :
    assembleLine ['R', 'D', 'N', 'O', 'D', 'E', ' ', '0', 'x', '1', 'F', 'F'] = some [0x2100000001FF#48] ∧
    assembleLine ['R', 'D', 'N', 'O', 'D', 'E', ' ', '5', '1', '2'] = none := by decide +kernel
/-- `DECS "10"`, and a digit that is no bit. -/
theorem test_text_decs :
    assembleLine ['D', 'E', 'C', 'S', ' ', '"', '1', '0', '"'] = some [0x510100000000#48, 0x510000000000#48] ∧
    assembleLine ['D', 'E', 'C', 'S', ' ', '"', '2', '"'] = none := by decide +kernel
/-- LDFT with one pair. -/
theorem test_text_ldft :
    assembleLine (['L', 'D', 'F', 'T', braceOpen, '\'', 'a', '\'', ':', '3', braceClose]) =
      some [0x100000000000#48, 0x126100000003#48] := by decide +kernel
/-- An operand where the command takes none. -/
theorem test_text_operand_of_nop : assembleLine ['N', 'O', 'P', ' ', '0'] = none := by decide +kernel

/-! ### Every constructor's word, written out from 30_encoding.md R76 and 95_test_vectors.md -/

theorem test_decode_nop : decode 0x000000000000#48 = .ok .nop := by decide
theorem test_decode_rdstat : decode 0x010000000000#48 = .ok .rdstat := by decide
theorem test_decode_clrerr : decode 0x020000000000#48 = .ok .clrerr := by decide
theorem test_decode_fclr : decode 0x100000000000#48 = .ok .fclr := by decide
theorem test_decode_count : decode 0x116100000000#48 = .ok (.count 0x61) := by decide
theorem test_decode_ldf : decode 0x12FFFFFFFFFE#48 = .ok (.ldf 0xFF 0xFFFFFFFE) := by decide
theorem test_decode_rdfreq : decode 0x13FF00000000#48 = .ok (.rdfreq 0xFF) := by decide
theorem test_decode_build : decode 0x200000000000#48 = .ok .build := by decide
theorem test_decode_rdnode : decode 0x2100000001FF#48 = .ok (.rdnode 511) := by decide
theorem test_decode_release : decode 0x220000000000#48 = .ok .release := by decide
theorem test_decode_gen : decode 0x300000000000#48 = .ok .gen := by decide
theorem test_decode_rdcode : decode 0x316100000000#48 = .ok (.rdcode 0x61) := by decide
theorem test_decode_ebegin : decode 0x400000000000#48 = .ok .ebegin := by decide
theorem test_decode_enc : decode 0x416300000000#48 = .ok (.enc 0x63) := by decide
theorem test_decode_eend : decode 0x420000000000#48 = .ok .eend := by decide
theorem test_decode_dbegin : decode 0x500000000000#48 = .ok .dbegin := by decide
theorem test_decode_dec : decode 0x513100000000#48 = .ok (.dec 0x31) := by decide
theorem test_decode_dend : decode 0x520000000000#48 = .ok .dend := by decide
/-- Reserved words of trace Y1 and trace D3. -/
theorem test_reserved_nop_field : decode 0x000000000001#48 = .error (.field 0x00) := by decide
theorem test_reserved_opcode : decode 0xFF0000000000#48 = .error (.opcode 0xFF) := by decide
theorem test_reserved_rdnode_bit9 : decode 0x210000000200#48 = .error (.field 0x21) := by decide
theorem test_reserved_rdnode_a : decode 0x210100000000#48 = .error (.field 0x21) := by decide
theorem test_reserved_count_d : decode 0x116100000001#48 = .error (.field 0x11) := by decide
/-- Table words: 48 bits, and nothing above them. -/
theorem test_table_word : decodeTableWord 48 0x126200000005 = some (.ldf 0x62 5) := by decide
theorem test_table_word_too_long : decodeTableWord 56 0x1000000000000 = none := by decide

/-! ### One command each (95_test_vectors.md, the trace named) -/

/-- Y1 row 1. -/
theorem test_nop : reply .nop State.reset = some [0x0000000000#40] := by decide +kernel
/-- X1 row 5. -/
theorem test_nop_fatal : reply .nop dead = some [0x0000000007#40] := by decide +kernel
/-- Y1 row 0. -/
theorem test_rdstat_reset :
    reply .rdstat State.reset = some [0x030001FF00#40, 0x03000001FF#40, 0x0000000000#40] := by decide +kernel
/-- D2 row 9, with the table present as in E1: `STATUS0 = 0x000A040E`, `CUR = 3`. -/
theorem test_rdstat_decode :
    reply .rdstat (decoding coded 3) = some [0x03000A040E#40, 0x0300000003#40, 0x0000000000#40] := by decide +kernel
/-- Y1 row 13. -/
theorem test_clrerr : (after .clrerr { State.reset with err := 7 }).map (·.err) = some 0 := by decide +kernel
/-- X1 row 6. -/
theorem test_clrerr_fatal : (after .clrerr dead).map (·.err) = some 2 := by decide +kernel
/-- F1 row 15. -/
theorem test_fclr : (after .fclr counted).map (fun t => readTable t.freq 0x61) = some 0 := by decide +kernel
/-- F1 row 8. -/
theorem test_count_to_top :
    (after (.count 0xFF) { State.reset with freq := writeTable State.reset.freq 0xFF 0xFFFFFFFE }).map
      (fun t => readTable t.freq 0xFF) = some 0xFFFFFFFF := by decide +kernel
/-- F1 row 10. -/
theorem test_count_overflow :
    (after (.count 0xFF) { State.reset with freq := writeTable State.reset.freq 0xFF 0xFFFFFFFF }).map
      (fun t => (readTable t.freq 0xFF, t.err, t.mode)) = some (0xFFFFFFFF, 6, .idle) := by decide +kernel
/-- F1 row 5. -/
theorem test_ldf : (after (.ldf 0x62 5) State.reset).map (fun t => readTable t.freq 0x62) = some 5 := by decide +kernel
/-- E2 row 11: LDF's family in a frame is illegal and aborts it. -/
theorem test_ldf_in_frame :
    (after (.ldf 0x62 5) (encoding coded)).map (fun t => (readTable t.freq 0x62, t.mode, t.err)) =
      some (2, .idle, 7) := by decide +kernel
/-- F1 row 4. -/
theorem test_rdfreq : reply (.rdfreq 0x61) counted = some [0x0300000003#40, 0x0000000000#40] := by decide +kernel
/-- B2 row 3 and its nodes, read by handle. -/
theorem test_build_aaabbc :
    (after .build counted).map (fun t => (t.root, t.nalloc, t.node)) = some (4, 5, tree) := by decide +kernel
/-- B7 row 2: `ARENA_SIZE = 2`, two symbols. -/
theorem test_build_small_arena :
    (after .build { counted with config := ⟨2, by decide, by decide⟩ }).map
      (fun t => (t.mode, t.err, t.root, t.nalloc, t.q)) = some (.fatal, 2, NIL, 0, []) := by decide +kernel
/-- B2 row 9. -/
theorem test_rdnode_root : reply (.rdnode 4) built =
    some [0x0380000003#40, 0x0300000006#40, 0x0300000000#40, 0x0000000000#40] := by decide +kernel
/-- B2 row 10. -/
theorem test_rdnode_unallocated : reply (.rdnode 5) built = some [0x0000000007#40] := by decide +kernel
/-- R2 row 6. -/
theorem test_release : (after .release coded).map (fun t => (t.root, t.nalloc, t.status0)) =
    some (NIL, 0, 0x0001FF08) := by decide +kernel
/-- R2 row 21: RELEASE in a decode frame. -/
theorem test_release_in_frame : (after .release (decoding coded 4)).map (fun t => (t.root, t.mode, t.cur, t.err)) =
    some (4, .idle, NIL, 7) := by decide +kernel
/-- B2 rows 15 to 17, as the table's contents. -/
theorem test_gen_aaabbc : (after .gen built).map (fun t => (t.code 0x61, t.code 0x62, t.code 0x63, t.code 0x64)) =
    some ([false], [true, true], [true, false], []) := by decide +kernel
/-- P2 row 6: a single leaf has the code "0". -/
theorem test_gen_single : (after .gen single).map (fun t => t.code 0x61) = some [false] := by decide +kernel
/-- B2 row 17. -/
theorem test_rdcode : reply (.rdcode 0x63) coded =
    some [0x0300000002#40, 0x0300000001#40, 0x0300000000#40, 0x0000000000#40] := by decide +kernel
/-- B2 row 18. -/
theorem test_rdcode_no_entry : reply (.rdcode 0x64) coded = some [0x0300000000#40, 0x0000000000#40] := by decide +kernel
/-- E1 row 7. -/
theorem test_ebegin : (after .ebegin coded).map (·.mode) = some .encode := by decide +kernel
/-- E2 row 14. -/
theorem test_ebegin_nested : (after .ebegin (encoding coded)).map (fun t => (t.mode, t.err)) =
    some (.idle, 7) := by decide +kernel
/-- E1 row 10. -/
theorem test_enc : reply (.enc 0x62) (encoding coded) =
    some [0x0100000001#40, 0x0100000001#40, 0x0000000000#40] := by decide +kernel
/-- E2 row 7. -/
theorem test_enc_unknown : (after (.enc 0x64) (encoding coded)).map (fun t => (t.out, t.mode, t.err)) =
    some ([.st 3], .idle, 3) := by decide +kernel
/-- E1 row 14. -/
theorem test_eend : (after .eend (encoding coded)).map (fun t => (t.mode, t.out)) = some (.idle, [.st 0]) := by decide +kernel
/-- D2 row 5. -/
theorem test_dbegin : (after .dbegin built).map (fun t => (t.mode, t.cur)) = some (.decode, 4) := by decide +kernel
/-- D1 row 0. -/
theorem test_dbegin_no_tree : (after .dbegin State.reset).map (fun t => (t.mode, t.cur, t.out)) =
    some (.idle, NIL, [.st 4]) := by decide +kernel
/-- D2 row 10. -/
theorem test_dec_to_leaf : (after (.dec 0) (decoding built 3)).map (fun t => (t.cur, t.out)) =
    some (4, [.sym 0x63, .st 0]) := by decide +kernel
/-- D4 row 8. -/
theorem test_dec_one_at_leaf_root : (after (.dec 1) (decoding single 0)).map (fun t => (t.mode, t.cur, t.out)) =
    some (.idle, NIL, [.st 4]) := by decide +kernel
/-- D2 row 13. -/
theorem test_dend : (after .dend (decoding built 4)).map (fun t => (t.mode, t.cur, t.out)) =
    some (.idle, NIL, [.st 0]) := by decide +kernel
/-- D2 row 19. -/
theorem test_dend_truncated : (after .dend (decoding built 3)).map (fun t => (t.mode, t.cur, t.out)) =
    some (.idle, NIL, [.st 4]) := by decide +kernel

/-! ### The port -/

/-- D3 row 17: a reserved form of DEC aborts the frame with `ST(7)`. -/
theorem test_reserved_in_frame :
    (afterEvent (.cmd 0x510000000001#48) (decoding built 4)).map (fun t => (t.mode, t.cur, t.err, t.out)) =
      some (.idle, NIL, 7, [.st 7]) := by decide +kernel
/-- 60_exceptions.md R216: `DEC 2` in mode IDLE is `IllegalCommand`. -/
theorem test_order_of_checks :
    (afterEvent (.cmd 0x510200000000#48) built).map (·.out) = some [.st 7] := by decide +kernel
/-- 70_reset_and_hazards.md R240: reset leaves FATAL. -/
theorem test_rst : (afterEvent .rst dead).map (fun t => (t.mode, t.err, t.status0)) =
    some (.idle, 0, 0x0001FF00) := by decide +kernel
/-- R240: RDCODE 'b' cut after two of its four tokens. -/
theorem test_cut : (afterEvent (.cut 0x316200000000#48 2) coded).map (fun t => (t.out, t.root, readTable t.clen 0x62)) =
    some ([.data 2, .data 1], NIL, 0) := by decide +kernel
/-- A word placed for the fetch is what the next step runs. -/
theorem test_fetch : (match step (State.reset.withFetchWord 48 0x126200000005) with
    | .next t => some (readTable t.freq 0x62)
    | .fault _ => none
    | .refused _ => none) = some 5 := by decide +kernel

/-! ### States that meet the premises of the statements -/

/-- The nodes of "aaabbc", handle by handle. -/
theorem tree_nodes (s : State) (hn : s.nalloc = 5) (hm : s.node = tree) (h : Handle) (nd : Node) :
    s.nodeAt h = some nd ↔
      (h = 0 ∧ nd = ⟨.leaf, 0x61, NIL, NIL, 3⟩) ∨ (h = 1 ∧ nd = ⟨.leaf, 0x62, NIL, NIL, 2⟩) ∨
      (h = 2 ∧ nd = ⟨.leaf, 0x63, NIL, NIL, 1⟩) ∨ (h = 3 ∧ nd = ⟨.internal, 0, 2, 1, 3⟩) ∨
      (h = 4 ∧ nd = ⟨.internal, 0, 0, 3, 6⟩) := by
  have e : s.nodeAt h = built.nodeAt h := by
    unfold State.nodeAt; rw [hn, hm]; rfl
  rw [e]
  have hc : ∀ h : Handle, h = 0 ∨ h = 1 ∨ h = 2 ∨ h = 3 ∨ h = 4 ∨ built.nodeAt h = none := by decide +kernel
  have h0 : built.nodeAt 0 = some ⟨.leaf, 0x61, NIL, NIL, 3⟩ := by decide +kernel
  have h1 : built.nodeAt 1 = some ⟨.leaf, 0x62, NIL, NIL, 2⟩ := by decide +kernel
  have h2 : built.nodeAt 2 = some ⟨.leaf, 0x63, NIL, NIL, 1⟩ := by decide +kernel
  have h3 : built.nodeAt 3 = some ⟨.internal, 0, 2, 1, 3⟩ := by decide +kernel
  have h4 : built.nodeAt 4 = some ⟨.internal, 0, 0, 3, 6⟩ := by decide +kernel
  rcases hc h with rfl | rfl | rfl | rfl | rfl | hx
  · rw [h0]; simp [eq_comm]
  · rw [h1]; simp [eq_comm]
  · rw [h2]; simp [eq_comm]
  · rw [h3]; simp [eq_comm]
  · rw [h4]; simp [eq_comm]
  · rw [hx]
    constructor
    · intro hc; cases hc
    · rintro (⟨rfl, _⟩ | ⟨rfl, _⟩ | ⟨rfl, _⟩ | ⟨rfl, _⟩ | ⟨rfl, _⟩) <;> simp_all

theorem handle_lt_3 : ∀ h : Handle, h.toNat < 3 → h = 0 ∨ h = 1 ∨ h = 2 := by decide +kernel
theorem handle_3_4 : ∀ h : Handle, 3 ≤ h.toNat → h.toNat < 5 → h = 3 ∨ h = 4 := by decide +kernel
theorem handle_lt_5 : ∀ h : Handle, h.toNat < 5 → h ≠ 4 → h = 0 ∨ h = 1 ∨ h = 2 ∨ h = 3 := by decide +kernel

/-- The tree of "aaabbc" is a well-formed tree with three leaves. -/
theorem tree_present (s : State) (hn : s.nalloc = 5) (hr : s.root = 4) (hm : s.node = tree) : TreePresent s 3 := by
  have N := tree_nodes s hn hm
  have isC : ∀ p b h, isChild s p b h ↔ (p = 3 ∧ (if b = LEFT_BIT then h = 2 else h = 1)) ∨
      (p = 4 ∧ (if b = LEFT_BIT then h = 0 else h = 3)) := by
    intro p b h
    unfold isChild
    simp only [N]
    constructor
    · rintro ⟨nd, (⟨rfl, rfl⟩ | ⟨rfl, rfl⟩ | ⟨rfl, rfl⟩ | ⟨rfl, rfl⟩ | ⟨rfl, rfl⟩), hk, hc⟩ <;>
        cases b <;> simp_all [Node.child]
    · rintro (⟨rfl, hc⟩ | ⟨rfl, hc⟩)
      · exact ⟨_, .inr (.inr (.inr (.inl ⟨rfl, rfl⟩))), rfl, by cases b <;> simp_all [Node.child]⟩
      · exact ⟨_, .inr (.inr (.inr (.inr ⟨rfl, rfl⟩))), rfl, by cases b <;> simp_all [Node.child]⟩
  refine ⟨by decide, by rw [hn]; rfl, by rw [hr, hn]; rfl, ?_, ?_, ?_, ?_, ?_, ?_⟩
  · intro h hlt
    rcases handle_lt_3 h hlt with rfl | rfl | rfl
    · exact ⟨_, (N _ _).mpr (.inl ⟨rfl, rfl⟩), rfl, rfl, rfl⟩
    · exact ⟨_, (N _ _).mpr (.inr (.inl ⟨rfl, rfl⟩)), rfl, rfl, rfl⟩
    · exact ⟨_, (N _ _).mpr (.inr (.inr (.inl ⟨rfl, rfl⟩))), rfl, rfl, rfl⟩
  · intro h h' nd nd' hlt hlt' hx hx'
    rw [N] at hx hx'
    rcases hx with ⟨rfl, rfl⟩ | ⟨rfl, rfl⟩ | ⟨rfl, rfl⟩ | ⟨rfl, rfl⟩ | ⟨rfl, rfl⟩ <;>
      rcases hx' with ⟨rfl, rfl⟩ | ⟨rfl, rfl⟩ | ⟨rfl, rfl⟩ | ⟨rfl, rfl⟩ | ⟨rfl, rfl⟩ <;> simp_all
  · intro p hlo hhi
    rcases handle_3_4 p hlo (by rw [hn] at hhi; exact hhi) with rfl | rfl
    · exact ⟨_, (N _ _).mpr (.inr (.inr (.inr (.inl ⟨rfl, rfl⟩)))), rfl, rfl, by decide, by decide, by decide⟩
    · exact ⟨_, (N _ _).mpr (.inr (.inr (.inr (.inr ⟨rfl, rfl⟩)))), rfl, rfl, by decide, by decide, by decide⟩
  · intro h hlt hne
    rcases handle_lt_5 h (by rw [hn] at hlt; exact hlt) (by rw [hr] at hne; exact hne) with rfl | rfl | rfl | rfl
    · exact ⟨4, false, (isC _ _ _).mpr (by simp), fun p b hp => by rw [isC] at hp; cases b <;> simp_all⟩
    · exact ⟨3, true, (isC _ _ _).mpr (by simp), fun p b hp => by rw [isC] at hp; cases b <;> simp_all⟩
    · exact ⟨3, false, (isC _ _ _).mpr (by simp), fun p b hp => by rw [isC] at hp; cases b <;> simp_all⟩
    · exact ⟨4, true, (isC _ _ _).mpr (by simp), fun p b hp => by rw [isC] at hp; cases b <;> simp_all⟩
  · intro p nd hx hk
    rw [N] at hx
    rcases hx with ⟨rfl, rfl⟩ | ⟨rfl, rfl⟩ | ⟨rfl, rfl⟩ | ⟨rfl, rfl⟩ | ⟨rfl, rfl⟩
    · cases hk
    · cases hk
    · cases hk
    · exact ⟨_, _, (N _ _).mpr (.inr (.inr (.inl ⟨rfl, rfl⟩))), (N _ _).mpr (.inr (.inl ⟨rfl, rfl⟩)), rfl⟩
    · exact ⟨_, _, (N _ _).mpr (.inl ⟨rfl, rfl⟩), (N _ _).mpr (.inr (.inr (.inr (.inl ⟨rfl, rfl⟩)))), rfl⟩
  · intro h nd hx
    rw [N] at hx
    rcases hx with ⟨rfl, rfl⟩ | ⟨rfl, rfl⟩ | ⟨rfl, rfl⟩ | ⟨rfl, rfl⟩ | ⟨rfl, rfl⟩ <;> decide

/-- The one-node tree of "aaaa" is a well-formed tree with one leaf. -/
theorem single_present : TreePresent single 1 := by
  have hc : ∀ h : Handle, h = 0 ∨ single.nodeAt h = none := by decide +kernel
  have h0 : single.nodeAt 0 = some ⟨.leaf, 0x61, NIL, NIL, 4⟩ := by decide +kernel
  have N : ∀ h nd, single.nodeAt h = some nd → h = 0 ∧ nd = ⟨.leaf, 0x61, NIL, NIL, 4⟩ := by
    intro h nd hx
    rcases hc h with rfl | hn
    · rw [h0] at hx; exact ⟨rfl, by simpa using hx.symm⟩
    · rw [hn] at hx; cases hx
  have z : ∀ h : Handle, h.toNat < 1 → h = 0 := by decide +kernel
  refine ⟨by decide, rfl, rfl, ?_, ?_, ?_, ?_, ?_, ?_⟩
  · intro h hlt; cases z h hlt; exact ⟨_, h0, rfl, rfl, rfl⟩
  · intro h h' nd nd' hlt hlt' hx hx'; omega
  · intro p hlo hhi; have : single.nalloc.toNat = 1 := rfl; omega
  · intro h hlt hne; exact absurd (z h hlt) hne
  · intro p nd hx hk; obtain ⟨rfl, rfl⟩ := N _ _ hx; cases hk
  · intro h nd hx; obtain ⟨rfl, rfl⟩ := N _ _ hx; decide

/-- The table of "aaabbc" is the table of its tree. -/
theorem coded_table : TableOf coded coded := by
  have N := tree_nodes coded rfl rfl
  have hc : ∀ x : Symbol, x = 0x61 ∨ x = 0x62 ∨ x = 0x63 ∨ readTable coded.clen x = 0 := by decide +kernel
  have f1 : follow coded coded.root [false] = some 0 := by decide +kernel
  have f2 : follow coded coded.root [true, true] = some 1 := by decide +kernel
  have f3 : follow coded coded.root [true, false] = some 2 := by decide +kernel
  have c1 : coded.code 0x61 = [false] := by decide +kernel
  have c2 : coded.code 0x62 = [true, true] := by decide +kernel
  have c3 : coded.code 0x63 = [true, false] := by decide +kernel
  refine ⟨?_, ?_, ?_⟩
  · intro x hx
    rcases hc x with rfl | rfl | rfl | h
    · exact ⟨0, _, (N _ _).mpr (.inl ⟨rfl, rfl⟩), rfl, rfl, by rw [if_neg (by decide), c1]; exact f1⟩
    · exact ⟨1, _, (N _ _).mpr (.inr (.inl ⟨rfl, rfl⟩)), rfl, rfl, by rw [if_neg (by decide), c2]; exact f2⟩
    · exact ⟨2, _, (N _ _).mpr (.inr (.inr (.inl ⟨rfl, rfl⟩))), rfl, rfl, by rw [if_neg (by decide), c3]; exact f3⟩
    · exact absurd h hx
  · intro h nd hx hk
    rw [N] at hx
    rcases hx with ⟨rfl, rfl⟩ | ⟨rfl, rfl⟩ | ⟨rfl, rfl⟩ | ⟨rfl, rfl⟩ | ⟨rfl, rfl⟩
    · decide +kernel
    · decide +kernel
    · decide +kernel
    · cases hk
    · cases hk
  · have hb : ∀ x : Symbol, x = 0x62 ∨ x = 0x63 ∨ readTable coded.cbits x = 0 := by decide +kernel
    have b2 : ∀ i : Fin 255, 2 ≤ i.val → (readTable coded.cbits 0x62).getLsbD i.val = false := by decide +kernel
    have b3 : ∀ i : Fin 255, 2 ≤ i.val → (readTable coded.cbits 0x63).getLsbD i.val = false := by decide +kernel
    intro x i hi
    by_cases hlt : i < 255
    · rcases hb x with rfl | rfl | h
      · exact b2 ⟨i, hlt⟩ hi
      · exact b3 ⟨i, hlt⟩ hi
      · rw [h]; exact BitVec.getLsbD_zero
    · exact BitVec.getLsbD_of_ge _ _ (by omega)

/-- Safe states: counted and no tree; tree and table present; a decode frame inside the tree. -/
theorem counted_safe : SafeState counted :=
  ⟨⟨by decide, by decide, rfl, fun _ => rfl, fun h => (by cases h), by decide, by decide⟩,
   .inl ⟨rfl, rfl⟩, rfl, .inl fun x => (by simp [counted, State.reset])⟩
theorem coded_safe : SafeState coded :=
  ⟨⟨by decide, by decide, rfl, fun _ => rfl, fun h => (by cases h), by decide, by decide⟩,
   .inr ⟨3, tree_present coded rfl rfl rfl⟩, rfl, .inr ⟨coded, 3, tree_present coded rfl rfl rfl, coded_table⟩⟩
theorem decoding_safe : SafeState (decoding coded 3) :=
  ⟨⟨by decide, by decide, rfl, fun h => absurd rfl h, fun h => (by cases h), by decide, by decide⟩,
   .inr ⟨3, tree_present _ rfl rfl rfl⟩,
   ⟨by decide, .inr ⟨_, (tree_nodes (decoding coded 3) rfl rfl _ _).mpr (.inr (.inr (.inr (.inl ⟨rfl, rfl⟩)))), rfl⟩⟩,
   .inr ⟨coded, 3, tree_present coded rfl rfl rfl, ⟨coded_table.codes, coded_table.leaves, coded_table.unused⟩⟩⟩
/-- A command answers a next state with some property. -/
theorem next_of_after {i : Instr} {s : State} {p : State → Bool} (h : (after i s).any p = true) :
    ∃ t, exec i s = .next t ∧ p t = true := by
  unfold after at h
  split at h
  · exact ⟨_, by assumption, by simpa using h⟩
  · cases h
  · cases h

/-! ### Witnesses: for each statement with premises, a state and operands that meet them, clause by clause -/

theorem witness_DecodingIsTheOpcodeMap :
    decode 0x2100000001FF#48 = .ok (.rdnode 511) ∧
    (∃ r ∈ opcodeTable, r.selects 0x2100000001FF#48 = true) ∧
    (∀ r ∈ opcodeTable, r.selects 0x210000000200#48 = false) ∧ decode 0x210000000200#48 = .error (.field 0x21) := by
  decide
theorem witness_AssemblerPlacesOperands :
    (Asm.ldf 255 4294967295).assemble = some [0x12FFFFFFFFFF#48] ∧ (Asm.rdnode 511).assemble = some [0x2100000001FF#48] ∧
    (Asm.dec 255).assemble = some [0x51FF00000000#48] ∧ (Asm.ldf 256 0).assemble = none ∧
    (Asm.ldf 0 4294967296).assemble = none ∧ (Asm.rdnode 512).assemble = none ∧ (Asm.dec 256).assemble = none := by
  decide
theorem witness_AssemblerPlacesOperands_bytes :
    (Asm.count 255).assemble = some [0x11FF00000000#48] ∧ (Asm.rdfreq 255).assemble = some [0x13FF00000000#48] ∧
    (Asm.rdcode 255).assemble = some [0x31FF00000000#48] ∧ (Asm.enc 255).assemble = some [0x41FF00000000#48] ∧
    (Asm.count 256).assemble = none ∧ (Asm.rdfreq 256).assemble = none ∧ (Asm.rdcode 256).assemble = none ∧
    (Asm.enc 256).assemble = none := by decide
/-- The greatest element that fits, the least that does not, and the empty list. -/
theorem witness_AssemblerPlacesOperands_lists :
    (Asm.counts [255, 0]).assemble = some [0x11FF00000000#48, 0x110000000000#48] ∧
    (Asm.encs [0, 255]).assemble = some [0x410000000000#48, 0x41FF00000000#48] ∧
    (Asm.compress []).assemble =
      some [0x100000000000#48, 0x200000000000#48, 0x300000000000#48, 0x400000000000#48, 0x420000000000#48] ∧
    (Asm.decs [1, 0]).assemble = some [0x510100000000#48, 0x510000000000#48] ∧
    (Asm.decompress []).assemble = some [0x500000000000#48, 0x520000000000#48] ∧
    (Asm.ldft [(255, 4294967295)]).assemble = some [0x100000000000#48, 0x12FFFFFFFFFF#48] ∧
    (Asm.counts [0, 256]).assemble = none ∧ (Asm.encs [256]).assemble = none ∧ (Asm.compress [256, 0]).assemble = none ∧
    (Asm.decs [0, 2]).assemble = none ∧ (Asm.decompress [2]).assemble = none ∧ (Asm.ldft [(256, 0)]).assemble = none ∧
    (Asm.ldft [(0, 0), (0, 4294967296)]).assemble = none := by decide +kernel
theorem witness_StepRunsTheDecodedCommand :
    (State.reset.withFetchWord 48 0x116100000000).pending = .cmd 0x116100000000#48 :: [] ∧
      decode 0x116100000000#48 = .ok (.count 0x61) := ⟨rfl, by decide⟩
theorem witness_ReservedWordIsIllegal :
    ({ decoding coded 3 with pending := [.cmd 0xFF0000000000#48] } : State).pending = .cmd 0xFF0000000000#48 :: [] ∧
      ∀ r ∈ opcodeTable, r.selects 0xFF0000000000#48 = false := ⟨rfl, by decide⟩
theorem witness_BlockWaitsForTheHost : coded.pending = [] := rfl
theorem witness_ResetEventRestoresResetValues :
    ({ dead with pending := [.rst, .cmd 0] } : State).pending = .rst :: [.cmd 0] := rfl
/-- RDCODE 'b' has three tokens before its status token: the cut falls before, inside and behind them. -/
theorem witness_ResetCutsACommand : ∀ k ∈ [0, 2, 3, 9],
    ({ coded with pending := [.cut 0x316200000000#48 k] } : State).pending = .cut 0x316200000000#48 k :: [] ∧
      ∃ u, exec (.rdcode 0x62) coded = .next u ∧ decode 0x316200000000#48 = .ok (.rdcode 0x62) := by
  intro k _
  obtain ⟨u, hu, _⟩ := next_of_after (i := .rdcode 0x62) (s := coded) (p := fun _ => true) (by decide +kernel)
  exact ⟨rfl, u, hu, by decide⟩
theorem witness_StepsUseUpTheHostsEvents :
    (runEvents [.cmd 0x116100000000#48, .rst, .cut 0x316200000000#48 1] counted).isSome = true := by decide +kernel

theorem witness_NopDoesNothing : (decoding coded 3).mode ≠ .fatal ∧ dead.mode = .fatal := by decide
theorem witness_NopDoesNothing_word : decode 0x000000000000#48 = .ok .nop := by decide
theorem witness_ClrerrClearsErr : State.reset.mode = .idle ∧ (encoding coded).mode ≠ .idle := by decide
theorem witness_FclrClearsEveryCounter : counted.mode = .idle ∧ dead.mode ≠ .idle := by decide
/-- One below the top, and at the top. -/
theorem witness_CountAddsOne :
    (readTable ({ State.reset with freq := writeTable State.reset.freq 0xFF 0xFFFFFFFE } : State).freq 0xFF).toNat <
        2 ^ 32 - 1 ∧
      (readTable ({ State.reset with freq := writeTable State.reset.freq 0xFF 0xFFFFFFFF } : State).freq 0xFF).toNat =
        2 ^ 32 - 1 ∧ (encoding coded).mode ≠ .idle := by decide +kernel
theorem witness_LdfLoadsOneCounter : counted.mode = .idle ∧ (decoding coded 4).mode ≠ .idle := by decide
theorem witness_RdfreqReadsOneCounter : (encoding coded).mode ≠ .fatal ∧ dead.mode = .fatal := by decide
theorem witness_CountsAreOccurrences :
    State.reset.mode = .idle ∧ (∀ x, readTable State.reset.freq x = 0) ∧ [0x61#8, 0xFF#8, 0x61#8].length ≤ 2 ^ 32 - 1 ∧
      ((runEvents (asEvents ([0x61#8, 0xFF#8, 0x61#8].map .count)) State.reset).any fun r =>
        r.1.all (·.accepted)) = true :=
  ⟨rfl, fun x => by simp [State.reset], by decide, by decide +kernel⟩

theorem witness_PqExtractMinTakesTheLeastKey :
    (∀ h ∈ ({ built with q := [0, 1, 2] } : State).q, ∃ n, ({ built with q := [0, 1, 2] } : State).nodeAt h = some n) ∧
      ({ built with q := [0, 1, 2] } : State).q ≠ [] ∧ built.q = [] := by
  have N := tree_nodes { built with q := [0, 1, 2] } rfl rfl
  refine ⟨fun h hh => ?_, by decide, rfl⟩
  have hh : h ∈ [(0 : Handle), 1, 2] := hh
  simp only [List.mem_cons, List.not_mem_nil, or_false] at hh
  rcases hh with rfl | rfl | rfl
  · exact ⟨_, (N _ _).mpr (.inl ⟨rfl, rfl⟩)⟩
  · exact ⟨_, (N _ _).mpr (.inr (.inl ⟨rfl, rfl⟩))⟩
  · exact ⟨_, (N _ _).mpr (.inr (.inr (.inl ⟨rfl, rfl⟩)))⟩
/-- The last free entry, and a full arena. -/
theorem witness_AllocGivesTheNextHandle :
    ({ State.reset with nalloc := 510 } : State).nalloc.toNat < State.reset.config.arenaSize ∧
      State.reset.config.arenaSize ≤ ({ State.reset with nalloc := 511 } : State).nalloc.toNat := by decide

/-- An arena of 5 entries, which the tree of "aaabbc" fills, and one of 4. -/
def small (n : Nat) (h : 1 ≤ n ∧ n ≤ 511) : State := { counted with config := ⟨n, h.1, h.2⟩ }
theorem counted_distinct : counted.distinct = 3 := by decide +kernel
theorem witness_BuildRefusesATreeThenAnEmptyTable :
    (built.mode = .idle ∧ built.root ≠ NIL) ∧
      (State.reset.mode = .idle ∧ State.reset.root = NIL ∧ State.reset.distinct = 0) ∧ (encoding coded).mode ≠ .idle := by
  decide +kernel
theorem witness_BuildNeedsTwoNMinusOneNodes :
    counted.mode = .idle ∧ TreeAbsent counted ∧ counted.q = [] ∧ 1 ≤ counted.distinct ∧
      2 * counted.distinct - 1 ≤ (small 5 (by decide)).config.arenaSize ∧
      (small 4 (by decide)).config.arenaSize < 2 * counted.distinct - 1 := by
  rw [counted_distinct]; exact ⟨rfl, ⟨rfl, rfl⟩, rfl, by decide, by decide, by decide⟩
theorem witness_BuildMakesTheTree :
    counted.mode = .idle ∧ TreeAbsent counted ∧ counted.q = [] ∧ 1 ≤ counted.distinct ∧
      2 * counted.distinct - 1 ≤ counted.config.arenaSize := by
  rw [counted_distinct]; exact ⟨rfl, ⟨rfl, rfl⟩, rfl, by decide, by decide⟩
theorem witness_BuildMergesTheTwoLeast :
    counted.mode = .idle ∧ TreeAbsent counted ∧ counted.q = [] ∧
      ∃ t, exec .build counted = .next t ∧ t.out = counted.out ++ [.st 0] := by
  obtain ⟨t, ht, hp⟩ := next_of_after (i := .build) (s := counted)
    (p := fun t => decide (t.out = counted.out ++ [.st 0])) (by decide +kernel)
  exact ⟨rfl, ⟨rfl, rfl⟩, rfl, t, ht, by simpa using hp⟩
/-- Two blocks with the same counters, the one with stale nodes, an error on record and a table. -/
theorem witness_TreeIsAFunctionOfFreq :
    ∃ s : State, s ≠ counted ∧ s.mode = .idle ∧ counted.mode = .idle ∧ TreeAbsent s ∧ TreeAbsent counted ∧ s.q = [] ∧
      counted.q = [] ∧ s.config = counted.config ∧ s.freq = counted.freq ∧ (∃ t, exec .build s = .next t) ∧
      ∃ t, exec .build counted = .next t := by
  refine ⟨{ counted with node := tree, err := 4, clen := coded.clen }, by decide, rfl, rfl, ⟨rfl, rfl⟩, ⟨rfl, rfl⟩, rfl,
    rfl, rfl, rfl, ?_, ?_⟩
  · obtain ⟨t, ht, _⟩ := next_of_after (i := .build) (s := { counted with node := tree, err := 4, clen := coded.clen })
      (p := fun _ => true) (by decide +kernel)
    exact ⟨t, ht⟩
  · obtain ⟨t, ht, _⟩ := next_of_after (i := .build) (s := counted) (p := fun _ => true) (by decide +kernel)
    exact ⟨t, ht⟩
/-- The longest path of the tree of "aaabbc". -/
theorem witness_PathsAreShorterThanLeaves :
    TreePresent built 3 ∧ follow built built.root [true, true] = some 1 :=
  ⟨tree_present _ rfl rfl rfl, by decide +kernel⟩
theorem witness_RdnodeReadsANode :
    (built.mode ≠ .fatal ∧ built.nodeAt 4 = some ⟨.internal, 0, 0, 3, 6⟩) ∧ built.nalloc.toNat ≤ (5 : Handle).toNat ∧
      built.nalloc.toNat ≤ (511 : Handle).toNat ∧ dead.mode = .fatal := by decide +kernel
theorem witness_ReleaseDiscardsTheTree :
    (built.mode = .idle ∧ built.root ≠ NIL) ∧ (counted.mode = .idle ∧ counted.root = NIL) ∧
      (decoding built 4).mode ≠ .idle := by decide

theorem witness_GenWithoutTreeEmptiesTheTable : counted.mode = .idle ∧ counted.root = NIL := ⟨rfl, rfl⟩
theorem witness_GenAssignsThePaths :
    (built.mode = .idle ∧ TreePresent built 3) ∧ single.mode = .idle ∧ TreePresent single 1 :=
  ⟨⟨rfl, tree_present _ rfl rfl rfl⟩, rfl, single_present⟩
theorem witness_CodesArePrefixFree :
    TreePresent coded 3 ∧ TableOf coded coded ∧ (0x62 : Symbol) ≠ 0x63 ∧ readTable coded.clen 0x62 ≠ 0 ∧
      readTable coded.clen 0x63 ≠ 0 :=
  ⟨tree_present _ rfl rfl rfl, coded_table, by decide, by decide +kernel, by decide +kernel⟩
theorem witness_HigherCountsHaveNoLongerCodes :
    counted.mode = .idle ∧ TreeAbsent counted ∧ counted.q = [] ∧ 2 * counted.distinct - 1 ≤ counted.config.arenaSize ∧
      (∃ t, exec .build counted = .next t ∧ (after .gen t).isSome = true) ∧
      (readTable counted.freq 0x63).toNat < (readTable counted.freq 0x61).toNat ∧
      0 < (readTable counted.freq 0x63).toNat := by
  refine ⟨rfl, ⟨rfl, rfl⟩, rfl, by rw [counted_distinct]; decide, ?_, by decide +kernel, by decide +kernel⟩
  exact next_of_after (i := .build) (s := counted) (p := fun t => (after .gen t).isSome) (by decide +kernel)
theorem witness_RdcodeReadsACode : (encoding coded).mode ≠ .fatal ∧ dead.mode = .fatal := by decide

theorem witness_EbeginOpensAFrame : coded.mode = .idle ∧ (encoding coded).mode ≠ .idle := by decide
theorem witness_EncEmitsTheCode :
    ((encoding coded).mode = .encode ∧ readTable (encoding coded).clen 0x62 ≠ 0) ∧
      readTable (encoding coded).clen 0x64 = 0 ∧ coded.mode ≠ .encode := by decide +kernel
theorem witness_EendClosesTheFrame : (encoding coded).mode = .encode ∧ coded.mode ≠ .encode := by decide
/-- A frame with every kind of command that R158 permits. -/
theorem witness_StreamIsTheConcatenationOfCodes :
    coded.mode = .idle ∧ (∀ x ∈ [0x61#8, 0x62#8], readTable coded.clen x ≠ 0) ∧
      [Instr.nop, .enc 0x61, .rdstat, .rdfreq 0x61, .rdnode 4, .rdcode 0x62, .enc 0x62, .nop].filter
        (fun i => !readsOnly i) = [0x61#8, 0x62#8].map .enc ∧ (coded.nodeAt 4).isSome = true := by decide +kernel
/-- An encode frame broken by an unknown symbol, by a reset and by a cut command. -/
theorem witness_StreamIsTheConcatenationOfCodes_broken :
    ((runEvents [.cmd 0x400000000000#48, .cmd 0x416100000000#48] coded).any fun r => r.2.mode == .encode &&
      ((runEvents [.cmd 0x416400000000#48] r.2).any fun q => q.1 == [⟨.cmd 0x416400000000#48, [.st 3]⟩]) &&
      ((runEvents [.rst] r.2).any fun q => q.1 == [⟨.rst, []⟩]) &&
      (runEvents [.cut 0x416200000000#48 1] r.2).any fun q =>
        q.1 == [⟨.cut 0x416200000000#48 1, [.bit true]⟩]) = true := by decide +kernel
/-- A decode frame broken by an unrecognized bit and by a DEND inside a code. -/
theorem witness_StreamIsTheConcatenationOfCodes_decode :
    ((runEvents [.cmd 0x500000000000#48, .cmd 0x510100000000#48] coded).any fun r => r.2.mode == .decode &&
      ((runEvents [.cmd 0x510200000000#48] r.2).any fun q => q.1 == [⟨.cmd 0x510200000000#48, [.st 4]⟩]) &&
      (runEvents [.cmd 0x520000000000#48] r.2).any fun q => q.1 == [⟨.cmd 0x520000000000#48, [.st 4]⟩]) = true := by
  decide +kernel

theorem witness_DbeginStartsAtTheRoot :
    (built.mode = .idle ∧ built.root ≠ NIL) ∧ (counted.mode = .idle ∧ counted.root = NIL) ∧
      (encoding built).mode ≠ .idle := by decide
/-- From the root to a leaf and to an Internal node, at a Leaf root, and the least and the greatest unrecognized
values. -/
theorem witness_DecWalksTheTree :
    ((decoding built 4).mode = .decode ∧ (decoding built 4).nodeAt 4 = some ⟨.internal, 0, 0, 3, 6⟩ ∧
      (decoding built 4).nodeAt 0 = some ⟨.leaf, 0x61, NIL, NIL, 3⟩ ∧
      (decoding built 4).nodeAt 3 = some ⟨.internal, 0, 2, 1, 3⟩) ∧
    ((decoding single 0).mode = .decode ∧ (decoding single 0).nodeAt 0 = some ⟨.leaf, 0x61, NIL, NIL, 4⟩) ∧
    2 ≤ (2 : BitVec 8).toNat ∧ 2 ≤ (255 : BitVec 8).toNat ∧ built.mode ≠ .decode := by decide +kernel
theorem witness_DendTestsTheCursor :
    ((decoding built 4).mode = .decode ∧ (decoding built 4).cur = (decoding built 4).root) ∧
      (decoding built 3).cur ≠ (decoding built 3).root ∧ built.mode ≠ .decode := by decide
theorem witness_EveryBitParsesInALargeTree :
    SafeState (decoding coded 3) ∧ (decoding coded 3).mode = .decode ∧ TreePresent (decoding coded 3) 3 ∧ 2 ≤ 3 :=
  ⟨decoding_safe, rfl, tree_present _ rfl rfl rfl, by decide⟩
theorem witness_DecoderMirrorsTheTable :
    coded.mode = .idle ∧ coded.cur = NIL ∧ TreePresent coded 3 ∧ TableOf coded coded ∧
      ∀ x ∈ [0x63#8, 0x61#8, 0x62#8], readTable coded.clen x ≠ 0 :=
  ⟨rfl, rfl, tree_present _ rfl rfl rfl, coded_table, by decide +kernel⟩
theorem witness_RoundTrip :
    SafeState counted ∧ counted.mode = .idle ∧ counted.root = NIL ∧ counted.err = 0 ∧ [0x61#8, 0x62#8, 0x61#8] ≠ [] ∧
      [0x61#8, 0x62#8, 0x61#8].length ≤ 2 ^ 32 - 1 ∧
      2 * [0x61#8, 0x62#8, 0x61#8].dedup.length - 1 ≤ counted.config.arenaSize :=
  ⟨counted_safe, rfl, rfl, rfl, by decide, by decide, by decide⟩
theorem witness_RoundTripAfterReload :
    SafeState counted ∧ counted.mode = .idle ∧ counted.root = NIL ∧ counted.err = 0 ∧ [0x61#8, 0x61#8] ≠ [] ∧
      [0x61#8, 0x61#8].length ≤ 2 ^ 32 - 1 ∧ 2 * [0x61#8, 0x61#8].dedup.length - 1 ≤ counted.config.arenaSize :=
  ⟨counted_safe, rfl, rfl, rfl, by decide, by decide, by decide⟩

/-- A command that succeeds and one that raises each of the errors a state can show. -/
theorem witness_CommandsRaiseOnlyTheirErrors :
    (after .nop coded).isSome = true ∧ (after .build coded).isSome = true ∧ (after .build State.reset).isSome = true ∧
      (after (.enc 0x64) (encoding coded)).isSome = true ∧ (after .dbegin State.reset).isSome = true := by decide +kernel
theorem witness_RaiseRecordsAbortsAndAnswers :
    (∃ t, exec .gen built = .next t) ∧ dead.mode = .fatal ∧ (encoding coded).mode ≠ .fatal ∧
      (encoding coded).mode = .encode ∧ (decoding coded 3).mode = .decode ∧ coded.mode = .idle := by
  obtain ⟨t, ht, _⟩ := next_of_after (i := .gen) (s := built) (p := fun _ => true) (by decide +kernel)
  exact ⟨⟨t, ht⟩, rfl, by decide, rfl, rfl, rfl⟩
theorem witness_WrongModeIsIllegal :
    permits (.enc 0x61) coded.mode = false ∧
      (permits .build built.mode = true ∧ (after .build built).any (fun t => t.out == [.st 7]) = true) ∧
      permits (.rdnode 5) built.mode = true ∧ (after (.rdnode 5) built).any (fun t => t.out == [.st 7]) = true := by
  decide +kernel
theorem witness_ModeTransitions :
    (∃ t, exec .ebegin coded = .next t) ∧ (∃ t, exec .eend (encoding coded) = .next t) ∧
      (∃ t, exec .dend (decoding coded 4) = .next t) ∧ (∃ t, exec .nop dead = .next t) ∧
      ({ dead with pending := [.rst] } : State).pending = .rst :: [] :=
  ⟨⟨_, rfl⟩, ⟨_, rfl⟩, ⟨_, rfl⟩, ⟨_, rfl⟩, rfl⟩
theorem witness_FatalRefusesAllButRdstat : dead.mode = .fatal ∧ dead.err ≠ 0 ∧ Instr.clrerr ≠ .rdstat := by decide
theorem witness_ErrKeepsTheFirstError :
    (∃ t, exec .nop dead = .next t) ∧ (∃ t, exec .clrerr State.reset = .next t) ∧ ∃ t, exec .dbegin State.reset = .next t :=
  ⟨⟨_, rfl⟩, ⟨_, rfl⟩, ⟨_, rfl⟩⟩
theorem witness_ResponsesHaveTheirShape :
    (after (.enc 0x62) (encoding coded)).any (fun t => t.out == [.bit true, .bit true, .st 0]) = true ∧
      (after (.dec 0) (decoding coded 3)).any (fun t => t.out == [.sym 0x63, .st 0]) = true := by decide +kernel
theorem witness_ReadsHaveNoSideEffect :
    readsOnly (.rdcode 0x62) = true ∧ ∃ t, exec (.rdcode 0x62) (encoding coded) = .next t ∧
      ((after (.rdcode 0x62) t).isSome && t.out == [.data 2, .data 1, .data 1] ++ [.st 0]) = true :=
  ⟨rfl, next_of_after (p := fun t => (after (.rdcode 0x62) t).isSome && t.out == [.data 2, .data 1, .data 1] ++ [.st 0])
    (by decide +kernel)⟩
theorem witness_UnitsWriteTheirOwnState :
    (unitOf (.dec 0) ≠ .treeBuilder ∧ ∃ t, exec (.dec 1) (decoding coded 4) = .next t ∧ (t.cur != 4#9) = true) ∧
      ((encoding coded).mode = .encode ∧ ∃ t, exec .fclr (encoding coded) = .next t ∧ t.mode ≠ (encoding coded).mode) ∧
      ∃ t, exec .ebegin coded = .next t ∧ t.mode ≠ coded.mode :=
  ⟨⟨by decide, next_of_after (p := fun t => t.cur != 4#9) (by decide +kernel)⟩, ⟨rfl, _, rfl, by decide⟩, _, rfl, by decide⟩
/-- No tree, and the nodes of an old one still listed. -/
theorem witness_UnallocatedNodesNeverShow :
    (∀ h, counted.nodeAt h = ({ counted with node := tree } : State).nodeAt h) ∧ ∃ t, exec .build counted = .next t := by
  obtain ⟨t, ht, _⟩ := next_of_after (i := .build) (s := counted) (p := fun _ => true) (by decide +kernel)
  exact ⟨fun h => by simp [State.nodeAt, counted, State.reset], t, ht⟩

theorem witness_StepKeepsControl :
    ControlInv { coded with pending := [.cmd 0x500000000000#48] } ∧
      ∃ t, step { coded with pending := [.cmd 0x500000000000#48] } = .next t :=
  ⟨⟨coded_safe.control.err, coded_safe.control.nalloc, rfl, coded_safe.control.cursor, coded_safe.control.fatal,
    coded_safe.control.nodeForm, coded_safe.control.nodeRange⟩, _, rfl⟩
theorem witness_StepKeepsSafe : SafeState (decoding coded 3) ∧ ∃ t, step (decoding coded 3) = .next t :=
  ⟨decoding_safe, _, rfl⟩
theorem witness_SafeStatesAlwaysStep : SafeState coded ∧ SafeState (decoding coded 3) ∧ SafeState counted :=
  ⟨coded_safe, decoding_safe, counted_safe⟩

end Sys2Proof.Machine.Tests
end

