-- ==== Sys2Proof/Proofs/Raises.lean ====
section
/-! PROOFS. Which errors a command raises, said once for all commands: the errors of its row (60_exceptions.md R211),
and a fatal one only where BUILD is permitted. -/

namespace Sys2Proof.Machine

/-- Pseudocode that is one `require` and then ends raises the error of that `require`. -/
theorem require_raised {α : Type} {c : Prop} [Decidable c] {e e' : Error} {a : α}
    (h : (require c e >>= fun _ => (pure a : Proc α)) = .error (.raised e')) : e' = e := by
  rcases (proc_bind_eq_error _ _ _).mp h with h | ⟨_, _, h⟩
  · simpa using ((require_eq_error _ _ _).mp h).2
  · cases h

theorem countBody_raised {sym : Symbol} {s : State} {e : Error} (h : countBody sym s = .error (.raised e)) :
    e = .countOverflow :=
  require_raised h

theorem rdnodeBody_raised {k : Handle} {s : State} {e : Error} (h : rdnodeBody k s = .error (.raised e)) :
    e = .illegalCommand := by
  rcases (proc_bind_eq_error _ _ _).mp h with h | ⟨_, _, h⟩
  · simpa using ((require_eq_error _ _ _).mp h).2
  · rcases (proc_bind_eq_error _ _ _).mp h with h | ⟨_, _, h⟩
    · cases ((readNode_eq_error _ _ _).mp h).2
    · cases h

theorem encBody_raised {sym : Symbol} {s : State} {e : Error} (h : encBody sym s = .error (.raised e)) :
    e = .unknownSymbol :=
  require_raised h

theorem dbeginBody_raised {s : State} {e : Error} (h : dbeginBody s = .error (.raised e)) : e = .corruptStream :=
  require_raised h

theorem dendBody_raised {s : State} {e : Error} (h : dendBody s = .error (.raised e)) : e = .corruptStream :=
  require_raised h

theorem moveCursor_raised {b : Bool} {s : State} {e : Error} (h : moveCursor b s = .error (.raised e)) :
    e = .corruptStream := by
  rcases (proc_bind_eq_error _ _ _).mp h with h | ⟨n, _, h⟩
  · cases ((readNode_eq_error _ _ _).mp h).2
  · cases hk : n.kind with
    | leaf => simp only [hk] at h; exact require_raised h
    | internal =>
      simp only [hk] at h
      rcases (proc_bind_eq_error _ _ _).mp h with h | ⟨m, _, h⟩
      · cases ((readNode_eq_error _ _ _).mp h).2
      · cases hm : m.kind <;> simp [hm] at h

theorem decBody_raised {v : BitVec 8} {s : State} {e : Error} (h : decBody v s = .error (.raised e)) :
    e = .corruptStream := by
  unfold decBody at h
  split at h
  · simpa using h.symm
  · exact moveCursor_raised h

/-- The pseudocode of a command raises only the errors of its row (60_exceptions.md R211). -/
theorem bodyOf_raised_mem {i : Instr} {s : State} {e : Error} (h : bodyOf i s = .error (.raised e)) :
    e ∈ errorsOf i := by
  cases i with
  | nop | rdstat | clrerr | fclr | ldf | rdfreq | release | rdcode | ebegin | eend => cases h
  | count => simp [errorsOf, countBody_raised h]
  | build =>
    rcases buildBody_raised h with ⟨_, rfl⟩ | ⟨_, _, rfl⟩ | ⟨_, _, rfl | rfl⟩ <;> simp [errorsOf]
  | rdnode => simp [errorsOf, rdnodeBody_raised h]
  | gen => obtain ⟨f, hf⟩ := genBody_error h; cases hf
  | enc => simp [errorsOf, encBody_raised h]
  | dbegin => simp [errorsOf, dbeginBody_raised h]
  | dec => simp [errorsOf, decBody_raised h]
  | dend => simp [errorsOf, dendBody_raised h]

/-- The mode error stands in the row of every command that some mode does not permit. -/
theorem illegalCommand_mem_errorsOf {i : Instr} {m : Mode} (h : permits i m = false) :
    .illegalCommand ∈ errorsOf i := by
  cases i with
  | rdstat => cases h
  | _ => simp [errorsOf]

/-- Everything a command can do when it answers a next state, with the errors it can raise: its pseudocode ends, or it
raises an error of its row, which is the mode error if the mode does not permit the command. -/
theorem exec_answers_or_raises {i : Instr} {s t : State} (h : exec i s = .next t) :
    (permits i s.mode = true ∧ ∃ s' toks, bodyOf i s = .ok (s', toks) ∧ t = answer toks s') ∨
    ∃ e ∈ errorsOf i, t = raise e s ∧ (permits i s.mode = true ∨ e = .illegalCommand) := by
  rcases exec_next h with h | ⟨hp, e, he, rfl⟩ | ⟨hp, rfl⟩
  · exact .inl h
  · exact .inr ⟨e, bodyOf_raised_mem he, rfl, .inl hp⟩
  · exact .inr ⟨_, illegalCommand_mem_errorsOf hp, rfl, .inr rfl⟩

/-- Only BUILD has fatal errors in its row (60_exceptions.md R210, R211). -/
theorem recoverable_of_ne_build {i : Instr} (hi : i ≠ .build) : ∀ e ∈ errorsOf i, e.fatal = false := by
  cases i with
  | build => exact absurd rfl hi
  | _ => simp [errorsOf, Error.fatal]

end Sys2Proof.Machine
end

