-- ==== Sys2Proof/Proofs/Scope.lean ====
section
/-! PROOFS. 00_scope.md: a step runs the decoded command (R6), and each unit writes only the state it owns (R2). -/

namespace Sys2Proof.Machine

/-! ### A step -/

theorem runWord_of_decode {w : Word} {i : Instr} (h : decode w = .ok i) (s : State) : runWord w s = exec i s := by
  simp only [runWord, h]

/-- Settles O6: the presented word is the event taken, and it runs as the command it decodes to. -/
theorem stepRunsTheDecodedCommand : Obligations.StepRunsTheDecodedCommand := by
  intro s w rest i hp hd
  calc step s = runWord w (takeEvent rest s) := step_event hp
    _ = exec i (takeEvent rest s) := runWord_of_decode hd _

/-! ### What a unit writes when its command's pseudocode ends -/

/-- `t` is `s` but for the state the unit owns (00_scope.md R2). The front end owns `MODE` and `ERR`, and moves the
decoder's cursor when it opens or closes a decode frame. -/
def OwnedOnly : HwUnit → State → State → Prop
  | .treeBuilder, s, t => t = { s with freq := t.freq, q := t.q, node := t.node, nalloc := t.nalloc, root := t.root,
                                       clen := t.clen, cbits := t.cbits }
  | .encoder,     s, t => t = s
  | .decoder,     s, t => t = { s with cur := t.cur }
  | .frontEnd,    s, t => t = { s with mode := t.mode, err := t.err, cur := t.cur }

theorem countBody_ownedOnly {sym : Symbol} {s t : State} {toks : List Token} (h : countBody sym s = .ok (t, toks)) :
    OwnedOnly .treeBuilder s t := by
  obtain ⟨_, _, rfl⟩ := countBody_ok.mp h
  rfl

theorem buildBody_ownedOnly {s t : State} {toks : List Token} (h : buildBody s = .ok (t, toks)) :
    OwnedOnly .treeBuilder s t := by
  obtain ⟨_, _, ht, _⟩ := buildBody_ok h
  unfold OwnedOnly
  rw [ht]

theorem genBody_ownedOnly {s t : State} {toks : List Token} (h : genBody s = .ok (t, toks)) :
    OwnedOnly .treeBuilder s t := by
  obtain ⟨_, ht⟩ := genBody_ok h
  unfold OwnedOnly
  rw [ht]

theorem releaseTree_ownedOnly (s : State) : OwnedOnly .treeBuilder s (releaseTree s) := by
  unfold releaseTree
  split <;> rfl

theorem decBody_ownedOnly {v : BitVec 8} {s t : State} {toks : List Token} (h : decBody v s = .ok (t, toks)) :
    OwnedOnly .decoder s t := by
  obtain ⟨_, _, _, _, ⟨_, _, rfl, _⟩ | ⟨_, _, _, ⟨_, rfl, _⟩ | ⟨_, rfl, _⟩⟩⟩ := decBody_ok.mp h <;> rfl

/-- The pseudocode of a command changes only the state of the command's unit. -/
theorem bodyOf_ownedOnly {i : Instr} {s t : State} {toks : List Token} (h : bodyOf i s = .ok (t, toks)) :
    OwnedOnly (unitOf i) s t := by
  cases i with
  | nop | rdstat | clrerr | fclr | ldf | rdfreq | rdcode | ebegin | eend => cases h; rfl
  | count => exact countBody_ownedOnly h
  | build => exact buildBody_ownedOnly h
  | rdnode => obtain ⟨_, _, rfl, _⟩ := rdnodeBody_ok.mp h; rfl
  | release => cases h; exact releaseTree_ownedOnly s
  | gen => exact genBody_ownedOnly h
  | enc => obtain ⟨_, ht, _⟩ := encBody_ok.mp h; exact ht
  | dbegin => obtain ⟨_, _, rfl⟩ := dbeginBody_ok.mp h; rfl
  | dec => exact decBody_ownedOnly h
  | dend => obtain ⟨_, _, rfl⟩ := dendBody_ok.mp h; rfl

/-- A read-out leaves the state as it is (20_memory.md R56). -/
theorem bodyOf_readsOnly {i : Instr} {s t : State} {toks : List Token} (hi : readsOnly i = true)
    (h : bodyOf i s = .ok (t, toks)) : t = s := by
  cases i with
  | nop | rdstat | rdfreq | rdcode => cases h; rfl
  | rdnode => obtain ⟨_, _, ht, _⟩ := rdnodeBody_ok.mp h; exact ht
  | _ => cases hi

/-- In an open frame the tree builder's commands are read-outs (60_exceptions.md R214). -/
theorem readsOnly_of_frame {i : Instr} {m : Mode} (hu : unitOf i = .treeBuilder) (hp : permits i m = true)
    (hm : m = .encode ∨ m = .decode) : readsOnly i = true := by
  cases i with
  | rdfreq | rdnode | rdcode => rfl
  | fclr | count | ldf | build | release | gen => rcases hm with rfl | rfl <;> cases hp
  | _ => cases hu

/-! ### The state of one unit, left alone -/

/-- The tree builder's state is the same (00_scope.md R2). -/
def BuilderKept (s t : State) : Prop :=
  t.freq = s.freq ∧ t.q = s.q ∧ t.node = s.node ∧ t.nalloc = s.nalloc ∧ t.root = s.root ∧ t.clen = s.clen ∧
    t.cbits = s.cbits

theorem BuilderKept.refl (s : State) : BuilderKept s s := ⟨rfl, rfl, rfl, rfl, rfl, rfl, rfl⟩

theorem OwnedOnly.config_pending {u : HwUnit} {s t : State} (h : OwnedOnly u s t) :
    t.config = s.config ∧ t.pending = s.pending := by
  cases u <;> (unfold OwnedOnly at h; rw [h]; exact ⟨rfl, rfl⟩)

theorem OwnedOnly.builderKept {u : HwUnit} {s t : State} (h : OwnedOnly u s t) (hu : u ≠ .treeBuilder) :
    BuilderKept s t := by
  cases u with
  | treeBuilder => exact absurd rfl hu
  | encoder | decoder | frontEnd => unfold OwnedOnly at h; rw [h]; exact .refl _

theorem OwnedOnly.mode_err {u : HwUnit} {s t : State} (h : OwnedOnly u s t) (hu : u ≠ .frontEnd) :
    t.mode = s.mode ∧ t.err = s.err := by
  cases u with
  | frontEnd => exact absurd rfl hu
  | treeBuilder | encoder | decoder => unfold OwnedOnly at h; rw [h]; exact ⟨rfl, rfl⟩

/-- The cursor moves only in the decoder, and where a decode frame opens or closes. -/
theorem bodyOf_cur {i : Instr} {s t : State} {toks : List Token} (h : bodyOf i s = .ok (t, toks))
    (hc : t.cur ≠ s.cur) : unitOf i = .decoder ∨ i = .dbegin ∨ i = .dend := by
  have own := bodyOf_ownedOnly h
  cases i with
  | dec => exact .inl rfl
  | dbegin => exact .inr (.inl rfl)
  | dend => exact .inr (.inr rfl)
  | nop | rdstat | clrerr | ebegin | eend => cases h; exact absurd rfl hc
  | _ => exact absurd (congrArg State.cur own) hc

/-- A recoverable error leaves the tree builder's state alone, in every mode (60_exceptions.md R212). -/
theorem raise_builderKept {e : Error} (s : State) (he : e.fatal = false) : BuilderKept s (raise e s) := by
  cases hm : s.mode with
  | idle => rw [raise_in_idle hm he]; exact .refl _
  | encode => rw [raise_in_frame (.inl hm) he]; exact .refl _
  | decode => rw [raise_in_frame (.inr hm) he]; exact .refl _
  | fatal => rw [raise_in_fatal hm]; exact .refl _

/-- A command raises a fatal error only in the tree builder and outside frames. -/
theorem not_fatal_of_outside_builder {i : Instr} {m : Mode} {e : Error} (he : e ∈ errorsOf i)
    (hp : permits i m = true ∨ e = .illegalCommand) (hu : unitOf i ≠ .treeBuilder ∨ m = .encode ∨ m = .decode) :
    e.fatal = false := by
  by_cases hi : i = .build
  · subst hi
    rcases hp with hp | rfl
    · rcases hu with hu | rfl | rfl
      · exact absurd rfl hu
      · cases hp
      · cases hp
    · rfl
  · exact recoverable_of_ne_build hi e he

/-- Settles O55: a command that answers wrote only its unit's state, and in a frame the tree builder only reads; a
command that raises leaves the tree builder's state alone unless BUILD fails, which it does outside frames only. -/
theorem unitsWriteTheirOwnState : Obligations.UnitsWriteTheirOwnState := by
  intro i s t h
  rcases exec_answers_or_raises h with ⟨hp, s', toks, hb, rfl⟩ | ⟨e, he, rfl, hp⟩
  · have own := bodyOf_ownedOnly hb
    refine ⟨own.config_pending.1, own.config_pending.2, fun hu => ?_, fun hc => ?_, fun hme => ?_⟩
    · show BuilderKept s s'
      by_cases hi : unitOf i = .treeBuilder
      · have hm := hu.resolve_left (· hi)
        rw [bodyOf_readsOnly (readsOnly_of_frame hi hp hm) hb]
        exact .refl s
      · exact own.builderKept hi
    · rcases bodyOf_cur hb hc with hi | hi | hi <;> simp [hi]
    · refine .inl (by_contra fun hi => ?_)
      obtain ⟨hm, he⟩ := own.mode_err hi
      exact hme.elim (· hm) (· he)
  · exact ⟨raise_config e s, raise_pending e s,
      fun hu => raise_builderKept s (not_fatal_of_outside_builder he hp hu),
      fun _ => .inr (.inr (.inr ⟨e, rfl⟩)), fun _ => .inr ⟨e, rfl⟩⟩

end Sys2Proof.Machine
end

