-- ==== Sys2Proof/Proofs/Invariants.lean ====
section
/-! PROOFS. 10_state.md: the invariants of the points between two commands. Each part of a safe state names the state
it depends on, every command's pseudocode and `raise` keep it, reset establishes it, and so every step keeps it. -/

namespace Sys2Proof.Machine

/-! ### The state each invariant depends on -/

/-- `t` is `s` but for the frequency and code tables and for what stands outside the block. -/
def ControlKept (s t : State) : Prop :=
  t = { s with freq := t.freq, clen := t.clen, cbits := t.cbits, pending := t.pending, out := t.out }

/-- The tree is the same. -/
def TreeKept (s t : State) : Prop := t.root = s.root ∧ t.nalloc = s.nalloc ∧ t.node = s.node

/-- The code table is the same. -/
def TableKept (s t : State) : Prop := t.clen = s.clen ∧ t.cbits = s.cbits

theorem ControlKept.treeKept {s t : State} (k : ControlKept s t) : TreeKept s t := by
  unfold ControlKept at k
  rw [k]
  exact ⟨rfl, rfl, rfl⟩

theorem BuilderKept.treeKept {s t : State} (k : BuilderKept s t) : TreeKept s t := by
  obtain ⟨_, _, hnode, hnalloc, hroot, _, _⟩ := k
  exact ⟨hroot, hnalloc, hnode⟩

theorem BuilderKept.tableKept {s t : State} (k : BuilderKept s t) : TableKept s t := by
  obtain ⟨_, _, _, _, _, hclen, hcbits⟩ := k
  exact ⟨hclen, hcbits⟩

theorem ControlInv.of_kept {s t : State} (C : ControlInv s) (k : ControlKept s t) : ControlInv t := by
  unfold ControlKept at k
  rw [k]
  exact ⟨C.err, C.nalloc, C.queue, C.cursor, C.fatal, C.nodeForm, C.nodeRange⟩

theorem CursorInv.of_kept {s t : State} (C : CursorInv s) (k : ControlKept s t) : CursorInv t := by
  unfold ControlKept at k
  rw [k]
  exact C

theorem TreePresent.of_kept {s t : State} {n : Nat} (T : TreePresent s n) (k : TreeKept s t) : TreePresent t n := by
  obtain ⟨hroot, hnalloc, hnode⟩ := k
  cases s
  cases t
  subst hroot hnalloc hnode
  exact ⟨T.leafCount, T.size, T.rootLast, T.leaves, T.rising, T.internals, T.oneParent, T.sums, T.positive⟩

theorem TreeInv.of_kept {s t : State} (I : TreeInv s) (k : TreeKept s t) : TreeInv t := by
  rcases I with ⟨hroot, hnalloc⟩ | ⟨n, T⟩
  · exact .inl ⟨k.1.trans hroot, k.2.1.trans hnalloc⟩
  · exact .inr ⟨n, T.of_kept k⟩

theorem TableOf.of_kept {r s t : State} (I : TableOf r s) (k : TableKept s t) : TableOf r t := by
  obtain ⟨hclen, hcbits⟩ := k
  cases s
  cases t
  subst hclen hcbits
  exact ⟨I.codes, I.leaves, I.unused⟩

theorem TableInv.of_kept {s t : State} (I : TableInv s) (k : TableKept s t) : TableInv t := by
  rcases I with hempty | ⟨r, n, T, hr⟩
  · exact .inl (by simpa only [EmptyTable, k.1, k.2] using hempty)
  · exact .inr ⟨r, n, T, hr.of_kept k⟩

/-- A safe state stays safe when only what stands outside the block changes. -/
theorem SafeState.of_host {s t : State} (S : SafeState s) (k : t = { s with pending := t.pending, out := t.out }) :
    SafeState t := by
  have kc : ControlKept s t := by unfold ControlKept; rw [k]
  exact ⟨S.control.of_kept kc, S.tree.of_kept kc.treeKept, S.cursor.of_kept kc,
    S.table.of_kept (by rw [k]; exact ⟨rfl, rfl⟩)⟩

/-- Outside a decode frame the cursor invariant is a part of the control invariant. -/
theorem ControlInv.cursorInv {s : State} (C : ControlInv s) (hm : s.mode ≠ .decode) : CursorInv s := by
  unfold CursorInv
  rw [if_neg hm]
  exact C.cursor hm

/-! ### Reset -/

theorem resetBlock_safe (s : State) : SafeState (resetBlock s) where
  control :=
    ⟨Nat.zero_le 7, Nat.zero_le _, rfl, fun _ => rfl, fun h => (by cases h), List.Pairwise.nil, fun _ h => (by cases h)⟩
  tree := .inl ⟨rfl, rfl⟩
  cursor := rfl
  table := .inl fun x => ⟨readTable_replicate 0 x, readTable_replicate 0 x⟩

/-- Settles O57: the state after reset is what `rst` leaves. -/
theorem resetIsSafe : Obligations.ResetIsSafe := resetBlock_safe State.reset

/-! ### Taking an error -/

theorem recordError_le {err : StatusCode} (h : err.toNat ≤ 7) (e : Error) : (recordError err e).toNat ≤ 7 := by
  unfold recordError
  split
  · cases e <;> decide
  · exact h

theorem recordError_ne_zero (err : StatusCode) (e : Error) : recordError err e ≠ 0 := by
  unfold recordError
  split
  · cases e <;> decide
  · assumption

/-- Everything `raise` can leave: it only records, it aborts a frame, or it discards the tree (60_exceptions.md R212). -/
theorem raise_cases (e : Error) (s : State) :
    ((s.mode = .idle ∨ s.mode = .fatal) ∧
      raise e s = { s with err := recordError s.err e, out := s.out ++ [.st e.code] }) ∨
    raise e s = { s with mode := .idle, err := recordError s.err e, cur := NIL, out := s.out ++ [.st e.code] } ∨
    raise e s = { s with mode := .fatal, err := recordError s.err e, root := NIL, nalloc := 0, q := [], cur := NIL,
                         out := s.out ++ [.st e.code] } := by
  cases hm : s.mode with
  | fatal => exact .inl ⟨.inr rfl, by rw [raise_in_fatal hm, hm]⟩
  | idle =>
    cases he : e.fatal with
    | false => exact .inl ⟨.inl rfl, by rw [raise_in_idle hm he, hm]⟩
    | true => exact .inr (.inr (raise_fatal (by simp [hm]) he))
  | encode | decode =>
    cases he : e.fatal with
    | false => exact .inr (.inl (raise_in_frame (by simp [hm]) he))
    | true => exact .inr (.inr (raise_fatal (by simp [hm]) he))

/-- No decode frame is open after an error. -/
theorem raise_mode_ne_decode (e : Error) (s : State) : (raise e s).mode ≠ .decode := by
  rcases raise_cases e s with ⟨hm, h⟩ | h | h
  · rcases hm with hm | hm <;> simp [h, hm]
  · simp [h]
  · simp [h]

theorem ControlInv.raise {s : State} (C : ControlInv s) (e : Error) : ControlInv (raise e s) := by
  have herr := recordError_le C.err e
  have hne := recordError_ne_zero s.err e
  rcases raise_cases e s with ⟨_, h⟩ | h | h <;> rw [h]
  · exact ⟨herr, C.nalloc, C.queue, C.cursor, fun hm => ⟨(C.fatal hm).1, (C.fatal hm).2.1, hne⟩, C.nodeForm, C.nodeRange⟩
  · exact ⟨herr, C.nalloc, C.queue, fun _ => rfl, fun hm => (by cases hm), C.nodeForm, C.nodeRange⟩
  · exact ⟨herr, Nat.zero_le _, rfl, fun _ => rfl, fun _ => ⟨rfl, rfl, hne⟩, C.nodeForm, C.nodeRange⟩

theorem TreeInv.raise {s : State} (I : TreeInv s) (e : Error) : TreeInv (raise e s) := by
  rcases raise_cases e s with ⟨_, h⟩ | h | h <;> rw [h]
  · exact I.of_kept ⟨rfl, rfl, rfl⟩
  · exact I.of_kept ⟨rfl, rfl, rfl⟩
  · exact .inl ⟨rfl, rfl⟩

theorem SafeState.raise {s : State} (S : SafeState s) (e : Error) : SafeState (raise e s) :=
  ⟨S.control.raise e, S.tree.raise e, (S.control.raise e).cursorInv (raise_mode_ne_decode e s),
    S.table.of_kept ⟨raise_clen e s, raise_cbits e s⟩⟩

/-! ### The control invariant -/

/-- A new member makes the queue at most one longer. -/
theorem insertMember_length_le (h : Handle) (q : List Handle) : (insertMember h q).length ≤ q.length + 1 := by
  induction q with
  | nil => exact le_rfl
  | cons k q ih =>
    simp only [insertMember]
    split
    · exact le_rfl
    · split
      · exact Nat.le_succ _
      · exact Nat.succ_le_succ ih

theorem pqExtractMin_length {s t : State} {h : Handle} (hx : pqExtractMin s = .ok (h, t)) :
    t.q.length + 1 = s.q.length := by
  obtain ⟨hm, rfl⟩ := pqExtractMin_ok hx
  have := List.length_pos_of_mem hm
  simp only [List.length_erase_of_mem hm]
  omega

/-- A pass of step 2 of BUILD shortens the queue (42_tree_builder.md R126). -/
theorem mergeOnce_length_lt {s t : State} (h : mergeOnce s = .ok t) : t.q.length < s.q.length := by
  simp only [mergeOnce, proc_bind_eq_ok, Prod.exists] at h
  obtain ⟨a, s1, h1, b, s2, h2, na, _, nb, _, h⟩ := h
  obtain ⟨_, rfl⟩ := (addNode_eq_ok _ _ _).mp h
  have l1 := pqExtractMin_length h1
  have l2 := pqExtractMin_length h2
  have l3 := insertMember_length_le s2.nalloc s2.q
  simp only
  omega

/-- Passes enough for the queue leave at most one member. -/
theorem mergeLoop_length_le {k : Nat} {s t : State} (h : mergeLoop k s = .ok t) (hk : s.q.length ≤ k + 1) :
    t.q.length ≤ 1 := by
  induction k generalizing s with
  | zero => cases h; exact hk
  | succ k ih =>
    simp only [mergeLoop] at h
    split at h
    · obtain ⟨u, hu, h⟩ := (proc_bind_eq_ok _ _ _).mp h
      have := mergeOnce_length_lt hu
      exact ih h (by omega)
    · rename_i hle
      cases h
      exact Nat.not_lt.mp hle

/-- BUILD leaves the queue empty, from whatever it began with (10_state.md R31). -/
theorem buildBody_queue {s t : State} {toks : List Token} (h : buildBody s = .ok (t, toks)) : t.q = [] := by
  simp only [buildBody, proc_bind_eq_ok, Prod.exists, proc_pure, Except.ok.injEq, Prod.mk.injEq] at h
  obtain ⟨_, _, _, _, s1, _, s2, h2, r, s3, h3, rfl, _⟩ := h
  have l2 := mergeLoop_length_le h2 (Nat.le_succ _)
  have l3 := pqExtractMin_length h3
  exact List.length_eq_zero_iff.mp (by simp only; omega)

/-- The commands that touch no other state of the block than the frequency and code tables. -/
def tablesOnly : Instr → Bool
  | .nop | .rdstat | .fclr | .count _ | .ldf _ _ | .rdfreq _ | .rdnode _ | .gen | .rdcode _ | .enc _ => true
  | _ => false

theorem bodyOf_controlKept {i : Instr} {s t : State} {toks : List Token} (hi : tablesOnly i = true)
    (h : bodyOf i s = .ok (t, toks)) : ControlKept s t := by
  cases i with
  | nop | rdstat | fclr | ldf | rdfreq | rdcode => cases h; rfl
  | count => obtain ⟨_, _, rfl⟩ := countBody_ok.mp h; rfl
  | rdnode => obtain ⟨_, _, rfl, _⟩ := rdnodeBody_ok.mp h; rfl
  | gen => obtain ⟨_, ht⟩ := genBody_ok h; unfold ControlKept; rw [ht]
  | enc => obtain ⟨_, rfl, _⟩ := encBody_ok.mp h; rfl
  | _ => cases hi

theorem buildBody_controlInv {s t : State} {toks : List Token} (C : ControlInv s) (hm : s.mode = .idle)
    (h : buildBody s = .ok (t, toks)) : ControlInv t := by
  obtain ⟨_, _, ht, harena⟩ := buildBody_ok h
  have hq := buildBody_queue h
  obtain ⟨form, range, size⟩ := harena ⟨C.nodeForm, C.nodeRange, C.nalloc⟩
  have hmode : t.mode = s.mode := by rw [ht]
  refine ⟨by rw [ht]; exact C.err, size, hq, by rw [ht]; exact C.cursor, fun hf => ?_, form, range⟩
  rw [hmode, hm] at hf
  cases hf

theorem releaseTree_controlInv {s : State} (C : ControlInv s) (hm : s.mode = .idle) : ControlInv (releaseTree s) := by
  unfold releaseTree
  split
  · exact C
  · exact ⟨C.err, Nat.zero_le _, C.queue, C.cursor, fun hf => (by rw [hm] at hf; cases hf), C.nodeForm, C.nodeRange⟩

/-- The pseudocode of every command keeps the control invariant. -/
theorem bodyOf_controlInv {i : Instr} {s t : State} {toks : List Token} (C : ControlInv s)
    (hp : permits i s.mode = true) (h : bodyOf i s = .ok (t, toks)) : ControlInv t := by
  have kept := bodyOf_controlKept (h := h)
  cases i with
  | nop | rdstat | fclr | count | ldf | rdfreq | rdnode | gen | rdcode | enc => exact C.of_kept (kept rfl)
  | build => exact buildBody_controlInv C (by simpa [permits] using hp) h
  | release => cases h; exact releaseTree_controlInv C (by simpa [permits] using hp)
  | clrerr =>
    have hm : s.mode = .idle := by simpa [permits] using hp
    cases h
    exact ⟨Nat.zero_le 7, C.nalloc, C.queue, C.cursor, fun hf => (by rw [hm] at hf; cases hf), C.nodeForm, C.nodeRange⟩
  | ebegin | eend =>
    have hm : s.mode ≠ .decode := by rintro hm; rw [hm] at hp; cases hp
    cases h
    exact ⟨C.err, C.nalloc, C.queue, fun _ => C.cursor hm, fun hf => (by cases hf), C.nodeForm, C.nodeRange⟩
  | dbegin =>
    obtain ⟨_, _, rfl⟩ := dbeginBody_ok.mp h
    exact ⟨C.err, C.nalloc, C.queue, fun hm => absurd rfl hm, fun hf => (by cases hf), C.nodeForm, C.nodeRange⟩
  | dend =>
    obtain ⟨_, _, rfl⟩ := dendBody_ok.mp h
    exact ⟨C.err, C.nalloc, C.queue, fun _ => rfl, fun hf => (by cases hf), C.nodeForm, C.nodeRange⟩
  | dec =>
    have hm : s.mode = .decode := by simpa [permits] using hp
    have ht : t = { s with cur := t.cur } := decBody_ownedOnly h
    rw [ht]
    exact ⟨C.err, C.nalloc, C.queue, fun hn => absurd hm hn, fun hf => (by rw [hm] at hf; cases hf), C.nodeForm,
      C.nodeRange⟩

/-! ### The tree invariant -/

/-- The commands that make or discard no tree leave it alone. -/
theorem bodyOf_treeKept {i : Instr} {s t : State} {toks : List Token} (hb : i ≠ .build) (hr : i ≠ .release)
    (h : bodyOf i s = .ok (t, toks)) : TreeKept s t := by
  cases hi : tablesOnly i with
  | true => exact (bodyOf_controlKept hi h).treeKept
  | false =>
    refine ((bodyOf_ownedOnly h).builderKept ?_).treeKept
    cases i with
    | build => exact absurd rfl hb
    | release => exact absurd rfl hr
    | clrerr | ebegin | eend | dbegin | dec | dend => nofun
    | _ => cases hi

/-- Without a root there is no tree (10_state.md R29, R30). -/
theorem TreeInv.absent {s : State} (I : TreeInv s) (hr : s.root = NIL) : TreeAbsent s := by
  rcases I with h | ⟨n, T⟩
  · exact h
  · exact absurd hr T.root_ne_nil

/-- With a node allocated there is a tree (10_state.md R30). -/
theorem TreeInv.present {s : State} {h : Handle} (I : TreeInv s) (hlt : h.toNat < s.nalloc.toNat) :
    ∃ n, TreePresent s n := by
  rcases I with ⟨_, hz⟩ | hT
  · rw [hz] at hlt; cases hlt
  · exact hT

theorem buildBody_hasSymbol {s t : State} {toks : List Token} (h : buildBody s = .ok (t, toks)) :
    s.hasSymbol = true := by
  simp only [buildBody, proc_bind_eq_ok, require_eq_ok] at h
  obtain ⟨_, _, _, hs, _⟩ := h
  exact hs

/-- A BUILD that ends leaves a tree (42_tree_builder.md R124, R125). -/
theorem buildBody_treePresent {s t : State} {toks : List Token} (ha : TreeAbsent s) (hq : s.q = [])
    (h : buildBody s = .ok (t, toks)) : TreePresent t s.distinct := by
  have hd : 1 ≤ s.distinct := (hasSymbol_iff s).mp (buildBody_hasSymbol h)
  have hfit : 2 * s.distinct - 1 ≤ s.config.arenaSize := by
    by_contra hsmall
    rw [buildBody_full ha hq hd (by omega)] at h
    cases h
  obtain ⟨r, u, hu, _, forest, hr, _⟩ := buildBody_builds ha hq hd hfit
  obtain ⟨r', hr', _, T, _⟩ := forest.tree hd (by rw [hr]; rfl)
  rw [hr] at hr'
  rw [hu] at h
  cases hr'
  cases h
  exact T

theorem releaseTree_treeInv {s : State} (I : TreeInv s) : TreeInv (releaseTree s) := by
  unfold releaseTree
  split
  · exact I
  · exact .inl ⟨rfl, rfl⟩

/-- The pseudocode of every command keeps the tree invariant. -/
theorem bodyOf_treeInv {i : Instr} {s t : State} {toks : List Token} (I : TreeInv s) (hq : s.q = [])
    (h : bodyOf i s = .ok (t, toks)) : TreeInv t := by
  by_cases hb : i = .build
  · subst hb
    exact .inr ⟨_, buildBody_treePresent (I.absent (buildBody_ok h).1) hq h⟩
  by_cases hr : i = .release
  · subst hr
    cases h
    exact releaseTree_treeInv I
  exact I.of_kept (bodyOf_treeKept hb hr h)

/-! ### The cursor invariant -/

/-- DEC leaves the cursor at the root or on an Internal node (45_decoder.md R177). -/
theorem decBody_cursorInv {v : BitVec 8} {s t : State} {toks : List Token} (S : SafeState s) (hm : s.mode = .decode)
    (h : decBody v s = .ok (t, toks)) : CursorInv t := by
  obtain ⟨b, nd, _, hcur, ⟨_, _, rfl, _⟩ | ⟨m, _, hchild, ⟨_, rfl, _⟩ | ⟨hk, rfl, _⟩⟩⟩ := decBody_ok.mp h
  · exact S.cursor
  · obtain ⟨n, T⟩ := S.tree.present (nodeAt_lt hcur)
    exact (if_pos hm).mpr ⟨T.root_lt, .inl rfl⟩
  · exact (if_pos hm).mpr ⟨nodeAt_lt hchild, .inr ⟨m, hchild, hk⟩⟩

/-- DBEGIN puts the cursor on the root of the tree (45_decoder.md R170). -/
theorem dbeginBody_cursorInv {s t : State} {toks : List Token} (I : TreeInv s) (h : dbeginBody s = .ok (t, toks)) :
    CursorInv t := by
  obtain ⟨hroot, _, rfl⟩ := dbeginBody_ok.mp h
  rcases I with ⟨hnil, _⟩ | ⟨n, T⟩
  · exact absurd hnil hroot
  · exact ⟨T.root_lt, .inl rfl⟩

/-- The pseudocode of every command keeps the cursor invariant. -/
theorem bodyOf_cursorInv {i : Instr} {s t : State} {toks : List Token} (S : SafeState s)
    (hp : permits i s.mode = true) (h : bodyOf i s = .ok (t, toks)) : CursorInv t := by
  by_cases hm : t.mode = .decode
  · cases hi : tablesOnly i with
    | true => exact S.cursor.of_kept (bodyOf_controlKept hi h)
    | false =>
      cases i with
      | dbegin => exact dbeginBody_cursorInv S.tree h
      | dec => exact decBody_cursorInv S (by simpa [permits] using hp) h
      | dend => obtain ⟨_, _, rfl⟩ := dendBody_ok.mp h; cases hm
      | ebegin | eend => cases h; cases hm
      | clrerr => cases h; rw [hm] at hp; cases hp
      | build | release =>
        have same : t.mode = s.mode := ((bodyOf_ownedOnly h).mode_err (by decide)).1
        rw [← same, hm] at hp
        cases hp
      | _ => cases hi
  · exact (bodyOf_controlInv S.control hp h).cursorInv hm

/-! ### The code table invariant -/

/-- The code of the Leaf `l` at the end of the path `bs` from the root (43_code_generator.md R141, R142). -/
def codeAt (s : State) (l : Handle) (bs : List Bool) : List Bool := if l = s.root then [LEFT_BIT] else bs

/-- A code has 1 to `MAXLEN` bits (42_tree_builder.md R128). -/
theorem TreePresent.codeAt_length {s : State} {n : Nat} {l : Handle} {bs : List Bool} (T : TreePresent s n)
    (hf : follow s s.root bs = some l) : 1 ≤ (codeAt s l bs).length ∧ (codeAt s l bs).length ≤ 255 := by
  unfold codeAt
  split
  · decide
  · rename_i hne
    have hpos : bs ≠ [] := by rintro rfl; cases hf; exact hne rfl
    have := List.length_pos_of_ne_nil hpos
    have := (T.follow_short hf).resolve_left hpos
    have := T.rootLast
    have := T.size
    have := T.leafCount
    omega

theorem TreePresent.codeAt_length_toNat {s : State} {n : Nat} {l : Handle} {bs : List Bool} (T : TreePresent s n)
    (hf : follow s s.root bs = some l) :
    (BitVec.ofNat 8 (codeAt s l bs).length).toNat = (codeAt s l bs).length := by
  have := (T.codeAt_length hf).2
  rw [BitVec.toNat_ofNat, Nat.mod_eq_of_lt (by omega)]

/-- What GEN with a tree writes for a symbol: the code of its Leaf, or nothing (43_code_generator.md R141). -/
theorem genBody_entry {s t : State} {n : Nat} {toks : List Token} (T : TreePresent s n)
    (h : genBody s = .ok (t, toks)) (x : Symbol) :
    (∃ l nd bs, s.nodeAt l = some nd ∧ nd.kind = .leaf ∧ nd.sym = x ∧ follow s s.root bs = some l ∧
      readTable t.clen x = BitVec.ofNat 8 (codeAt s l bs).length ∧ readTable t.cbits x = pathBits (codeAt s l bs)) ∨
    ((∀ l nd, s.nodeAt l = some nd → nd.kind = .leaf → nd.sym ≠ x) ∧
      readTable t.clen x = 0 ∧ readTable t.cbits x = 0) := by
  obtain ⟨t', ht', written, unwritten⟩ := genBody_gives T
  rw [ht'] at h
  cases h
  by_cases hno : ∀ l nd, s.nodeAt l = some nd → nd.kind = .leaf → nd.sym ≠ x
  · exact .inr ⟨hno, unwritten x hno⟩
  · push Not at hno
    obtain ⟨l, nd, hl, hk, rfl⟩ := hno
    obtain ⟨bs, hf⟩ := T.reached (nodeAt_lt hl)
    exact .inl ⟨l, nd, bs, hl, hk, rfl, hf, written l nd bs hf hl hk⟩

/-- The table GEN computes from a tree (43_code_generator.md R140 to R142). -/
theorem genBody_tableOf {s t : State} {n : Nat} {toks : List Token} (T : TreePresent s n)
    (h : genBody s = .ok (t, toks)) : TableOf s t where
  codes x hx := by
    rcases genBody_entry T h x with ⟨l, nd, bs, hl, hk, hsym, hf, hlen, hbits⟩ | ⟨_, hz, _⟩
    · refine ⟨l, nd, hl, hk, hsym, ?_⟩
      rw [code_of_entry (T.codeAt_length hf).2 hlen hbits]
      unfold codeAt
      split
      · rfl
      · exact hf
    · exact absurd hz hx
  leaves l nd hl hk := by
    rcases genBody_entry T h nd.sym with ⟨_, _, _, _, _, _, hf, hlen, _⟩ | ⟨hno, _, _⟩
    · have hpos := (T.codeAt_length hf).1
      rw [hlen]
      intro hz
      rw [← T.codeAt_length_toNat hf, hz] at hpos
      cases hpos
    · exact absurd rfl (hno l nd hl hk)
  unused x i hi := by
    rcases genBody_entry T h x with ⟨_, _, _, _, _, _, hf, hlen, hbits⟩ | ⟨_, _, hz⟩
    · rw [hlen, T.codeAt_length_toNat hf] at hi
      rw [hbits]
      by_cases hw : i < 255
      · rw [pathBits_getLsbD _ i hw, List.getElem?_eq_none hi]
        rfl
      · exact BitVec.getLsbD_of_ge _ i (by omega)
    · rw [hz]
      exact BitVec.getLsbD_zero

/-- GEN leaves the empty table, or the one of the tree (10_state.md R34). -/
theorem genBody_tableInv {s t : State} {toks : List Token} (I : TreeInv s) (h : genBody s = .ok (t, toks)) :
    TableInv t := by
  rcases I with ⟨hroot, _⟩ | ⟨n, T⟩
  · simp only [genBody, if_pos hroot] at h
    cases h
    exact .inl fun x => ⟨readTable_replicate 0 x, readTable_replicate 0 x⟩
  · exact .inr ⟨s, n, T, genBody_tableOf T h⟩

/-- Every command but GEN leaves the code table alone. -/
theorem bodyOf_tableKept {i : Instr} {s t : State} {toks : List Token} (hg : i ≠ .gen)
    (h : bodyOf i s = .ok (t, toks)) : TableKept s t := by
  by_cases hu : unitOf i = .treeBuilder
  · cases i with
    | gen => exact absurd rfl hg
    | fclr | ldf | rdfreq | rdcode => cases h; exact ⟨rfl, rfl⟩
    | count => obtain ⟨_, _, rfl⟩ := countBody_ok.mp h; exact ⟨rfl, rfl⟩
    | rdnode => obtain ⟨_, _, rfl, _⟩ := rdnodeBody_ok.mp h; exact ⟨rfl, rfl⟩
    | build => obtain ⟨_, _, ht, _⟩ := buildBody_ok h; rw [ht]; exact ⟨rfl, rfl⟩
    | release => cases h; unfold releaseTree; split <;> exact ⟨rfl, rfl⟩
    | _ => cases hu
  · exact ((bodyOf_ownedOnly h).builderKept hu).tableKept

/-- The pseudocode of every command keeps the code table invariant. -/
theorem bodyOf_tableInv {i : Instr} {s t : State} {toks : List Token} (S : SafeState s)
    (h : bodyOf i s = .ok (t, toks)) : TableInv t := by
  by_cases hg : i = .gen
  · subst hg
    exact genBody_tableInv S.tree h
  · exact S.table.of_kept (bodyOf_tableKept hg h)

/-! ### A step -/

/-- An invariant that does not look outside the block, holds after reset, and is kept by `raise` and by the pseudocode
of every command in its modes, is kept by every step. -/
theorem step_keeps {P : State → Prop} (host : ∀ {s t}, P s → t = { s with pending := t.pending, out := t.out } → P t)
    (reset : ∀ s, P (resetBlock s)) (raises : ∀ {s}, P s → ∀ e, P (raise e s))
    (body : ∀ {i s t toks}, P s → permits i s.mode = true → bodyOf i s = .ok (t, toks) → P t) {s t : State} (hs : P s)
    (h : step s = .next t) : P t := by
  have taken : ∀ rest, P (takeEvent rest s) := fun rest => host hs rfl
  rcases step_next h with ⟨_, rfl⟩ | ⟨_, rest, i, _, _, hx⟩ | ⟨_, rest, _, _, _, rfl⟩ | ⟨rest, _, rfl⟩ |
    ⟨_, _, rest, _, _, _, rfl⟩
  · exact hs
  · rcases exec_next hx with ⟨hp, u, toks, hb, rfl⟩ | ⟨_, e, _, rfl⟩ | ⟨_, rfl⟩
    · exact host (body (taken rest) hp hb) rfl
    · exact raises (taken rest) e
    · exact raises (taken rest) _
  · exact raises (taken rest) _
  · exact reset _
  · exact host (reset _) rfl

/-- Settles O58: reset, errors and the pseudocode of every command keep the control invariant. -/
theorem stepKeepsControl : Obligations.StepKeepsControl := fun _ _ =>
  step_keeps (P := ControlInv) (fun C k => C.of_kept (by unfold ControlKept; rw [k]))
    (fun s => (resetBlock_safe s).control) (fun C => C.raise) bodyOf_controlInv

/-- The pseudocode of every command leads from a safe state to a safe state. -/
theorem bodyOf_safe {i : Instr} {s t : State} {toks : List Token} (S : SafeState s) (hp : permits i s.mode = true)
    (h : bodyOf i s = .ok (t, toks)) : SafeState t :=
  ⟨bodyOf_controlInv S.control hp h, bodyOf_treeInv S.tree S.control.queue h, bodyOf_cursorInv S hp h,
    bodyOf_tableInv S h⟩

/-- Settles O59: reset, errors and the pseudocode of every command keep the control, tree, cursor and table
invariants. -/
theorem stepKeepsSafe : Obligations.StepKeepsSafe := fun _ _ =>
  step_keeps (P := SafeState) (fun S => S.of_host) resetBlock_safe (fun S => S.raise) bodyOf_safe

end Sys2Proof.Machine
end

