-- ==== Sys2Proof/Proofs/State.lean ====
section
/-! PROOFS. 10_state.md: the values after reset (R37), the sticky ERR (R23), and the host's list of events, which a
step reads only for its head (R21). -/

namespace Sys2Proof.Machine

/-! ### Reset -/

theorem tableFlag_reset : State.reset.tableFlag = false := by
  refine List.any_eq_false.mpr fun c hc => ?_
  have hz : c = 0 := (List.mem_replicate.mp (Vector.toList_replicate (n := 256) (a := (0 : CodeLen)) ▸ hc)).2
  simp [hz]

theorem status0_reset : State.reset.status0 = 0x0001FF00#32 := by
  rw [State.status0, tableFlag_reset]
  rfl

/-- Settles O9: each element at its reset value, and the status words computed from them. -/
theorem resetValues : Obligations.ResetValues :=
  ⟨rfl, rfl, rfl, rfl, rfl, rfl, readTable_replicate 0, readTable_replicate 0, readTable_replicate 0, fun _ => rfl,
    status0_reset, rfl⟩

/-! ### ERR -/

/-- The pseudocode of every command but CLRERR leaves `ERR` alone (10_state.md R23). -/
theorem bodyOf_err {i : Instr} {s t : State} {toks : List Token} (hi : i ≠ .clrerr)
    (h : bodyOf i s = .ok (t, toks)) : t.err = s.err := by
  by_cases hu : unitOf i = .frontEnd
  · cases i with
    | clrerr => exact absurd rfl hi
    | nop | rdstat | ebegin | eend => cases h; rfl
    | dbegin => obtain ⟨_, _, rfl⟩ := dbeginBody_ok.mp h; rfl
    | dend => obtain ⟨_, _, rfl⟩ := dendBody_ok.mp h; rfl
    | _ => cases hu
  · exact ((bodyOf_ownedOnly h).mode_err hu).2

/-- Settles O52: the pseudocode leaves `ERR` alone or is CLRERR's, and `raise` writes it when it is 0. -/
theorem errKeepsTheFirstError : Obligations.ErrKeepsTheFirstError := by
  intro i s t h
  rcases exec_answers_or_raises h with ⟨_, s', toks, hb, rfl⟩ | ⟨e, _, rfl, _⟩
  · rw [answer_err]
    by_cases hi : i = .clrerr
    · subst hi
      cases hb
      exact .inr (.inl ⟨rfl, rfl⟩)
    · exact .inl (bodyOf_err hi hb)
  · rw [raise_err]
    by_cases hz : s.err = 0
    · exact .inr (.inr ⟨hz, e, rfl, if_pos hz⟩)
    · exact .inl (if_neg hz)

end Sys2Proof.Machine
end

