-- ==== Sys2Proof/Proofs/Events.lean ====
section
/-! PROOFS. 10_state.md R21: the host's coming events stand beside the block and no command reads or writes them, so a
run over a list of events is the run of the step. -/

namespace Sys2Proof.Machine

/-! ### Pseudocode does the same whatever the host does afterwards -/

section
variable (p : List Event)

theorem alloc_takeEvent (s : State) : alloc (takeEvent p s) = Prod.map id (takeEvent p) <$> alloc s := by
  by_cases hlt : s.nalloc.toNat < s.config.arenaSize
  · rw [(alloc_eq_ok s _ _).mpr ⟨hlt, rfl, rfl⟩]
    exact (alloc_eq_ok _ _ _).mpr ⟨hlt, rfl, rfl⟩
  · rw [(alloc_eq_error s _).mpr ⟨Nat.not_lt.mp hlt, rfl⟩]
    exact (alloc_eq_error _ _).mpr ⟨Nat.not_lt.mp hlt, rfl⟩

theorem addNode_takeEvent (n : Node) (s : State) : addNode n (takeEvent p s) = takeEvent p <$> addNode n s := by
  simp only [addNode, alloc_takeEvent, bind_map_left, map_bind]
  rfl

theorem leafLoop_takeEvent (xs : List Symbol) (s : State) :
    leafLoop xs (takeEvent p s) = takeEvent p <$> leafLoop xs s := by
  induction xs generalizing s with
  | nil => rfl
  | cons x xs ih =>
    simp only [leafLoop, takeEvent_freq, addNode_takeEvent, bind_map_left]
    split
    · exact ih s
    · simp only [map_bind, ih]

theorem keysOf_takeEvent (hs : List Handle) (s : State) : keysOf (takeEvent p s) hs = keysOf s hs := by
  induction hs with
  | nil => rfl
  | cons h hs ih => simp only [keysOf, ih]; rfl

theorem pqExtractMin_takeEvent (s : State) :
    pqExtractMin (takeEvent p s) = Prod.map id (takeEvent p) <$> pqExtractMin s := by
  simp only [pqExtractMin, keysOf_takeEvent, takeEvent_q, map_bind]
  congr 1
  funext ks
  cases ks <;> rfl

theorem mergeOnce_takeEvent (s : State) : mergeOnce (takeEvent p s) = takeEvent p <$> mergeOnce s := by
  simp only [mergeOnce, pqExtractMin_takeEvent, bind_map_left, map_bind, Prod.map, addNode_takeEvent]
  rfl

theorem mergeLoop_takeEvent (k : Nat) (s : State) : mergeLoop k (takeEvent p s) = takeEvent p <$> mergeLoop k s := by
  induction k generalizing s with
  | zero => rfl
  | succ k ih =>
    have hq : pqSize (takeEvent p s) = pqSize s := rfl
    simp only [mergeLoop, hq, mergeOnce_takeEvent, bind_map_left]
    split
    · simp only [map_bind, ih]
    · rfl

theorem buildBody_takeEvent (s : State) :
    buildBody (takeEvent p s) = Prod.map (takeEvent p) id <$> buildBody s := by
  have hs : (takeEvent p s).hasSymbol = s.hasSymbol := rfl
  have hq : ∀ u, pqSize (takeEvent p u) = pqSize u := fun _ => rfl
  simp only [buildBody, takeEvent_root, hs, leafLoop_takeEvent, hq, mergeLoop_takeEvent, pqExtractMin_takeEvent,
    bind_map_left, map_bind]
  rfl

theorem walk_takeEvent (k : Nat) (h : Handle) (path : List Bool) (s : State) :
    walk k h path (takeEvent p s) = takeEvent p <$> walk k h path s := by
  induction k generalizing h path s with
  | zero => rfl
  | succ k ih =>
    simp only [walk, map_bind]
    congr 1
    funext n
    cases n.kind with
    | leaf => rfl
    | internal => simp only [ih, bind_map_left, map_bind]

theorem genTree_takeEvent (s : State) : genTree (takeEvent p s) = takeEvent p <$> genTree s := by
  simp only [genTree, map_bind]
  congr 1
  funext n
  cases n.kind with
  | leaf => rfl
  | internal => exact walk_takeEvent p _ _ _ s

theorem genBody_takeEvent (s : State) : genBody (takeEvent p s) = Prod.map (takeEvent p) id <$> genBody s := by
  by_cases hroot : s.root = NIL
  · rw [genBody, genBody, if_pos hroot, takeEvent_root, if_pos hroot]
    rfl
  · have hclear : clearTable (takeEvent p s) = takeEvent p (clearTable s) := rfl
    rw [genBody, genBody, if_neg hroot, takeEvent_root, if_neg hroot, hclear, genTree_takeEvent, bind_map_left, map_bind]
    rfl

theorem moveCursor_takeEvent (b : Bool) (s : State) :
    moveCursor b (takeEvent p s) = Prod.map (takeEvent p) id <$> moveCursor b s := by
  simp only [moveCursor, map_bind]
  congr 1
  funext n
  cases n.kind with
  | leaf => simp only [map_bind]; rfl
  | internal =>
    simp only [map_bind]
    congr 1
    funext m
    cases m.kind <;> rfl

theorem releaseTree_takeEvent (s : State) : releaseTree (takeEvent p s) = takeEvent p (releaseTree s) := by
  unfold releaseTree
  rw [takeEvent_root]
  split <;> rfl

/-- The pseudocode of a command does the same whatever the host does afterwards. -/
theorem bodyOf_takeEvent (i : Instr) (s : State) :
    bodyOf i (takeEvent p s) = Prod.map (takeEvent p) id <$> bodyOf i s := by
  cases i with
  | nop | rdstat | clrerr | fclr | ldf | rdfreq | rdcode | ebegin | eend => rfl
  | count => simp only [bodyOf, countBody, map_bind]; rfl
  | build => exact buildBody_takeEvent p s
  | rdnode => simp only [bodyOf, rdnodeBody, map_bind]; rfl
  | release => simp only [bodyOf, releaseTree_takeEvent]; rfl
  | gen => exact genBody_takeEvent p s
  | enc => simp only [bodyOf, encBody, map_bind]; rfl
  | dbegin => simp only [bodyOf, dbeginBody, map_bind]; rfl
  | dec v =>
    simp only [bodyOf, decBody]
    split
    · rfl
    · exact moveCursor_takeEvent p _ s
  | dend => simp only [bodyOf, dendBody, map_bind]; rfl

/-! ### Events -/

theorem raise_takeEvent (e : Error) (s : State) : raise e (takeEvent p s) = takeEvent p (raise e s) := by
  cases hm : s.mode with
  | fatal => rw [raise_in_fatal hm]; exact raise_in_fatal hm
  | idle | encode | decode =>
    cases he : e.fatal with
    | true => rw [raise_fatal (s := s) (by simp [hm]) he]; exact raise_fatal (by simp [hm]) he
    | false => simp [raise, raiseMode, emit, takeEvent, hm, he]

variable {p}

theorem exec_takeEvent {i : Instr} {s t : State} (h : exec i s = .next t) :
    exec i (takeEvent p s) = .next (takeEvent p t) := by
  have body := bodyOf_takeEvent p i s
  rcases exec_next h with ⟨hp, s', toks, hb, rfl⟩ | ⟨hp, e, hb, rfl⟩ | ⟨hp, rfl⟩
  · rw [hb] at body
    rw [exec_eq_command]
    exact command_ok (s := takeEvent p s) (s' := takeEvent p s') ((mem_modesOf _ _).mpr hp) body
  · rw [hb] at body
    rw [exec_eq_command, ← raise_takeEvent]
    exact command_raised ((mem_modesOf _ _).mpr hp) body
  · rw [← raise_takeEvent]
    exact exec_wrong_mode hp

theorem runWord_takeEvent {w : Word} {s t : State} (h : runWord w s = .next t) :
    runWord w (takeEvent p s) = .next (takeEvent p t) := by
  rcases runWord_next h with ⟨i, hd, hx⟩ | ⟨⟨e, hd⟩, rfl⟩
  · rw [runWord_of_decode hd]
    exact exec_takeEvent hx
  · simp only [runWord, hd, raise_takeEvent]

/-- An event does the same whatever the host does afterwards. -/
theorem runEvent_takeEvent {e : Event} {s t : State} (h : runEvent e s = .next t) :
    runEvent e (takeEvent p s) = .next (takeEvent p t) := by
  cases e with
  | cmd w => exact runWord_takeEvent h
  | rst => cases h; rfl
  | cut w k =>
    obtain ⟨u, hu, rfl⟩ := cutWord_next h
    simp only [runEvent, cutWord, runWord_takeEvent hu]
    rfl

end

theorem core_run_succ {k : Nat} {s t : State} (h : step s = .next t) : core.run (k + 1) s = core.run k t := by
  simp only [Host.Core.run, show core.step s = .next t from h]

/-- Settles O12, by induction on the events: the step takes the first of them and leaves the others to come. -/
theorem stepsUseUpTheHostsEvents : Obligations.StepsUseUpTheHostsEvents := by
  intro es
  induction es with
  | nil => intro s u t rest h; cases h; rfl
  | cons e es ih =>
    intro s u t rest h
    obtain ⟨v, t', hv, hvs, _⟩ := runEvents_cons.mp h
    have ran : runEvent e (takeEvent (es ++ rest) s) = .next (takeEvent (es ++ rest) v) := runEvent_takeEvent hv
    have taken : step (takeEvent (e :: (es ++ rest)) s) = .next (takeEvent (es ++ rest) v) := (step_event rfl).trans ran
    exact (core_run_succ taken).trans (ih v u t' rest hvs)

end Sys2Proof.Machine
end

