-- ==== Sys2Proof/Proofs/Memory.lean ====
section
/-! PROOFS. 20_memory.md: a read-out changes no state and repeats (R56), and no command sees an entry of `NODE` that is
not allocated (R52). -/

namespace Sys2Proof.Machine

/-! ### Read-outs -/

/-- What a read-out reads does not depend on the tokens emitted before it. -/
theorem bodyOf_readsOnly_emit {i : Instr} {s : State} {toks : List Token} (l : List Token) (hi : readsOnly i = true)
    (h : bodyOf i s = .ok (s, toks)) : bodyOf i (emit l s) = .ok (emit l s, toks) := by
  cases i with
  | nop | rdstat | rdfreq | rdcode => cases h; rfl
  | rdnode =>
    obtain ⟨n, hn, _, rfl⟩ := rdnodeBody_ok.mp h
    exact rdnodeBody_ok.mpr ⟨n, hn, rfl, rfl⟩
  | _ => cases hi

/-- A command that answers `ST(0)` did not raise: its pseudocode ended. -/
theorem exec_accepted {i : Instr} {s t : State} {toks : List Token} (h : exec i s = .next t)
    (hout : t.out = s.out ++ toks ++ [.st 0]) :
    permits i s.mode = true ∧ ∃ s' toks', bodyOf i s = .ok (s', toks') ∧ t = answer toks' s' := by
  rcases exec_answers_or_raises h with h | ⟨e, _, rfl, _⟩
  · exact h
  · have hcode : Token.st e.code = .st 0 := by
      rw [raise_out] at hout
      exact List.singleton_inj.mp (List.append_inj' hout rfl).2
    cases e <;> cases hcode

/-- Settles O54: an accepted read-out only emits, so the second one finds the same state but for `OUT`, and reads the
same tokens. -/
theorem readsHaveNoSideEffect : Obligations.ReadsHaveNoSideEffect := by
  rintro i s t u hi hs ht ⟨_, hout⟩
  obtain ⟨hp, s', toks, hb, rfl⟩ := exec_accepted hs hout
  obtain rfl := bodyOf_readsOnly hi hb
  have again : exec i (answer toks s') = .next (answer toks (answer toks s')) := by
    rw [exec_eq_command]
    exact command_ok ((mem_modesOf _ _).mpr hp) (bodyOf_readsOnly_emit _ hi hb)
  cases again.symm.trans ht
  exact ⟨rfl, rfl, (tokensSince_emit _ _).trans (tokensSince_emit _ _).symm⟩

/-! ### Pseudocode that ends alike -/

/-- Two pieces of pseudocode end early for the same reason, or end with values that are related. -/
inductive EndAlike {α : Type} (R : α → α → Prop) : Proc α → Proc α → Prop where
  | error (x : Stop) : EndAlike R (.error x) (.error x)
  | ok {a b : α} (h : R a b) : EndAlike R (.ok a) (.ok b)

namespace EndAlike
variable {α β : Type} {R : α → α → Prop} {Q : β → β → Prop}

theorem bind {p q : Proc α} {f g : α → Proc β} (h : EndAlike R p q)
    (hf : ∀ a b, R a b → EndAlike Q (f a) (g b)) : EndAlike Q (p >>= f) (q >>= g) := by
  cases h with
  | error x => exact .error x
  | ok h => exact hf _ _ h

/-- Sequences with the same first part end alike if the rests do. -/
theorem bind_same (p : Proc α) {f g : α → Proc β} (hf : ∀ a, EndAlike Q (f a) (g a)) :
    EndAlike Q (p >>= f) (p >>= g) := by
  cases p with
  | error x => exact .error x
  | ok a => exact hf a

theorem ok_right {p q : Proc α} {a : α} (h : EndAlike R p q) (hp : p = .ok a) : ∃ b, q = .ok b ∧ R a b := by
  cases h with
  | error => cases hp
  | ok h => cases hp; exact ⟨_, rfl, h⟩

theorem error_right {p q : Proc α} {x : Stop} (h : EndAlike R p q) (hp : p = .error x) : q = .error x := by
  cases h with
  | error => exact hp
  | ok => cases hp

end EndAlike

/-! ### States that differ only in unallocated entries -/

/-- `t` is `s` but for the entries of `NODE` that are not allocated (20_memory.md R52). -/
def AllocatedAlike (s t : State) : Prop := ∃ m, t = { s with node := m } ∧ ∀ h, s.nodeAt h = t.nodeAt h

/-- The same handle, and states that differ only in unallocated entries. -/
inductive HandleAlike : Handle × State → Handle × State → Prop where
  | mk (h : Handle) {s t : State} (A : AllocatedAlike s t) : HandleAlike (h, s) (h, t)

/-- The same tokens, and states that differ only in unallocated entries. -/
inductive ResultAlike : State × List Token → State × List Token → Prop where
  | mk (toks : List Token) {s t : State} (A : AllocatedAlike s t) : ResultAlike (s, toks) (t, toks)

/-- `addNode` in a full arena fails. -/
theorem addNode_full {s : State} (hs : ¬ s.nalloc.toNat < s.config.arenaSize) (n : Node) :
    addNode n s = .error (.raised .allocationFailure) := by
  cases ha : addNode n s with
  | ok t => exact absurd ((addNode_eq_ok n s t).mp ha).1 hs
  | error x => rw [addNode_error ha]

/-- `raise` neither reads nor writes `NODE`. -/
theorem raise_setNode (e : Error) (s : State) (m : Memory) :
    raise e { s with node := m } = { raise e s with node := m } := by
  cases hm : s.mode with
  | fatal => simp [raise, raiseMode, emit, hm]
  | idle | encode | decode => cases he : e.fatal <;> simp [raise, raiseMode, emit, hm, he]

namespace AllocatedAlike
variable {s t : State}

/-! What the two states share. -/

/-- What is read without `NODE` is the same in both. -/
theorem read_eq {α : Type} (A : AllocatedAlike s t) (f : State → α) (hf : ∀ m, f { s with node := m } = f s) :
    f t = f s := by
  obtain ⟨m, rfl, _⟩ := A
  exact hf m

theorem mode_eq (A : AllocatedAlike s t) : t.mode = s.mode := A.read_eq State.mode fun _ => rfl
theorem root_eq (A : AllocatedAlike s t) : t.root = s.root := A.read_eq State.root fun _ => rfl
theorem cur_eq (A : AllocatedAlike s t) : t.cur = s.cur := A.read_eq State.cur fun _ => rfl
theorem nalloc_eq (A : AllocatedAlike s t) : t.nalloc = s.nalloc := A.read_eq State.nalloc fun _ => rfl
theorem freq_eq (A : AllocatedAlike s t) : t.freq = s.freq := A.read_eq State.freq fun _ => rfl
theorem q_eq (A : AllocatedAlike s t) : t.q = s.q := A.read_eq State.q fun _ => rfl
theorem config_eq (A : AllocatedAlike s t) : t.config = s.config := A.read_eq State.config fun _ => rfl
theorem pqSize_eq (A : AllocatedAlike s t) : pqSize t = pqSize s := A.read_eq pqSize fun _ => rfl

theorem readNode_eq (A : AllocatedAlike s t) (h : Handle) : readNode t h = readNode s h := by
  obtain ⟨m, _, hm⟩ := A
  cases hr : readNode s h with
  | ok n => exact (readNode_eq_ok t h n).mpr (hm h ▸ (readNode_eq_ok s h n).mp hr)
  | error x => exact (readNode_eq_error t h x).mpr (hm h ▸ (readNode_eq_error s h x).mp hr)

/-! ### BUILD -/

/-- The entry `addNode` allocates is written in both states, so no field it had before can show. -/
theorem withNode (A : AllocatedAlike s t) (hs : s.nalloc.toNat < s.config.arenaSize) (n : Node) :
    AllocatedAlike (withNode s n) (withNode t n) := by
  obtain ⟨m, rfl, hm⟩ := A
  refine ⟨_, rfl, fun h => ?_⟩
  rw [nodeAt_withNode hs, nodeAt_withNode (s := { s with node := m }) hs, hm h]

theorem addNode (A : AllocatedAlike s t) (n : Node) : EndAlike AllocatedAlike (addNode n s) (addNode n t) := by
  by_cases hs : s.nalloc.toNat < s.config.arenaSize
  · rw [addNode_yields hs, addNode_yields (by rwa [A.nalloc_eq, A.config_eq])]
    exact .ok (A.withNode hs n)
  · rw [addNode_full hs, addNode_full (by rwa [A.nalloc_eq, A.config_eq])]
    exact .error _

theorem leafLoop (A : AllocatedAlike s t) (xs : List Symbol) :
    EndAlike AllocatedAlike (leafLoop xs s) (leafLoop xs t) := by
  induction xs generalizing s t with
  | nil => exact .ok A
  | cons x xs ih =>
    simp only [Machine.leafLoop, A.freq_eq]
    split
    · exact ih A
    · exact (A.addNode _).bind fun _ _ A' => ih A'

theorem keysOf_eq (A : AllocatedAlike s t) (hs : List Handle) : keysOf t hs = keysOf s hs := by
  induction hs with
  | nil => rfl
  | cons h hs ih => simp only [keysOf, A.readNode_eq, ih]

theorem pqExtractMin (A : AllocatedAlike s t) : EndAlike HandleAlike (pqExtractMin s) (pqExtractMin t) := by
  simp only [Machine.pqExtractMin, A.keysOf_eq, A.q_eq]
  refine .bind_same _ fun ks => ?_
  obtain ⟨m, rfl, hm⟩ := A
  cases ks with
  | nil => exact .error _
  | cons k ks => exact .ok (.mk _ ⟨m, rfl, hm⟩)

theorem mergeOnce (A : AllocatedAlike s t) : EndAlike AllocatedAlike (mergeOnce s) (mergeOnce t) := by
  refine A.pqExtractMin.bind ?_
  rintro _ _ ⟨a, A⟩
  refine A.pqExtractMin.bind ?_
  rintro _ _ ⟨b, A⟩
  simp only [A.readNode_eq]
  exact .bind_same _ fun na => .bind_same _ fun nb => A.addNode _

theorem mergeLoop (A : AllocatedAlike s t) (k : Nat) : EndAlike AllocatedAlike (mergeLoop k s) (mergeLoop k t) := by
  induction k generalizing s t with
  | zero => exact .ok A
  | succ k ih =>
    simp only [Machine.mergeLoop, A.pqSize_eq]
    split
    · exact A.mergeOnce.bind fun _ _ A' => ih A'
    · exact .ok A

theorem buildBody (A : AllocatedAlike s t) : EndAlike ResultAlike (buildBody s) (buildBody t) := by
  simp only [Machine.buildBody, State.hasSymbol, A.root_eq, A.freq_eq]
  refine .bind_same _ fun _ => .bind_same _ fun _ => (A.leafLoop _).bind fun s1 t1 A1 => ?_
  rw [A1.pqSize_eq]
  refine (A1.mergeLoop _).bind fun s2 t2 A2 => A2.pqExtractMin.bind ?_
  rintro _ _ ⟨h, m, rfl, hm⟩
  exact .ok (.mk _ ⟨m, rfl, hm⟩)

/-! ### GEN -/

theorem walk (A : AllocatedAlike s t) (k : Nat) (h : Handle) (path : List Bool) :
    EndAlike AllocatedAlike (walk k h path s) (walk k h path t) := by
  induction k generalizing h path s t with
  | zero => exact .error _
  | succ k ih =>
    simp only [Machine.walk, A.readNode_eq]
    refine .bind_same _ fun n => ?_
    cases n.kind with
    | leaf => obtain ⟨m, rfl, hm⟩ := A; exact .ok ⟨m, rfl, hm⟩
    | internal => exact (ih A _ _).bind fun _ _ A' => ih A' _ _

theorem genTree (A : AllocatedAlike s t) : EndAlike AllocatedAlike (genTree s) (genTree t) := by
  simp only [Machine.genTree, A.readNode_eq, A.root_eq]
  refine .bind_same _ fun n => ?_
  cases n.kind with
  | leaf => obtain ⟨m, rfl, hm⟩ := A; exact .ok ⟨m, rfl, hm⟩
  | internal => exact A.walk _ _ _

theorem genBody (A : AllocatedAlike s t) : EndAlike ResultAlike (genBody s) (genBody t) := by
  have cleared : AllocatedAlike (clearTable s) (clearTable t) := by
    obtain ⟨m, rfl, hm⟩ := A
    exact ⟨m, rfl, hm⟩
  simp only [Machine.genBody, A.root_eq]
  split
  · exact .ok (.mk _ cleared)
  · exact cleared.genTree.bind fun _ _ A' => .ok (.mk _ A')

/-! ### Every command -/

theorem rdnodeBody (A : AllocatedAlike s t) (h : Handle) : EndAlike ResultAlike (rdnodeBody h s) (rdnodeBody h t) := by
  simp only [Machine.rdnodeBody, A.nalloc_eq, A.readNode_eq]
  exact .bind_same _ fun _ => .bind_same _ fun n => .ok (.mk _ A)

theorem releaseTree (A : AllocatedAlike s t) : AllocatedAlike (releaseTree s) (releaseTree t) := by
  obtain ⟨m, rfl, hm⟩ := A
  unfold Machine.releaseTree
  split
  · exact ⟨m, rfl, hm⟩
  · exact ⟨m, rfl, fun h => by simp [State.nodeAt]⟩

theorem moveCursor (A : AllocatedAlike s t) (b : Bool) :
    EndAlike ResultAlike (moveCursor b s) (moveCursor b t) := by
  simp only [Machine.moveCursor, A.readNode_eq, A.cur_eq]
  refine .bind_same _ fun n => ?_
  cases n.kind with
  | leaf => exact .bind_same _ fun _ => .ok (.mk _ A)
  | internal =>
    refine .bind_same _ fun c => ?_
    obtain ⟨m, rfl, hm⟩ := A
    cases c.kind <;> exact .ok (.mk _ ⟨m, rfl, hm⟩)

theorem decBody (A : AllocatedAlike s t) (v : BitVec 8) : EndAlike ResultAlike (decBody v s) (decBody v t) := by
  unfold Machine.decBody
  split
  · exact .error _
  · exact A.moveCursor _

/-- The pseudocode of a command ends alike in states that differ only in unallocated entries: it reads `NODE` only
where it is allocated, and BUILD writes an entry when it allocates it. -/
theorem bodyOf (A : AllocatedAlike s t) (i : Instr) : EndAlike ResultAlike (bodyOf i s) (bodyOf i t) := by
  cases i with
  | build => exact A.buildBody
  | gen => exact A.genBody
  | rdnode h => exact A.rdnodeBody h
  | release => exact .ok (.mk _ A.releaseTree)
  | dec v => exact A.decBody v
  | nop | rdstat | clrerr | fclr | ldf | rdfreq | rdcode | ebegin | eend =>
    obtain ⟨m, rfl, hm⟩ := A
    exact .ok (.mk _ ⟨m, rfl, hm⟩)
  | count | enc | dbegin | dend =>
    obtain ⟨m, rfl, hm⟩ := A
    exact .bind_same (require _ _) fun _ => .ok (.mk _ ⟨m, rfl, hm⟩)

theorem answer (A : AllocatedAlike s t) (toks : List Token) : AllocatedAlike (answer toks s) (answer toks t) := by
  obtain ⟨m, rfl, hm⟩ := A
  exact ⟨m, rfl, hm⟩

/-- An error keeps what is allocated, or leaves nothing allocated (60_exceptions.md R212). -/
theorem raise (A : AllocatedAlike s t) (e : Error) : AllocatedAlike (raise e s) (raise e t) := by
  obtain ⟨m, rfl, hm⟩ := A
  refine ⟨m, raise_setNode e s m, fun h => ?_⟩
  rw [raise_setNode e s m]
  rcases raise_cases e s with ⟨_, hr⟩ | hr | hr <;> rw [hr]
  · exact hm h
  · exact hm h
  · simp [State.nodeAt]

/-- States that differ only in unallocated entries answer a command alike, and then differ only in such entries. -/
theorem exec (A : AllocatedAlike s t) {i : Instr} {s' : State} (h : exec i s = .next s') :
    ∃ t', exec i t = .next t' ∧ AllocatedAlike s' t' := by
  rcases exec_next h with ⟨hp, u, toks, hb, rfl⟩ | ⟨hp, e, hb, rfl⟩ | ⟨hp, rfl⟩ <;> rw [← A.mode_eq] at hp
  · obtain ⟨_, hbt, ⟨_, Au⟩⟩ := (A.bodyOf i).ok_right hb
    exact ⟨_, (exec_eq_command i t).trans (command_ok ((mem_modesOf _ _).mpr hp) hbt), Au.answer toks⟩
  · have hbt := (A.bodyOf i).error_right hb
    exact ⟨_, (exec_eq_command i t).trans (command_raised ((mem_modesOf _ _).mpr hp) hbt), A.raise e⟩
  · exact ⟨_, exec_wrong_mode hp, A.raise _⟩

end AllocatedAlike

/-- Settles O56: every command's pseudocode, its answer and its error keep `AllocatedAlike`. -/
theorem unallocatedNodesNeverShow : Obligations.UnallocatedNodesNeverShow := by
  intro i s t m hm h
  obtain ⟨_, hx, m', rfl, hm'⟩ := AllocatedAlike.exec ⟨m, rfl, hm⟩ h
  exact ⟨m', hx, hm'⟩

end Sys2Proof.Machine
end

