-- ==== Sys2Proof/Proofs/Encoding.lean ====
section
/-! PROOFS. 30_encoding.md: decoding and encoding are inverse to each other on the words of the opcode map (R70 to R73,
R76), the assembler writes those words (R85, R86), a word outside the map is reserved and illegal (R77), and a response
is tokens of the command's own and one status token (R75, R80 to R82). -/

namespace Sys2Proof

/-! ### Words and their fields (R70) -/

/-- A word is packed from some fields exactly if they are its fields. -/
theorem packWord_eq_iff {op a : BitVec 8} {d : BitVec 32} {w : Word} :
    packWord op a d = w ↔ opField w = op ∧ aField w = a ∧ dField w = d := by
  constructor
  · rintro rfl
    simp
  · rintro ⟨rfl, rfl, rfl⟩
    exact packWord_fields w

/-- The bits of `d` above the handle are zero exactly if `d` is the handle, zero-extended. -/
theorem aboveHandleField_eq_zero {w : Word} :
    aboveHandleField w = 0#23 ↔ (handleField w).setWidth 32 = dField w := by
  have hlt := (dField w).isLt
  rw [aboveHandleField_eq, handleField_eq, ← BitVec.toNat_inj, ← BitVec.toNat_inj]
  simp only [BitVec.extractLsb'_toNat, BitVec.toNat_setWidth, BitVec.toNat_ofNat, Nat.shiftRight_eq_div_pow]
  omega

theorem handleField_packWord (op a : BitVec 8) (h : Handle) : handleField (packWord op a (h.setWidth 32)) = h := by
  rw [handleField_eq, dField_packWord]
  apply BitVec.eq_of_toNat_eq
  have := h.isLt
  simp only [BitVec.extractLsb'_toNat, BitVec.toNat_setWidth, Nat.shiftRight_eq_div_pow]
  omega

/-! ### Decoding a command's word (R71, R72) -/

theorem formatZ_packWord (op : BitVec 8) (i : Instr) : formatZ (packWord op 0#8 0#32) i = .ok i := by
  simp [formatZ]

theorem formatA_packWord (op a : BitVec 8) (i : BitVec 8 → Instr) :
    formatA (packWord op a 0#32) i = .ok (i a) := by
  simp [formatA]

theorem formatAD_packWord (op a : BitVec 8) (d : BitVec 32) (i : BitVec 8 → BitVec 32 → Instr) :
    formatAD (packWord op a d) i = .ok (i a d) := by
  simp [formatAD]

theorem formatH_packWord (op : BitVec 8) (h : Handle) (i : Handle → Instr) :
    formatH (packWord op 0#8 (h.setWidth 32)) i = .ok (i h) := by
  have hd : aboveHandleField (packWord op 0#8 (h.setWidth 32)) = 0#23 :=
    aboveHandleField_eq_zero.mpr (by rw [handleField_packWord, dField_packWord])
  simp [formatH, hd, handleField_packWord]

theorem decode_encode (i : Instr) : decode (encode i) = .ok i := by
  cases i with
  | nop | rdstat | clrerr | fclr | build | release | gen | ebegin | eend | dbegin | dend =>
    simp only [encode, decode, opField_packWord, formatZ_packWord]
  | count | rdfreq | rdcode | enc | dec => simp only [encode, decode, opField_packWord, formatA_packWord]
  | ldf => simp only [encode, decode, opField_packWord, formatAD_packWord]
  | rdnode => simp only [encode, decode, opField_packWord, formatH_packWord]

/-- Settles O1: the opcode of a command's word selects the command's arm, whose format reads the operands back. -/
theorem decodeOfEncodeIsTheCommand : Obligations.DecodeOfEncodeIsTheCommand := decode_encode

theorem encode_injective : Function.Injective encode := by
  intro i j h
  have hd : decode (encode i) = .ok j := h ▸ decode_encode j
  exact Except.ok.inj ((decode_encode i).symm.trans hd)

/-! ### A word that decodes is the command's word (R73) -/

section
variable {w : Word} {op : BitVec 8} {j : Instr}

theorem encode_of_formatZ {i : Instr} (hop : opField w = op) (hi : encode i = packWord op 0#8 0#32)
    (h : formatZ w i = .ok j) : encode j = w := by
  unfold formatZ at h
  split at h
  · rename_i hz
    cases h
    exact hi.trans (packWord_eq_iff.mpr ⟨hop, hz⟩)
  · cases h

theorem encode_of_formatA {i : BitVec 8 → Instr} (hop : opField w = op) (hi : ∀ a, encode (i a) = packWord op a 0#32)
    (h : formatA w i = .ok j) : encode j = w := by
  unfold formatA at h
  split at h
  · rename_i hz
    cases h
    exact (hi _).trans (packWord_eq_iff.mpr ⟨hop, rfl, hz⟩)
  · cases h

theorem encode_of_formatAD {i : BitVec 8 → BitVec 32 → Instr} (hop : opField w = op)
    (hi : ∀ a d, encode (i a d) = packWord op a d) (h : formatAD w i = .ok j) : encode j = w := by
  cases h
  exact (hi _ _).trans (packWord_eq_iff.mpr ⟨hop, rfl, rfl⟩)

theorem encode_of_formatH {i : Handle → Instr} (hop : opField w = op)
    (hi : ∀ x, encode (i x) = packWord op 0#8 (x.setWidth 32)) (h : formatH w i = .ok j) : encode j = w := by
  unfold formatH at h
  split at h
  · rename_i hz
    cases h
    exact (hi _).trans (packWord_eq_iff.mpr ⟨hop, hz.1, (aboveHandleField_eq_zero.mp hz.2).symm⟩)
  · cases h

end

/-- The arms of `decode` stand in the order of `opcodeTable`, so each arm's format is its row's; the last refuses. -/
theorem encode_of_decode {w : Word} {i : Instr} (h : decode w = .ok i) : encode i = w := by
  unfold decode at h
  split at h
  case h_1 hop | h_2 hop | h_3 hop | h_4 hop | h_8 hop | h_10 hop | h_11 hop | h_13 hop | h_15 hop | h_16 hop |
    h_18 hop => exact encode_of_formatZ hop rfl h
  case h_5 hop | h_7 hop | h_12 hop | h_14 hop | h_17 hop => exact encode_of_formatA hop (fun _ => rfl) h
  case h_6 hop => exact encode_of_formatAD hop (fun _ _ => rfl) h
  case h_9 hop => exact encode_of_formatH hop (fun _ => rfl) h
  case h_19 => cases h

/-! ### The opcode map (R73, R76) -/

/-- The word of a command selects the command's row. -/
theorem encode_selects (i : Instr) : Laws.EncodesItsRow.Statement i := by
  cases i with
  | nop => exact Laws.EncodesItsRow.nop
  | rdstat => exact Laws.EncodesItsRow.rdstat
  | clrerr => exact Laws.EncodesItsRow.clrerr
  | fclr => exact Laws.EncodesItsRow.fclr
  | count sym => exact Laws.EncodesItsRow.count sym
  | ldf sym cnt => exact Laws.EncodesItsRow.ldf sym cnt
  | rdfreq sym => exact Laws.EncodesItsRow.rdfreq sym
  | build => exact Laws.EncodesItsRow.build
  | rdnode handle => exact Laws.EncodesItsRow.rdnode handle
  | release => exact Laws.EncodesItsRow.release
  | gen => exact Laws.EncodesItsRow.gen
  | rdcode sym => exact Laws.EncodesItsRow.rdcode sym
  | ebegin => exact Laws.EncodesItsRow.ebegin
  | enc sym => exact Laws.EncodesItsRow.enc sym
  | eend => exact Laws.EncodesItsRow.eend
  | dbegin => exact Laws.EncodesItsRow.dbegin
  | dec bitval => exact Laws.EncodesItsRow.dec bitval
  | dend => exact Laws.EncodesItsRow.dend

/-- A row whose mask covers the opcode looks at the fields one by one. -/
theorem selects_packWord {m : String} {op a ma : BitVec 8} {d md : BitVec 32} {w : Word}
    (h : OpRow.selects ⟨m, packWord op a d, packWord 0xFF#8 ma md⟩ w = true) :
    opField w = op ∧ aField w &&& ma = a ∧ dField w &&& md = d := by
  have hall : opField w &&& 0xFF#8 = opField w := BitVec.and_allOnes
  rw [OpRow.selects, beq_iff_eq, ← packWord_fields w, packWord_and, hall] at h
  simpa using packWord_eq_iff.mp h.symm

/-- A word that selects the row of a command without operand is the row's pattern. -/
theorem pattern_of_selects_formatZ {m : String} {p w : Word} (h : OpRow.selects ⟨m, p, 0xFFFFFFFFFFFF#48⟩ w = true) :
    p = w := by
  rw [OpRow.selects, beq_iff_eq, show w &&& 0xFFFFFFFFFFFF#48 = w from BitVec.and_allOnes] at h
  exact h.symm

theorem packWord_of_selects_formatA {m : String} {op : BitVec 8} {w : Word}
    (h : OpRow.selects ⟨m, packWord op 0#8 0#32, packWord 0xFF#8 0x00#8 0xFFFFFFFF#32⟩ w = true) :
    packWord op (aField w) 0#32 = w := by
  obtain ⟨hop, _, hd⟩ := selects_packWord h
  exact packWord_eq_iff.mpr ⟨hop, rfl, BitVec.and_allOnes.symm.trans hd⟩

theorem packWord_of_selects_formatAD {m : String} {op : BitVec 8} {w : Word}
    (h : OpRow.selects ⟨m, packWord op 0#8 0#32, packWord 0xFF#8 0x00#8 0#32⟩ w = true) :
    packWord op (aField w) (dField w) = w := by
  obtain ⟨hop, _, _⟩ := selects_packWord h
  exact packWord_eq_iff.mpr ⟨hop, rfl, rfl⟩

theorem packWord_of_selects_formatH {m : String} {op : BitVec 8} {w : Word}
    (h : OpRow.selects ⟨m, packWord op 0#8 0#32, packWord 0xFF#8 0xFF#8 0xFFFFFE00#32⟩ w = true) :
    packWord op 0#8 ((handleField w).setWidth 32) = w := by
  obtain ⟨hop, ha, hd⟩ := selects_packWord h
  have hones : (0xFFFFFE00#32).extractLsb' 9 23 = BitVec.allOnes 23 := by decide
  have habove : aboveHandleField w = 0#23 := by
    rw [aboveHandleField_eq, ← BitVec.and_allOnes (x := (dField w).extractLsb' 9 23), ← hones,
      ← BitVec.extractLsb'_and, hd]
    rfl
  exact packWord_eq_iff.mpr ⟨hop, BitVec.and_allOnes.symm.trans ha, (aboveHandleField_eq_zero.mp habove).symm⟩

theorem encode_of_selects {r : OpRow} {w : Word} (hr : r ∈ opcodeTable) (h : r.selects w = true) :
    ∃ i : Instr, i.mnemonic = r.mnemonic ∧ encode i = w := by
  simp only [opcodeTable, List.cons_append, List.nil_append, List.mem_cons, List.not_mem_nil, or_false] at hr
  rcases hr with rfl | rfl | rfl | rfl | rfl | rfl | rfl | rfl | rfl | rfl | rfl | rfl | rfl | rfl | rfl | rfl | rfl | rfl
  · exact ⟨.nop, rfl, pattern_of_selects_formatZ h⟩
  · exact ⟨.rdstat, rfl, pattern_of_selects_formatZ h⟩
  · exact ⟨.clrerr, rfl, pattern_of_selects_formatZ h⟩
  · exact ⟨.fclr, rfl, pattern_of_selects_formatZ h⟩
  · exact ⟨.count _, rfl, packWord_of_selects_formatA h⟩
  · exact ⟨.ldf _ _, rfl, packWord_of_selects_formatAD h⟩
  · exact ⟨.rdfreq _, rfl, packWord_of_selects_formatA h⟩
  · exact ⟨.build, rfl, pattern_of_selects_formatZ h⟩
  · exact ⟨.rdnode _, rfl, packWord_of_selects_formatH h⟩
  · exact ⟨.release, rfl, pattern_of_selects_formatZ h⟩
  · exact ⟨.gen, rfl, pattern_of_selects_formatZ h⟩
  · exact ⟨.rdcode _, rfl, packWord_of_selects_formatA h⟩
  · exact ⟨.ebegin, rfl, pattern_of_selects_formatZ h⟩
  · exact ⟨.enc _, rfl, packWord_of_selects_formatA h⟩
  · exact ⟨.eend, rfl, pattern_of_selects_formatZ h⟩
  · exact ⟨.dbegin, rfl, pattern_of_selects_formatZ h⟩
  · exact ⟨.dec _, rfl, packWord_of_selects_formatA h⟩
  · exact ⟨.dend, rfl, pattern_of_selects_formatZ h⟩

theorem opcodeTable_mnemonic_nodup : (opcodeTable.map (·.mnemonic)).Nodup := by decide

/-- A word that selects no row is one that decodes to no command (R73, R77). -/
theorem no_row_iff_reserved {w : Word} : (∀ r ∈ opcodeTable, r.selects w = false) ↔ ∃ e, decode w = .error e := by
  constructor
  · intro hno
    cases hd : decode w with
    | error e => exact ⟨e, rfl⟩
    | ok i =>
      obtain ⟨r, hr, _, hs⟩ := encode_selects i
      rw [encode_of_decode hd, hno r hr] at hs
      cases hs
  · rintro ⟨e, he⟩ r hr
    refine Bool.eq_false_iff.mpr fun hs => ?_
    obtain ⟨i, _, rfl⟩ := encode_of_selects hr hs
    cases (decode_encode i).symm.trans he

/-- Settles O2: a row is selected exactly by the words of its command, and decoding is the inverse of encoding. -/
theorem decodingIsTheOpcodeMap : Obligations.DecodingIsTheOpcodeMap := by
  refine ⟨fun w i h => ?_, fun w r hr r' hr' h h' => ?_, fun w => no_row_iff_reserved⟩
  · have hw := encode_of_decode h
    exact ⟨hw, hw ▸ encode_selects i⟩
  · obtain ⟨i, hi, rfl⟩ := encode_of_selects hr h
    obtain ⟨j, hj, hw⟩ := encode_of_selects hr' h'
    obtain rfl := encode_injective hw
    exact List.inj_on_of_nodup_map opcodeTable_mnemonic_nodup hr hr' (hi.symm.trans hj)

/-- Settles O3: a legal word is the encoding of its command, and each reserved one fails its own check. -/
theorem writtenOutWordsDecode : Obligations.WrittenOutWordsDecode :=
  ⟨decode_encode .rdstat, decode_encode (.count 0x61), decode_encode (.ldf 0x62 5), decode_encode (.rdnode 4),
    decode_encode .release, decode_encode (.rdcode 0xFF), decode_encode (.enc 0x64), decode_encode (.dec 2), rfl, rfl⟩

/-! ### The assembler (R85, R86) -/

theorem assemble_of_wellFormed {l : Asm} (h : l.wellFormed = true) : l.assemble = some (l.expand.map encode) :=
  if_pos h

theorem assemble_of_not_wellFormed {l : Asm} (h : ¬ l.wellFormed = true) : l.assemble = none :=
  if_neg h

theorem fitsByte_iff {n : Nat} : fitsByte n = true ↔ n ≤ 255 := decide_eq_true_iff

theorem fitsCount_iff {n : Nat} : fitsCount n = true ↔ n ≤ 2 ^ 32 - 1 := decide_eq_true_iff

theorem fitsHandle_iff {n : Nat} : fitsHandle n = true ↔ n ≤ 511 := decide_eq_true_iff

theorem isDigit_iff {n : Nat} : isDigit n = true ↔ n ≤ 1 := decide_eq_true_iff

/-- An entry of LDF or LDFT fits if its symbol and its count do. -/
theorem fitsEntry_iff {x c : Nat} : (fitsByte x && fitsCount c) = true ↔ x ≤ 255 ∧ c ≤ 2 ^ 32 - 1 := by
  rw [Bool.and_eq_true, fitsByte_iff, fitsCount_iff]

/-- A handle that fits stands in field `d` as the number written. -/
theorem setWidth_handle {h : Nat} (hh : h ≤ 511) : (BitVec.ofNat 9 h).setWidth 32 = BitVec.ofNat 32 h := by
  apply BitVec.eq_of_toNat_eq
  simp only [BitVec.toNat_setWidth, BitVec.toNat_ofNat]
  omega

theorem map_encode_expandCounts (text : List Nat) :
    (expandCounts text).map encode = text.map fun c => packWord 0x11#8 (BitVec.ofNat 8 c) 0#32 :=
  List.map_map

theorem map_encode_expandEncs (text : List Nat) :
    (expandEncs text).map encode = text.map fun c => packWord 0x41#8 (BitVec.ofNat 8 c) 0#32 :=
  List.map_map

theorem map_encode_expandDecs (bits : List Nat) :
    (expandDecs bits).map encode = bits.map fun b => packWord 0x51#8 (BitVec.ofNat 8 b) 0#32 :=
  List.map_map

/-- Settles O5: a line is the words of its expansion if its operands fit, and nothing otherwise. -/
theorem assemblerPlacesOperands : Obligations.AssemblerPlacesOperands := by
  refine ⟨⟨rfl, rfl, rfl, rfl, rfl, rfl, rfl, rfl, rfl, rfl, rfl⟩, fun x hx => ?_, fun x c hx hc => ?_,
    fun h hh => ?_, fun x hx => ?_, fun x c hxc => ?_, fun h hh => ?_, fun text ht => ?_, fun bits hb => ?_,
    fun entries he => ?_, fun text ⟨c, hc, hlt⟩ => ?_, fun bits ⟨b, hb, hlt⟩ => ?_, fun entries ⟨e, he, hlt⟩ => ?_⟩
  · have hw := fitsByte_iff.mpr hx
    exact ⟨assemble_of_wellFormed hw, assemble_of_wellFormed hw, assemble_of_wellFormed hw, assemble_of_wellFormed hw,
      assemble_of_wellFormed hw⟩
  · exact assemble_of_wellFormed (fitsEntry_iff.mpr ⟨hx, hc⟩)
  · rw [← setWidth_handle hh]
    exact assemble_of_wellFormed (fitsHandle_iff.mpr hh)
  · have hw := mt fitsByte_iff.mp hx.not_ge
    exact ⟨assemble_of_not_wellFormed hw, assemble_of_not_wellFormed hw, assemble_of_not_wellFormed hw,
      assemble_of_not_wellFormed hw, assemble_of_not_wellFormed hw⟩
  · exact assemble_of_not_wellFormed fun hw => by have := fitsEntry_iff.mp hw; omega
  · exact assemble_of_not_wellFormed (mt fitsHandle_iff.mp hh.not_ge)
  · have hw : text.all fitsByte = true := List.all_eq_true.mpr fun c hc => fitsByte_iff.mpr (ht c hc)
    rw [← map_encode_expandCounts, ← map_encode_expandEncs]
    refine ⟨assemble_of_wellFormed hw, assemble_of_wellFormed hw,
      (assemble_of_wellFormed (l := .compress text) hw).trans ?_⟩
    simp only [Asm.expand, List.map_append]
    rfl
  · have hw : bits.all isDigit = true := List.all_eq_true.mpr fun b hm => isDigit_iff.mpr (hb b hm)
    rw [← map_encode_expandDecs]
    refine ⟨assemble_of_wellFormed hw, (assemble_of_wellFormed (l := .decompress bits) hw).trans ?_⟩
    simp only [Asm.expand, List.map_append]
    rfl
  · have hw : (Asm.ldft entries).wellFormed = true := List.all_eq_true.mpr fun e hm => fitsEntry_iff.mpr (he e hm)
    rw [assemble_of_wellFormed hw, Asm.expand, List.map_cons, List.map_map]
    rfl
  · have hw : ¬ text.all fitsByte = true := fun h => hlt.not_ge (fitsByte_iff.mp (List.all_eq_true.mp h c hc))
    exact ⟨assemble_of_not_wellFormed hw, assemble_of_not_wellFormed hw, assemble_of_not_wellFormed hw⟩
  · have hw : ¬ bits.all isDigit = true := fun h => hlt.not_ge (isDigit_iff.mp (List.all_eq_true.mp h b hb))
    exact ⟨assemble_of_not_wellFormed hw, assemble_of_not_wellFormed hw⟩
  · refine assemble_of_not_wellFormed fun hw => ?_
    have := fitsEntry_iff.mp (List.all_eq_true.mp hw e he)
    omega

end Sys2Proof

namespace Sys2Proof.Machine

/-! ### A reserved word (R77) -/

/-- `raise IllegalCommand` in every mode: the record, the abort of an open frame, the answer (60_exceptions.md R212). -/
theorem raise_illegalCommand (s : State) :
    raise .illegalCommand s = { s with
      err  := if s.err = 0 then 7 else s.err
      mode := if s.mode = .encode ∨ s.mode = .decode then .idle else s.mode
      cur  := if s.mode = .encode ∨ s.mode = .decode then NIL else s.cur
      out  := s.out ++ [.st 7] } := by
  by_cases hf : s.mode = .encode ∨ s.mode = .decode
  · rw [raise_in_frame hf rfl, if_pos hf, if_pos hf]
    rfl
  · rw [if_neg hf, if_neg hf]
    cases hm : s.mode with
    | idle => rw [raise_in_idle hm rfl, hm]; rfl
    | fatal => rw [raise_in_fatal hm, hm]; rfl
    | encode => exact absurd (.inl hm) hf
    | decode => exact absurd (.inr hm) hf

/-- Settles O7: a word that selects no row does not decode, so the step is `raise IllegalCommand`. -/
theorem reservedWordIsIllegal : Obligations.ReservedWordIsIllegal := by
  intro s w rest hp hno
  obtain ⟨e, he⟩ := no_row_iff_reserved.mp hno
  calc step s = runWord w (takeEvent rest s) := step_event hp
    _ = .next (raise .illegalCommand (takeEvent rest s)) := by simp only [runWord, he]
    _ = _ := by rw [raise_illegalCommand]; rfl

/-! ### Tokens (R80, R81) -/

/-- The value of a token's word, from its kind and its payload. -/
theorem toNat_kind_append (k : BitVec 8) (v : BitVec 32) : (k ++ v).toNat = k.toNat * 2 ^ 32 + v.toNat := by
  rw [BitVec.toNat_append, ← Nat.shiftLeft_add_eq_or_of_lt v.isLt, Nat.shiftLeft_eq]

/-- Settles O4: the payload fills the low 32 bits, zero-extended, below the kind. -/
theorem tokenWordsHaveTheirKinds : Obligations.TokenWordsHaveTheirKinds := by
  refine ⟨fun c => ?_, fun b => ?_, fun x => ?_, fun w => toNat_kind_append 0x03#8 w⟩
  · rw [Token.word, toNat_kind_append, BitVec.toNat_setWidth_of_le (by decide)]
    exact Nat.zero_add _
  · rw [Token.word, toNat_kind_append]
    cases b <;> rfl
  · rw [Token.word, toNat_kind_append, BitVec.toNat_setWidth_of_le (by decide)]
    rfl

/-! ### Responses (R75, R82) -/

/-- The tokens a command may emit before its status token (R81). -/
inductive OwnTokens : Instr → List Token → Prop where
  | silent (i : Instr) : OwnTokens i []
  | bits (x : Symbol) (bs : List Bool) : OwnTokens (.enc x) (bs.map .bit)
  | symbol (v : BitVec 8) (y : Symbol) : OwnTokens (.dec v) [.sym y]
  | words (i : Instr) (hi : readsOnly i = true) (hn : i ≠ .nop) (ws : List (BitVec 32)) : OwnTokens i (ws.map .data)

/-- What R75 and R81 say of a command's own tokens. -/
theorem OwnTokens.kinds {i : Instr} {toks : List Token} (h : OwnTokens i toks) :
    (∀ k, .st k ∉ toks) ∧ (∀ b, .bit b ∈ toks → ∃ x, i = .enc x) ∧
      (∀ y, .sym y ∈ toks → toks = [.sym y] ∧ ∃ v, i = .dec v) ∧
      (∀ w, .data w ∈ toks → readsOnly i = true ∧ i ≠ .nop) := by
  cases h with
  | silent => simp
  | bits x bs => simp
  | symbol v y => simp
  | words _ hi hn ws => simp [hi, hn]

/-- The pseudocode of a command ends with tokens of the command's own. -/
theorem bodyOf_ownTokens {i : Instr} {s t : State} {toks : List Token} (h : bodyOf i s = .ok (t, toks)) :
    OwnTokens i toks := by
  cases i with
  | nop | clrerr | fclr | ldf | release | ebegin | eend => cases h; exact .silent _
  | count => obtain ⟨_, rfl, _⟩ := countBody_ok.mp h; exact .silent _
  | build => obtain ⟨_, rfl, _⟩ := buildBody_ok h; exact .silent _
  | gen => obtain ⟨rfl, _⟩ := genBody_ok h; exact .silent _
  | dbegin => obtain ⟨_, rfl, _⟩ := dbeginBody_ok.mp h; exact .silent _
  | dend => obtain ⟨_, rfl, _⟩ := dendBody_ok.mp h; exact .silent _
  | enc x => obtain ⟨_, _, rfl⟩ := encBody_ok.mp h; exact .bits x _
  | dec v =>
    obtain ⟨_, _, _, _, ⟨_, _, _, rfl⟩ | ⟨_, _, _, ⟨_, _, rfl⟩ | ⟨_, _, rfl⟩⟩⟩ := decBody_ok.mp h
    · exact .symbol v _
    · exact .symbol v _
    · exact .silent _
  | rdstat => cases h; exact .words .rdstat rfl nofun [s.status0, s.status1]
  | rdfreq x => cases h; exact .words (.rdfreq x) rfl nofun [readTable s.freq x]
  | rdnode k =>
    obtain ⟨n, _, _, rfl⟩ := rdnodeBody_ok.mp h
    exact .words (.rdnode k) rfl nofun [n.word0, n.word1, n.word2]
  | rdcode x =>
    cases h
    have hw := OwnTokens.words (.rdcode x) rfl nofun ((readTable s.clen x).setWidth 32 :: (s.code x).map bitWord)
    rwa [List.map_cons, List.map_map] at hw

/-- No unit writes `OUT`: it grows only when the command answers. -/
theorem OwnedOnly.out {u : HwUnit} {s t : State} (h : OwnedOnly u s t) : t.out = s.out := by
  cases u <;> (unfold OwnedOnly at h; rw [h])

/-- Settles O53: a command answers with its own tokens and `ST(0)`, or raises and answers with `ST(E)` alone. -/
theorem responsesHaveTheirShape : Obligations.ResponsesHaveTheirShape := by
  intro i s t h
  rcases exec_answers_or_raises h with ⟨_, s', toks, hb, rfl⟩ | ⟨e, _, rfl, _⟩
  · obtain ⟨hst, hkinds⟩ := (bodyOf_ownTokens hb).kinds
    exact ⟨toks, 0, by simp [(bodyOf_ownedOnly hb).out], hst, fun hc => absurd rfl hc, hkinds⟩
  · obtain ⟨hst, hkinds⟩ := (OwnTokens.silent i).kinds
    exact ⟨[], e.code, by simp, hst, fun _ => rfl, hkinds⟩

end Sys2Proof.Machine
end

