-- ==== Sys2Proof/Proofs/Frequency.lean ====
section
/-! PROOFS. 40_frequency.md: what each frequency table command does to the counters (R100 to R103), and what a run of
COUNTs over an input leaves in them (R104). -/

namespace Sys2Proof.Machine

/-! ### A command that its mode permits -/

/-- A permitted command whose pseudocode ends answers. -/
theorem exec_of_ok {i : Instr} {s s' : State} {toks : List Token} (hp : permits i s.mode = true)
    (hb : bodyOf i s = .ok (s', toks)) : exec i s = .next (answer toks s') := by
  rw [exec_eq_command]
  exact command_ok ((mem_modesOf _ _).mpr hp) hb

/-- A permitted command whose pseudocode raises takes that error. -/
theorem exec_of_raised {i : Instr} {s : State} {e : Error} (hp : permits i s.mode = true)
    (hb : bodyOf i s = .error (.raised e)) : exec i s = .next (raise e s) := by
  rw [exec_eq_command]
  exact command_raised ((mem_modesOf _ _).mpr hp) hb

/-- A command of the IDLE rows of R214 is permitted in IDLE. -/
theorem permits_of_idle {i : Instr} {m : Mode} (hi : modesOf i = idleOnly) (hm : m = .idle) :
    permits i m = true := by
  rw [← mem_modesOf, hi, hm]
  exact List.mem_singleton_self _

/-- A command of the IDLE rows of R214 raises `IllegalCommand` in every other mode. -/
theorem exec_outside_idle {i : Instr} {s : State} (hi : modesOf i = idleOnly) (hm : s.mode ≠ .idle) :
    exec i s = .next (raise .illegalCommand s) := by
  rw [exec_eq_command, hi]
  exact command_wrong_mode (mt List.mem_singleton.mp hm)

/-! ### FCLR, LDF, RDFREQ (R100, R102, R103) -/

theorem exec_fclr_idle {s : State} (hm : s.mode = .idle) :
    exec .fclr s = .next { s with freq := Vector.replicate 256 0, out := s.out ++ [.st 0] } :=
  exec_of_ok (i := .fclr) (s' := { s with freq := Vector.replicate 256 0 }) (permits_of_idle rfl hm) rfl

theorem exec_ldf_idle {s : State} (sym : Symbol) (cnt : Count) (hm : s.mode = .idle) :
    exec (.ldf sym cnt) s = .next { s with freq := writeTable s.freq sym cnt, out := s.out ++ [.st 0] } :=
  exec_of_ok (i := .ldf sym cnt) (s' := { s with freq := writeTable s.freq sym cnt }) (permits_of_idle rfl hm) rfl

theorem exec_rdfreq_permitted {s : State} (sym : Symbol) (hm : s.mode ≠ .fatal) :
    exec (.rdfreq sym) s = .next { s with out := s.out ++ [.data (readTable s.freq sym), .st 0] } :=
  exec_of_ok (i := .rdfreq sym) (s' := s) (bne_iff_ne.mpr hm) rfl

/-- Settles O16: the pseudocode ends with the all-zero table. -/
theorem fclrClearsEveryCounter : Obligations.FclrClearsEveryCounter :=
  ⟨decode_encode .fclr, fun _ =>
    ⟨fun hm => ⟨_, exec_fclr_idle hm, readTable_replicate 0⟩, exec_outside_idle rfl⟩⟩

/-- Settles O18: the pseudocode ends with the table written at one symbol. -/
theorem ldfLoadsOneCounter : Obligations.LdfLoadsOneCounter :=
  ⟨fun x c => decode_encode (.ldf x c), fun s sym cnt =>
    ⟨fun hm => ⟨_, exec_ldf_idle sym cnt hm, readTable_writeTable_same s.freq sym cnt,
      fun x => readTable_writeTable_other s.freq sym x cnt⟩, exec_outside_idle rfl⟩⟩

/-- Settles O19: the pseudocode ends in the state it began in, and FATAL is the one mode that does not permit it. -/
theorem rdfreqReadsOneCounter : Obligations.RdfreqReadsOneCounter :=
  ⟨fun x => decode_encode (.rdfreq x), fun _ sym =>
    ⟨exec_rdfreq_permitted sym, fun hm => exec_wrong_mode (by rw [hm]; rfl)⟩⟩

/-! ### COUNT (R101) -/

/-- The counter has no room for one more: it holds `2^32 - 1`. -/
def AtTop (f : Vector Count 256) (y : Symbol) : Prop := readTable f y = 0xFFFFFFFF#32

theorem atTop_iff {f : Vector Count 256} {y : Symbol} : AtTop f y ↔ (readTable f y).toNat = 2 ^ 32 - 1 :=
  BitVec.toNat_inj.symm

/-- The table with one more at `y`. -/
def addOne (f : Vector Count 256) (y : Symbol) : Vector Count 256 := writeTable f y (readTable f y + 1)

theorem addOne_other {f : Vector Count 256} {x y : Symbol} (h : x ≠ y) : readTable (addOne f y) x = readTable f x :=
  readTable_writeTable_other f y x _ h

/-- Below the top the addition does not wrap. -/
theorem addOne_same {f : Vector Count 256} {y : Symbol} (h : ¬ AtTop f y) :
    (readTable (addOne f y) y).toNat = (readTable f y).toNat + 1 := by
  rw [addOne, readTable_writeTable_same]
  unfold AtTop at h
  bv_omega

/-- The state in which COUNT of `y` ends. -/
def countedState (s : State) (y : Symbol) : State := answer [] { s with freq := addOne s.freq y }

theorem exec_count_below {s : State} {y : Symbol} (hm : s.mode = .idle) (h : ¬ AtTop s.freq y) :
    exec (.count y) s = .next (countedState s y) :=
  exec_of_ok (permits_of_idle rfl hm) (countBody_ok.mpr ⟨h, rfl, rfl⟩)

theorem countBody_atTop {s : State} {y : Symbol} (h : AtTop s.freq y) :
    countBody y s = .error (.raised .countOverflow) := by
  have hreq := require_not (c := readTable s.freq y ≠ 0xFFFFFFFF#32) (not_not.mpr h) .countOverflow
  rw [countBody, hreq, proc_bind_error]

theorem exec_count_atTop {s : State} {y : Symbol} (hm : s.mode = .idle) (h : AtTop s.freq y) :
    exec (.count y) s = .next (raise .countOverflow s) :=
  exec_of_raised (permits_of_idle rfl hm) (countBody_atTop h)

/-- Settles O17: the counter is below its top, at its top, or the mode is wrong. -/
theorem countAddsOne : Obligations.CountAddsOne := by
  refine ⟨fun x => decode_encode (.count x), fun s sym => ⟨fun hm hlt => ?_, fun hm htop => ?_, exec_outside_idle rfl⟩⟩
  · have hbelow : ¬ AtTop s.freq sym := fun h => hlt.ne (atTop_iff.mp h)
    exact ⟨_, exec_count_below hm hbelow, addOne_same hbelow, fun _ => addOne_other⟩
  · exact exec_count_atTop hm (atTop_iff.mpr htop)

/-! ### A run of COUNTs (R104) -/

/-- After one COUNT below the top, the counters exceed the old ones by the occurrences in the input of one byte. -/
theorem addOne_toNat {f : Vector Count 256} {y : Symbol} (h : ¬ AtTop f y) (x : Symbol) (ys : List Symbol) :
    (readTable (addOne f y) x).toNat + ys.count x = (readTable f x).toNat + (y :: ys).count x := by
  by_cases hx : x = y
  · subst hx
    rw [addOne_same h, List.count_cons_self]
    omega
  · rw [addOne_other hx, List.count_cons_of_ne (Ne.symm hx)]

/-- Every command of the transcript was answered `ST(0)`. -/
def AllAccepted (t : List Exchange) : Prop := ∀ x ∈ t, x.accepted = true

/-- What a run of COUNTs over `input` says of its transcript and of the state it ends in. -/
structure CountsFrom (s : State) (input : List Symbol) (t : List Exchange) (u : State) : Prop where
  /-- If none raises, only the counters and OUT move, and each counter grows by the occurrences of its symbol. -/
  grown : AllAccepted t → u = { s with freq := u.freq, out := u.out } ∧
    ∀ x, (readTable u.freq x).toNat = (readTable s.freq x).toNat + input.count x
  /-- If no counter has to pass its top, none raises. -/
  room : (∀ x, (readTable s.freq x).toNat + input.count x ≤ 2 ^ 32 - 1) → AllAccepted t

theorem CountsFrom.nil (s : State) : CountsFrom s [] [] s :=
  ⟨fun _ => ⟨rfl, fun _ => rfl⟩, fun _ => List.forall_mem_nil _⟩

/-- The exchange of a COUNT that adds one. -/
theorem accepted_count_below (s : State) (y : Symbol) :
    (⟨.cmd (encode (.count y)), tokensSince s (countedState s y)⟩ : Exchange).accepted = true := by
  have htoks : tokensSince s (countedState s y) = [.st 0] := tokensSince_emit _ s
  rw [htoks]
  rfl

/-- The exchange of a COUNT that raises. -/
theorem not_accepted_count_atTop (s : State) (y : Symbol) :
    (⟨.cmd (encode (.count y)), tokensSince s (raise .countOverflow s)⟩ : Exchange).accepted = false := by
  have htoks : tokensSince s (raise .countOverflow s) = [.st 6] := by simp [tokensSince, Error.code]
  rw [htoks]
  rfl

theorem CountsFrom.cons_below {s u : State} {y : Symbol} {ys : List Symbol} {t : List Exchange} {x : Exchange}
    (hx : x.accepted = true) (h : ¬ AtTop s.freq y) (run : CountsFrom (countedState s y) ys t u) :
    CountsFrom s (y :: ys) (x :: t) u where
  grown ha := by
    obtain ⟨hframe, hcount⟩ := run.grown (List.forall_mem_cons.mp ha).2
    exact ⟨hframe, fun z => (hcount z).trans (addOne_toNat h z ys)⟩
  room hr := List.forall_mem_cons.mpr ⟨hx, run.room fun z => (addOne_toNat h z ys).trans_le (hr z)⟩

theorem CountsFrom.cons_atTop {s : State} {y : Symbol} (ys : List Symbol) (t : List Exchange) (u : State)
    {x : Exchange} (hx : x.accepted = false) (h : AtTop s.freq y) : CountsFrom s (y :: ys) (x :: t) u where
  grown ha := by
    have hx' := (List.forall_mem_cons.mp ha).1
    rw [hx] at hx'
    cases hx'
  room hr := by
    have htop := atTop_iff.mp h
    have hy := hr y
    rw [List.count_cons_self] at hy
    omega

theorem runEvent_encode (i : Instr) (s : State) : runEvent (.cmd (encode i)) s = exec i s :=
  runWord_of_decode (decode_encode i) s

/-- By induction on the input: a COUNT adds one and the rest counts on from there, or it raises at its top, and then
the run goes on in IDLE with an exchange that was not accepted. -/
theorem runEvents_counts {s : State} (input : List Symbol) (hm : s.mode = .idle) :
    ∃ t u, runEvents (asEvents (input.map .count)) s = some (t, u) ∧ CountsFrom s input t u := by
  induction input generalizing s with
  | nil => exact ⟨[], s, rfl, .nil s⟩
  | cons y ys ih =>
    by_cases h : AtTop s.freq y
    · have hmode : (raise .countOverflow s).mode = .idle := by rw [raise_in_idle hm rfl]; exact hm
      obtain ⟨t, u, hrun, _⟩ := ih hmode
      have hstep := (runEvent_encode _ s).trans (exec_count_atTop hm h)
      exact ⟨_, u, runEvents_cons.mpr ⟨_, t, hstep, hrun, rfl⟩, .cons_atTop ys t u (not_accepted_count_atTop s y) h⟩
    · obtain ⟨t, u, hrun, run⟩ := ih (s := countedState s y) hm
      have hstep := (runEvent_encode _ s).trans (exec_count_below hm h)
      exact ⟨_, u, runEvents_cons.mpr ⟨_, t, hstep, hrun, rfl⟩, run.cons_below (accepted_count_below s y) h⟩

theorem symbols_nodup : symbols.Nodup :=
  symbols_sorted.imp fun hlt heq => hlt.ne (congrArg BitVec.toNat heq)

/-- Every position of an input holds exactly one of the symbols. -/
theorem sum_count_symbols (input : List Symbol) : (symbols.map fun x => input.count x).sum = input.length := by
  have hmem : ∀ x ∈ (input : Multiset Symbol), x ∈ symbols.toFinset := fun x _ => List.mem_toFinset.mpr (mem_symbols x)
  rw [← List.sum_toFinset _ symbols_nodup]
  simpa only [Multiset.coe_count, Multiset.coe_card] using Multiset.sum_count_eq_card hmem

/-- Settles O20: the counters start at 0, so each ends at the occurrences of its symbol, and no symbol occurs more
often than the input is long. -/
theorem countsAreOccurrences : Obligations.CountsAreOccurrences := by
  intro s input hm hzero
  have hzero' : ∀ x, (readTable s.freq x).toNat + input.count x = input.count x := fun x => by simp [hzero x]
  obtain ⟨t, u, hrun, run⟩ := runEvents_counts input hm
  refine ⟨t, u, hrun, fun ha => ?_, fun hlen => run.room fun x => ?_⟩
  · obtain ⟨_, hgrown⟩ := run.grown ha
    have hcount : ∀ x, (readTable u.freq x).toNat = input.count x := fun x => (hgrown x).trans (hzero' x)
    refine ⟨hcount, ?_⟩
    calc u.total = (symbols.map fun x => input.count x).sum := by simp only [State.total, hcount]
      _ = input.length := sum_count_symbols input
  · exact (hzero' x).trans_le (List.count_le_length.trans hlen)

end Sys2Proof.Machine
end

