-- ==== Sys2Proof/Proofs/PriorityQueue.lean ====
section
/-! PROOFS. The priority queue (41_priority_queue.md R110, R112): the member of least key leaves. -/

namespace Sys2Proof.Machine

theorem pqExtractMin_of_empty {s : State} (hq : s.q = []) : pqExtractMin s = .error (.raised .emptyQueue) := by
  simp only [pqExtractMin, hq]
  rfl

/-- Settles O21: allocated members make the extraction yield, and `pqExtractMin_below` puts the handle it yields below
every other member. -/
theorem pqExtractMinTakesTheLeastKey : Obligations.PqExtractMinTakesTheLeastKey := by
  intro s ha
  refine ⟨pqExtractMin_of_empty, fun hq => ?_⟩
  obtain ⟨h, hx, hm⟩ := pqExtractMin_yields hq ha
  exact ⟨h, hx, hm, pqExtractMin_below hx⟩

end Sys2Proof.Machine
end

