-- ==== Sys2Proof/Proofs/TreeBuilder.lean ====
section
/-! PROOFS. 42_tree_builder.md: `alloc` (R121), what BUILD refuses (R122), the tree it makes and when there is room for it
(R120, R124, R125), why that tree depends on the counters alone (R127), the depth of a tree (R128), and RDNODE (R129). -/

namespace Sys2Proof.Machine

/-! ### alloc (R121) -/

/-- Settles O22: a handle of an arena that is not full is below 511, so the next one does not wrap. -/
theorem allocGivesTheNextHandle : Obligations.AllocGivesTheNextHandle := fun _ =>
  ⟨fun hlt => ⟨_, (alloc_eq_ok _ _ _).mpr ⟨hlt, rfl, rfl⟩, nalloc_succ hlt⟩,
    fun hfull => (alloc_eq_error _ _).mpr ⟨hfull, rfl⟩⟩

/-! ### What BUILD refuses (R122) -/

theorem buildBody_of_tree {s : State} (hr : s.root ≠ NIL) : buildBody s = .error (.raised .illegalCommand) := by
  rw [buildBody, require_not hr, proc_bind_error]

theorem buildBody_of_no_symbol {s : State} (hr : s.root = NIL) (hd : s.distinct = 0) :
    buildBody s = .error (.raised .emptyInput) := by
  have hno : ¬ s.hasSymbol = true := fun hs => by have := (hasSymbol_iff s).mp hs; omega
  rw [buildBody, require_of hr, proc_bind_ok, require_not hno, proc_bind_error]

/-- Settles O23: the root is tested before the counters, and in IDLE `IllegalCommand` leaves the tree alone. -/
theorem buildRefusesATreeThenAnEmptyTable : Obligations.BuildRefusesATreeThenAnEmptyTable := by
  refine ⟨decode_encode .build, fun s => ⟨fun hm hr => ?_, fun hm hr hd => ?_, exec_outside_idle rfl⟩⟩
  · obtain ⟨hroot, hnalloc, hnode⟩ : TreeKept s (raise .illegalCommand s) := (raise_builderKept s rfl).treeKept
    exact ⟨_, exec_of_raised (permits_of_idle rfl hm) (buildBody_of_tree hr), rfl, hroot, hnalloc, fun h => by
      rw [State.nodeAt, State.nodeAt, hnalloc, hnode]⟩
  · exact exec_of_raised (permits_of_idle rfl hm) (buildBody_of_no_symbol hr hd)

/-! ### The tree BUILD makes (R120, R124, R125) -/

/-- The tree of `t` is the one BUILD makes of the counters of `s`: well formed, with the counted symbols on its leaves,
the sum of all counters at its root, and every Internal node over the two least candidates of its time. -/
structure HuffmanTreeOf (s t : State) : Prop where
  tree : TreePresent t s.distinct
  leaves : LeavesOf s.freq t
  rootFreq : ∃ nd, t.nodeAt t.root = some nd ∧ nd.freq.toNat = s.total
  greedy : GreedyMerge t

theorem HuffmanTreeOf.answer {s t : State} (H : HuffmanTreeOf s t) (toks : List Token) :
    HuffmanTreeOf s (answer toks t) :=
  ⟨H.tree.of_kept ⟨rfl, rfl, rfl⟩, ⟨H.leaves.counted, H.leaves.present⟩, H.rootFreq, H.greedy⟩

/-- There is something to build, and the arena holds its `2n - 1` nodes (R124). -/
def BuildFits (s : State) : Prop := 1 ≤ s.distinct ∧ 2 * s.distinct - 1 ≤ s.config.arenaSize

/-- With room for all nodes BUILD ends with the tree, and nothing else is written. -/
theorem buildBody_makes {s : State} (ha : TreeAbsent s) (hq : s.q = []) (hf : BuildFits s) :
    ∃ r n m, buildBody s = .ok ({ s with root := r, nalloc := n, node := m }, []) ∧
      HuffmanTreeOf s { s with root := r, nalloc := n, node := m } := by
  obtain ⟨hd, hs⟩ := hf
  obtain ⟨r, t, hb, only, forest, hr, leaves⟩ := buildBody_builds ha hq hd hs
  obtain ⟨r', hr', _, T, hw⟩ := forest.tree hd (by rw [hr]; rfl)
  cases hr.symm.trans hr'
  have frame : { t with root := r, q := [] } = { s with root := r, nalloc := t.nalloc, node := t.node } := by
    unfold ArenaOnly at only
    rw [only, ← hq]
  obtain ⟨nd, hnd⟩ := T.allocated T.root_lt
  refine ⟨r, t.nalloc, t.node, by rw [hb, frame], ?_⟩
  rw [← frame]
  exact ⟨T, ⟨leaves.counted, leaves.present⟩, ⟨nd, hnd, (weight_of (s := t) hnd).symm.trans hw⟩, forest.greedy⟩

theorem exec_build_makes {s : State} (hm : s.mode = .idle) (ha : TreeAbsent s) (hq : s.q = []) (hf : BuildFits s) :
    ∃ r n m, exec .build s = .next { s with root := r, nalloc := n, node := m, out := s.out ++ [.st 0] } ∧
      HuffmanTreeOf s { s with root := r, nalloc := n, node := m } := by
  obtain ⟨r, n, m, hb, H⟩ := buildBody_makes ha hq hf
  exact ⟨r, n, m, exec_of_ok (i := .build) (permits_of_idle rfl hm) hb, H⟩

/-- Settles O25: BUILD starts from the empty forest, adds the leaves, and merges until one candidate is left, which is
the root of a well-formed tree. -/
theorem buildMakesTheTree : Obligations.BuildMakesTheTree := by
  intro s hm ha hq hd hs
  obtain ⟨r, n, m, hx, H⟩ := exec_build_makes hm ha hq ⟨hd, hs⟩
  exact ⟨r, n, m, hx, H.tree, H.leaves, H.rootFreq⟩

/-- Settles O24: a well-formed tree of `n` leaves has `2n - 1` nodes, and in a smaller arena some `alloc` fails. -/
theorem buildNeedsTwoNMinusOneNodes : Obligations.BuildNeedsTwoNMinusOneNodes := by
  intro s hm ha hq hd
  refine ⟨fun hs => ?_, fun hs => exec_of_raised (permits_of_idle rfl hm) (buildBody_full ha hq hd hs)⟩
  obtain ⟨r, n, m, hx, H⟩ := exec_build_makes hm ha hq ⟨hd, hs⟩
  exact ⟨_, hx, rfl, H.tree.size⟩

/-- A BUILD that ends had something to build and room for it (R124). -/
theorem buildBody_fits {s t : State} {toks : List Token} (ha : TreeAbsent s) (hq : s.q = [])
    (h : buildBody s = .ok (t, toks)) : BuildFits s := by
  have hd : 1 ≤ s.distinct := (hasSymbol_iff s).mp (buildBody_hasSymbol h)
  refine ⟨hd, not_lt.mp fun hsmall => ?_⟩
  rw [buildBody_full ha hq hd hsmall] at h
  cases h

theorem buildBody_huffmanTreeOf {s t : State} {toks : List Token} (ha : TreeAbsent s) (hq : s.q = [])
    (h : buildBody s = .ok (t, toks)) : HuffmanTreeOf s t := by
  obtain ⟨r, n, m, hb, H⟩ := buildBody_makes ha hq (buildBody_fits ha hq h)
  cases hb.symm.trans h
  exact H

/-- Settles O26: a BUILD that answers `ST(0)` ended, and the forest it merged kept every pass greedy. -/
theorem buildMergesTheTwoLeast : Obligations.BuildMergesTheTwoLeast := by
  intro s t _ ha hq hx hout
  obtain ⟨_, t', toks, hb, rfl⟩ := exec_accepted (toks := []) hx (by rw [hout, List.append_nil])
  exact ((buildBody_huffmanTreeOf ha hq hb).answer toks).greedy

/-! ### The tree is a function of the counters (R127)

Two trees of the same counters agree at every handle, by induction on the handle. A Leaf holds the least counted symbol
that no older Leaf holds; an Internal node joins the two least candidates among the older nodes. -/

/-- The two states have the same nodes below the handle `p`. -/
def AgreeBelow (p : Handle) (s t : State) : Prop := ∀ h : Handle, h.toNat < p.toNat → s.nodeAt h = t.nodeAt h

section
variable {s t : State} {p h k : Handle}

theorem AgreeBelow.symm (A : AgreeBelow p s t) : AgreeBelow p t s := fun h hlt => (A h hlt).symm

theorem AgreeBelow.isChild_iff (A : AgreeBelow p s t) {p' : Handle} (hlt : p'.toNat < p.toNat) (b : Bool) :
    isChild s p' b h ↔ isChild t p' b h := by
  unfold isChild
  rw [A p' hlt]

/-- The queue at the time of `p` depends only on the older nodes. -/
theorem AgreeBelow.queuedAt (A : AgreeBelow p s t) (hq : queuedAt t p h) : queuedAt s p h :=
  ⟨hq.1, fun p' b hlt hc => hq.2 p' b hlt ((A.isChild_iff hlt b).mp hc)⟩

theorem AgreeBelow.keyBelow (A : AgreeBelow p s t) (hh : h.toNat < p.toNat) (hk : k.toNat < p.toNat)
    (hb : keyBelow t h k) : keyBelow s h k := by
  unfold Machine.keyBelow
  rw [A h hh, A k hk]
  exact hb

theorem keyBelow_trans {j : Handle} (hhj : keyBelow s h j) (hjk : keyBelow s j k) : keyBelow s h k := by
  obtain ⟨x, y, hx, hy, hxy⟩ := hhj
  obtain ⟨y', z, hy', hz, hyz⟩ := hjk
  cases hy.symm.trans hy'
  exact ⟨x, z, hx, hz, by omega⟩

theorem keyBelow_asymm (hhk : keyBelow s h k) : ¬ keyBelow s k h := by
  obtain ⟨x, y, hx, hy, hxy⟩ := hhk
  rintro ⟨y', x', hy', hx', hyx⟩
  cases hx.symm.trans hx'
  cases hy.symm.trans hy'
  omega

end

/-- `a` and `b` are the least and the second least candidate of the queue as it was when `p` was made. -/
structure JoinsLeast (s : State) (p a b : Handle) : Prop where
  left : queuedAt s p a
  right : queuedAt s p b
  ordered : keyBelow s a b
  least : ∀ h, queuedAt s p h → h ≠ a → h ≠ b → keyBelow s b h

theorem GreedyMerge.joinsLeast {s : State} (G : GreedyMerge s) {p : Handle} {nd : Node} (hx : s.nodeAt p = some nd)
    (hk : nd.kind = .internal) : JoinsLeast s p nd.left nd.right := by
  obtain ⟨hl, hr, hlr, hleast⟩ := G p nd hx hk
  exact ⟨hl, hr, hlr, hleast⟩

section
variable {s t : State} {p a b a' b' : Handle}

theorem JoinsLeast.of_agreeBelow (J : JoinsLeast t p a b) (A : AgreeBelow p s t) : JoinsLeast s p a b where
  left := A.queuedAt J.left
  right := A.queuedAt J.right
  ordered := A.keyBelow J.left.1 J.right.1 J.ordered
  least h hq ha hb := A.keyBelow J.right.1 hq.1 (J.least h (A.symm.queuedAt hq) ha hb)

theorem JoinsLeast.left_below (J : JoinsLeast s p a b) {h : Handle} (hq : queuedAt s p h) (ha : h ≠ a) :
    keyBelow s a h := by
  by_cases hb : h = b
  · rw [hb]
    exact J.ordered
  · exact keyBelow_trans J.ordered (J.least h hq ha hb)

theorem JoinsLeast.ne (J : JoinsLeast s p a b) : b ≠ a := by
  rintro rfl
  exact keyBelow_asymm J.ordered J.ordered

/-- The two least candidates are unique (41_priority_queue.md R110). -/
theorem JoinsLeast.unique (J : JoinsLeast s p a b) (J' : JoinsLeast s p a' b') : a = a' ∧ b = b' := by
  have ha : a = a' := by
    by_contra hne
    exact keyBelow_asymm (J.left_below J'.left (Ne.symm hne)) (J'.left_below J.left hne)
  subst ha
  refine ⟨rfl, by_contra fun hne => ?_⟩
  exact keyBelow_asymm (J.least b' J'.right J'.ne (Ne.symm hne)) (J'.least b J.right J.ne hne)

end

/-- A Leaf is the one step 1 of R120 makes for its symbol. -/
theorem LeavesOf.eq_leafNode {f : Vector Count 256} {s : State} {h : Handle} {nd : Node} (L : LeavesOf f s)
    (hx : s.nodeAt h = some nd) (hk : nd.kind = .leaf) (hl : nd.left = NIL) (hr : nd.right = NIL) :
    nd = leafNode nd.sym (readTable f nd.sym) := by
  obtain ⟨_, hfreq⟩ := L.counted h nd hx hk
  have hlt := (readTable f nd.sym).isLt
  have hcount : nd.freq = (readTable f nd.sym).setWidth 40 := by
    apply BitVec.eq_of_toNat_eq
    rw [hfreq, BitVec.toNat_setWidth, Nat.mod_eq_of_lt (by omega)]
  obtain ⟨kind, sym, left, right, freq⟩ := nd
  simp only at hk hl hr hcount
  rw [hk, hl, hr, hcount, leafNode]

/-- An Internal node is the one step 2 of R120 makes over its children. -/
theorem eq_internalNode {nd x y : Node} (hk : nd.kind = .internal) (hsym : nd.sym = 0)
    (hsum : nd.freq.toNat = x.freq.toNat + y.freq.toNat) : nd = internalNode nd.left nd.right x y := by
  have hlt := nd.freq.isLt
  have hfreq : nd.freq = x.freq + y.freq := by
    apply BitVec.eq_of_toNat_eq
    rw [BitVec.toNat_add, Nat.mod_eq_of_lt (by omega), hsum]
  obtain ⟨kind, sym, left, right, freq⟩ := nd
  simp only at hk hsym hfreq
  rw [hk, hsym, hfreq, internalNode]

section
variable {s t u : State} {h : Handle}

/-- The symbol of a Leaf is one that no older Leaf holds, so another tree of the same counters with the same older
nodes cannot have passed over it. -/
theorem HuffmanTreeOf.leaf_sym_le {nd nd' : Node} (H : HuffmanTreeOf s t) (H' : HuffmanTreeOf s u)
    (A : AgreeBelow h t u) (hx : t.nodeAt h = some nd) (hk : nd.kind = .leaf) (hx' : u.nodeAt h = some nd') :
    nd'.sym.toNat ≤ nd.sym.toNat := by
  obtain ⟨hcounted, _⟩ := H.leaves.counted h nd hx hk
  obtain ⟨l, ld, hl, hlk, hsym⟩ := H'.leaves.present nd.sym hcounted
  rcases Nat.lt_trichotomy l.toNat h.toNat with hlt | heq | hgt
  · have hold : t.nodeAt l = some ld := (A l hlt).trans hl
    rw [H.tree.leaf_unique hold hx hlk hk hsym] at hlt
    exact absurd hlt (lt_irrefl _)
  · rw [BitVec.eq_of_toNat_eq heq, hx'] at hl
    cases hl
    rw [hsym]
  · have hn := (H'.tree.leaf_iff hl).mp hlk
    rw [← hsym]
    exact (H'.tree.rising h l nd' ld hgt hn hx' hl).le

theorem HuffmanTreeOf.leaf_agree (H : HuffmanTreeOf s t) (H' : HuffmanTreeOf s u) (A : AgreeBelow h t u)
    (hn : h.toNat < s.distinct) : t.nodeAt h = u.nodeAt h := by
  obtain ⟨nd, hx, hk, hl, hr⟩ := H.tree.leaves h hn
  obtain ⟨nd', hx', hk', hl', hr'⟩ := H'.tree.leaves h hn
  have hsym : nd.sym = nd'.sym :=
    BitVec.eq_of_toNat_eq (le_antisymm (H'.leaf_sym_le H A.symm hx' hk' hx) (H.leaf_sym_le H' A hx hk hx'))
  rw [hx, hx', H.leaves.eq_leafNode hx hk hl hr, H'.leaves.eq_leafNode hx' hk' hl' hr', hsym]

theorem HuffmanTreeOf.internal_agree (H : HuffmanTreeOf s t) (H' : HuffmanTreeOf s u) (A : AgreeBelow h t u)
    (hn : s.distinct ≤ h.toNat) (hlt : h.toNat < t.nalloc.toNat) (hlt' : h.toNat < u.nalloc.toNat) :
    t.nodeAt h = u.nodeAt h := by
  obtain ⟨nd, hx, hk, hsym, hl, hr, _⟩ := H.tree.internals h hn hlt
  obtain ⟨nd', hx', hk', hsym', _⟩ := H'.tree.internals h hn hlt'
  obtain ⟨hleft, hright⟩ :=
    (H.greedy.joinsLeast hx hk).unique ((H'.greedy.joinsLeast hx' hk').of_agreeBelow A)
  obtain ⟨x, y, hxl, hyr, hsum⟩ := H.tree.sums h nd hx hk
  obtain ⟨x', y', hxl', hyr', hsum'⟩ := H'.tree.sums h nd' hx' hk'
  rw [← hleft, ← A _ hl, hxl] at hxl'
  rw [← hright, ← A _ hr, hyr] at hyr'
  cases hxl'
  cases hyr'
  rw [hx, hx', eq_internalNode hk hsym hsum, eq_internalNode hk' hsym' hsum', hleft, hright]

theorem HuffmanTreeOf.nalloc_eq (H : HuffmanTreeOf s t) (H' : HuffmanTreeOf s u) : t.nalloc = u.nalloc :=
  BitVec.eq_of_toNat_eq (H.tree.size.trans H'.tree.size.symm)

theorem HuffmanTreeOf.root_eq (H : HuffmanTreeOf s t) (H' : HuffmanTreeOf s u) : t.root = u.root :=
  BitVec.eq_of_toNat_eq (by rw [H.tree.rootLast, H'.tree.rootLast, H.nalloc_eq H'])

/-- The counters determine every node. -/
theorem HuffmanTreeOf.nodeAt_eq (H : HuffmanTreeOf s t) (H' : HuffmanTreeOf s u) (h : Handle) :
    t.nodeAt h = u.nodeAt h := by
  induction hd : h.toNat using Nat.strong_induction_on generalizing h with
  | _ d ih =>
    have A : AgreeBelow h t u := fun k hlt => ih k.toNat (hd ▸ hlt) k rfl
    have hsame := H.nalloc_eq H'
    by_cases hn : h.toNat < s.distinct
    · exact H.leaf_agree H' A hn
    by_cases hlt : h.toNat < t.nalloc.toNat
    · exact H.internal_agree H' A (not_lt.mp hn) hlt (hsame ▸ hlt)
    · rw [State.nodeAt, State.nodeAt, ← hsame, if_neg hlt, if_neg hlt]

/-- Only the counters of the first state count. -/
theorem HuffmanTreeOf.of_freq {s' : State} (H : HuffmanTreeOf s' t) (hf : s.freq = s'.freq) : HuffmanTreeOf s t := by
  have hd : s.distinct = s'.distinct := by rw [State.distinct, State.distinct, hf]
  have ht : s.total = s'.total := by rw [State.total, State.total, hf]
  exact ⟨by rw [hd]; exact H.tree, by rw [hf]; exact H.leaves, by rw [ht]; exact H.rootFreq, H.greedy⟩

theorem buildFits_congr (hc : s.config = t.config) (hf : s.freq = t.freq) : BuildFits s ↔ BuildFits t := by
  rw [BuildFits, BuildFits, State.distinct, State.distinct, hc, hf]

theorem raise_treeAbsent (ha : TreeAbsent s) (e : Error) : TreeAbsent (raise e s) := by
  rcases raise_cases e s with ⟨_, h⟩ | h | h <;> rw [h]
  · exact ha
  · exact ha
  · exact ⟨rfl, rfl⟩

/-- Everything BUILD from no tree can leave: the tree of the counters if there is room for it, and else none. -/
theorem exec_build_next (hm : s.mode = .idle) (ha : TreeAbsent s) (hq : s.q = []) (hx : exec .build s = .next t) :
    (BuildFits s ∧ HuffmanTreeOf s t) ∨ (¬ BuildFits s ∧ TreeAbsent t) := by
  rcases exec_next hx with ⟨_, t', toks, hb, rfl⟩ | ⟨_, e, hb, rfl⟩ | ⟨hp, _⟩
  · exact .inl ⟨buildBody_fits ha hq hb, (buildBody_huffmanTreeOf ha hq hb).answer toks⟩
  · refine .inr ⟨fun hf => ?_, raise_treeAbsent ha e⟩
    obtain ⟨r, n, m, hb', _⟩ := buildBody_makes ha hq hf
    cases hb.symm.trans hb'
  · rw [permits_of_idle rfl hm] at hp
    cases hp

end

/-- Settles O27: with the same counters and arena both blocks build or neither does, and the counters determine the
tree. -/
theorem treeIsAFunctionOfFreq : Obligations.TreeIsAFunctionOfFreq := by
  intro s s' t t' hm hm' ha ha' hq hq' hc hf hx hx'
  have hfits := buildFits_congr hc hf
  rcases exec_build_next hm ha hq hx with ⟨b, H⟩ | ⟨b, hroot, hnalloc⟩ <;>
    rcases exec_build_next hm' ha' hq' hx' with ⟨b', H'⟩ | ⟨b', hroot', hnalloc'⟩
  · have H' := H'.of_freq hf
    exact ⟨H.root_eq H', H.nalloc_eq H', H.nodeAt_eq H'⟩
  · exact absurd (hfits.mp b) b'
  · exact absurd (hfits.mpr b') b
  · exact ⟨hroot.trans hroot'.symm, hnalloc.trans hnalloc'.symm, fun h => by simp [State.nodeAt, hnalloc, hnalloc']⟩

/-! ### The depth of a tree (R128) -/

/-- Settles O28: the root is handle `2n - 2`, and a path passes through ever older Internal nodes, of which there are
`n - 1`. -/
theorem pathsAreShorterThanLeaves : Obligations.PathsAreShorterThanLeaves := by
  intro s n path h T hf
  have hroot := T.rootLast
  have hsize := T.size
  have hcount := T.leafCount
  rcases T.follow_short hf with rfl | hshort
  · exact Nat.zero_le _
  · omega

/-! ### RDNODE (R129) -/

/-- The word of RDNODE, field by field. -/
theorem encode_rdnode (h : Handle) : encode (.rdnode h) = 0x21#8 ++ 0#8 ++ 0#23 ++ h := by
  have hd : h.setWidth 32 = 0#23 ++ h := BitVec.setWidth_eq_append (by decide)
  rw [encode, packWord, hd, BitVec.append_assoc']
  exact BitVec.cast_eq _ _

/-- A slice of a concatenation that starts above the low part is a slice of the high part. -/
theorem extractLsb'_append_high {v w : Nat} (hi : BitVec v) (lo : BitVec w) (start len : Nat) :
    (hi ++ lo).extractLsb' (w + start) len = hi.extractLsb' start len := by
  rw [BitVec.extractLsb'_append_eq_of_le (Nat.le_add_right w start), Nat.add_sub_cancel_left]

section
variable (n : Node)

theorem Node.word0_right : n.word0.extractLsb' 0 9 = n.right := BitVec.extractLsb'_append_eq_right

theorem Node.word0_left : n.word0.extractLsb' 9 9 = n.left :=
  (extractLsb'_append_high _ n.right 0 9).trans BitVec.extractLsb'_append_eq_right

theorem Node.word0_sym : n.word0.extractLsb' 18 8 = n.sym :=
  calc n.word0.extractLsb' 18 8 = (n.kind.bit ++ 0#5 ++ n.sym ++ n.left).extractLsb' 9 8 :=
        extractLsb'_append_high _ n.right 9 8
    _ = (n.kind.bit ++ 0#5 ++ n.sym).extractLsb' 0 8 := extractLsb'_append_high _ n.left 0 8
    _ = n.sym := BitVec.extractLsb'_append_eq_right

theorem Node.word0_zero : n.word0.extractLsb' 26 5 = 0 :=
  calc n.word0.extractLsb' 26 5 = (n.kind.bit ++ 0#5 ++ n.sym ++ n.left).extractLsb' 17 5 :=
        extractLsb'_append_high _ n.right 17 5
    _ = (n.kind.bit ++ 0#5 ++ n.sym).extractLsb' 8 5 := extractLsb'_append_high _ n.left 8 5
    _ = (n.kind.bit ++ 0#5).extractLsb' 0 5 := extractLsb'_append_high _ n.sym 0 5
    _ = 0 := BitVec.extractLsb'_append_eq_right

theorem Node.word0_kind : n.word0.getLsbD 31 = true ↔ n.kind = .internal := by
  change BitVec.getLsbD (w := 1 + 5 + 8 + 9 + 9) (n.kind.bit ++ 0#5 ++ n.sym ++ n.left ++ n.right) 31 = true ↔ _
  simp only [BitVec.getLsbD_append]
  cases n.kind <;> simp [NodeKind.bit]

/-- The two frequency words are the low 32 bits and the rest. -/
theorem Node.word1_word2 : n.word1.toNat + 2 ^ 32 * n.word2.toNat = n.freq.toNat := by
  have hlt := n.freq.isLt
  simp only [Node.word1, Node.word2, BitVec.toNat_setWidth, BitVec.extractLsb'_toNat, Nat.shiftRight_eq_div_pow]
  omega

end

theorem exec_rdnode_allocated {s : State} {h : Handle} {nd : Node} (hm : s.mode ≠ .fatal) (hx : s.nodeAt h = some nd) :
    exec (.rdnode h) s =
      .next { s with out := s.out ++ [.data nd.word0, .data nd.word1, .data nd.word2, .st 0] } :=
  exec_of_ok (i := .rdnode h) (bne_iff_ne.mpr hm) (rdnodeBody_ok.mpr ⟨nd, hx, rfl, rfl⟩)

theorem exec_rdnode_fatal {s : State} (h : Handle) (hm : s.mode = .fatal) :
    exec (.rdnode h) s = .next (raise .illegalCommand s) :=
  exec_wrong_mode (by rw [hm]; rfl)

theorem exec_rdnode_unallocated {s : State} {h : Handle} (hle : s.nalloc.toNat ≤ h.toNat) :
    exec (.rdnode h) s = .next (raise .illegalCommand s) := by
  by_cases hm : s.mode = .fatal
  · exact exec_rdnode_fatal h hm
  · refine exec_of_raised (bne_iff_ne.mpr hm) ?_
    rw [bodyOf, rdnodeBody, require_not (not_lt.mpr hle), proc_bind_error]

/-- Settles O29: each field stands in its place of the three words, and a read of an allocated entry changes nothing. -/
theorem rdnodeReadsANode : Obligations.RdnodeReadsANode := by
  refine ⟨fun h => encode_rdnode h ▸ decode_encode (.rdnode h), fun s h =>
    ⟨fun nd hm hx => ?_, exec_rdnode_unallocated, exec_rdnode_fatal h⟩⟩
  exact ⟨_, _, _, exec_rdnode_allocated hm hx, nd.word0_kind, nd.word0_zero, nd.word0_sym, nd.word0_left, nd.word0_right,
    nd.word1_word2⟩

end Sys2Proof.Machine
end

