-- ==== Sys2Proof/Proofs/CodeGenerator.lean ====
section
/-! PROOFS. 43_code_generator.md: the table GEN leaves with a tree and without one (R141 to R143), why no code begins
another (R144), why a higher count never has a longer code (R145), and RDCODE (R146). -/

namespace Sys2Proof.Machine

/-! ### GEN (R141 to R143) -/

theorem genBody_of_no_tree {s : State} (hr : s.root = NIL) : genBody s = .ok (clearTable s, []) := if_pos hr

/-- Settles O31: with no root the pseudocode ends with the empty table. -/
theorem genWithoutTreeEmptiesTheTable : Obligations.GenWithoutTreeEmptiesTheTable :=
  ⟨decode_encode .gen, fun _ hm hr =>
    ⟨_, _, exec_of_ok (i := .gen) (permits_of_idle rfl hm) (genBody_of_no_tree hr),
      readTable_replicate 0, readTable_replicate 0⟩⟩

/-- Settles O32: with a tree the walk ends, it writes the table alone, and that table is the one of the tree. -/
theorem genAssignsThePaths : Obligations.GenAssignsThePaths := by
  intro s n hm T
  obtain ⟨t, hb, _⟩ := genBody_gives T
  obtain ⟨_, frame⟩ := genBody_ok hb
  have C := genBody_tableOf T hb
  rw [frame] at hb C
  exact ⟨t.clen, t.cbits, exec_of_ok (i := .gen) (permits_of_idle rfl hm) hb, C⟩

/-! ### Codes and paths -/

/-- A code belongs to the Leaf its path leads to. -/
theorem IsCode.exists_path {s : State} {x : Symbol} {code : List Bool} (hc : IsCode s x code) :
    ∃ l nd bs, s.nodeAt l = some nd ∧ nd.kind = .leaf ∧ nd.sym = x ∧ follow s s.root bs = some l ∧
      code = codeAt s l bs := by
  obtain ⟨l, nd, hl, hk, hsym, hcode⟩ := hc
  by_cases hroot : l = s.root
  · rw [if_pos hroot] at hcode
    exact ⟨l, nd, [], hl, hk, hsym, by rw [hroot, follow_nil], by rw [codeAt, if_pos hroot, hcode]⟩
  · rw [if_neg hroot] at hcode
    exact ⟨l, nd, code, hl, hk, hsym, hcode, by rw [codeAt, if_neg hroot]⟩

section
variable {s : State} {n : Nat}

/-- Only the empty path leads back to its node. -/
theorem TreePresent.follow_self (T : TreePresent s n) {h : Handle} {bs : List Bool} (hf : follow s h bs = some h) :
    bs = [] :=
  T.follow_inj hf (follow_nil s h)

/-- The length of a code is the depth of its Leaf, but 1 at a Leaf root. -/
theorem TreePresent.codeAt_length_eq (T : TreePresent s n) {l : Handle} {bs : List Bool}
    (hf : follow s s.root bs = some l) : (codeAt s l bs).length = max 1 bs.length := by
  have hpos := (T.codeAt_length hf).1
  unfold codeAt at hpos ⊢
  split
  · rename_i hroot
    rw [hroot] at hf
    rw [T.follow_self hf]
    rfl
  · rename_i hroot
    rw [if_neg hroot] at hpos
    exact (max_eq_right hpos).symm

/-- A tree whose root is a Leaf has no other node. -/
theorem TreePresent.eq_root_of_leaf_root (T : TreePresent s n) {nd : Node} (hx : s.nodeAt s.root = some nd)
    (hk : nd.kind = .leaf) {l : Handle} {bs : List Bool} (hf : follow s s.root bs = some l) : l = s.root := by
  rw [T.follow_leaf hx hk hf] at hf
  exact (Option.some.inj hf).symm

end

/-- Settles O33: a path that begins another passes through its own Leaf, and no path goes on from a Leaf. -/
theorem codesArePrefixFree : Obligations.CodesArePrefixFree := by
  intro t s n T C x y hxy hx hy hpre
  obtain ⟨l, nd, bs, hl, hk, hsym, hf, hcode⟩ := (C.codes x hx).exists_path
  obtain ⟨l', nd', bs', hl', hk', hsym', hf', hcode'⟩ := (C.codes y hy).exists_path
  have hne : l ≠ l' := by
    rintro rfl
    cases hl.symm.trans hl'
    exact hxy (hsym.symm.trans hsym')
  have hroot : l ≠ t.root := by
    rintro rfl
    exact hne (T.eq_root_of_leaf_root hl hk hf').symm
  have hroot' : l' ≠ t.root := by
    rintro rfl
    exact hne (T.eq_root_of_leaf_root hl' hk' hf)
  rw [hcode, hcode', codeAt, codeAt, if_neg hroot, if_neg hroot'] at hpre
  obtain ⟨rest, rfl⟩ := hpre
  obtain ⟨m, hm, hrest⟩ := follow_append.mp hf'
  cases hf.symm.trans hm
  rw [T.follow_leaf hl hk hrest] at hrest
  exact hne (Option.some.inj hrest)

/-! ### Higher counts have no longer codes (R145)

A greedy merge takes the candidates in the order of their keys. So Internal nodes weigh more the younger they are, and of
two nodes the one of lower key has the older parent. Two paths climbed side by side from two Leaf nodes keep that order,
and the path from the heavier Leaf is the first at the root. -/

section
variable {s : State} {n : Nat} {p q h k : Handle} {c d : Bool}

theorem weight_le_of_keyBelow (hb : keyBelow s h k) : weight s h ≤ weight s k := by
  obtain ⟨x, y, hx, hy, hxy⟩ := hb
  rw [weight_of hx, weight_of hy]
  omega

theorem keyBelow_of_weight_le (T : TreePresent s n) (hh : h.toNat < s.nalloc.toNat) (hk : k.toNat < s.nalloc.toNat)
    (hw : weight s h ≤ weight s k) (hlt : h.toNat < k.toNat) : keyBelow s h k := by
  obtain ⟨x, hx⟩ := T.allocated hh
  obtain ⟨y, hy⟩ := T.allocated hk
  rw [weight_of hx, weight_of hy] at hw
  exact ⟨x, y, hx, hy, by omega⟩

/-- An Internal node weighs as much as its children together (10_state.md R30 (e)). -/
theorem TreePresent.weight_internal (T : TreePresent s n) {nd : Node} (hx : s.nodeAt p = some nd)
    (hk : nd.kind = .internal) : weight s p = weight s nd.left + weight s nd.right := by
  obtain ⟨x, y, hl, hr, hsum⟩ := T.sums p nd hx hk
  rw [weight_of hx, weight_of hl, weight_of hr, hsum]

/-- A child weighs less than its parent: its sibling weighs something. -/
theorem TreePresent.weight_child_lt (T : TreePresent s n) (hc : isChild s p c h) : weight s h < weight s p := by
  obtain ⟨nd, hx, hk, rfl⟩ := hc
  have hsum := T.weight_internal hx hk
  obtain ⟨x, y, hl, hr, _⟩ := T.sums p nd hx hk
  have left : 1 ≤ weight s nd.left := weight_of hl ▸ T.positive _ x hl
  have right : 1 ≤ weight s nd.right := weight_of hr ▸ T.positive _ y hr
  cases c
  · change weight s nd.left < _
    omega
  · change weight s nd.right < _
    omega

/-- The children of `p` are below every candidate that was left in the queue when `p` was made. -/
theorem GreedyMerge.child_below (G : GreedyMerge s) (hk : isChild s p c k) (hq : queuedAt s p h)
    (hno : ∀ d, ¬ isChild s p d h) : keyBelow s k h := by
  obtain ⟨nd, hx, hkind, rfl⟩ := hk
  have J := G.joinsLeast hx hkind
  have hl : h ≠ nd.left := fun e => hno false ⟨nd, hx, hkind, e.symm⟩
  have hr : h ≠ nd.right := fun e => hno true ⟨nd, hx, hkind, e.symm⟩
  cases c
  · exact J.left_below hq hl
  · exact J.least h hq hl hr

/-- A node older than `p` whose parent is younger than `p` weighs no less than a child of `p`. -/
theorem GreedyMerge.weight_child_le (G : GreedyMerge s) (T : TreePresent s n) (hk : isChild s p c k)
    (hh : isChild s q d h) (hpq : p.toNat < q.toNat) (hold : h.toNat < p.toNat) : weight s k ≤ weight s h := by
  have parent : ∀ {p' b}, isChild s p' b h → p' = q := fun hc => (T.parent_unique hc hh).1
  refine weight_le_of_keyBelow (G.child_below hk ⟨hold, fun p' b hlt hc => ?_⟩ fun b hc => ?_)
  · rw [parent hc] at hlt
    omega
  · rw [parent hc] at hpq
    omega

/-- A younger Internal node weighs no less than an older one. -/
theorem GreedyMerge.weight_mono (G : GreedyMerge s) (T : TreePresent s n) (hp : n ≤ p.toNat) (hpq : p.toNat ≤ q.toNat)
    (hq : q.toNat < s.nalloc.toNat) : weight s p ≤ weight s q := by
  induction hm : q.toNat using Nat.strong_induction_on generalizing q with
  | _ m ih =>
    subst hm
    rcases Nat.eq_or_lt_of_le hpq with heq | hlt
    · rw [BitVec.eq_of_toNat_eq heq]
    obtain ⟨nd, hx, hk, _⟩ := T.internals p hp (by omega)
    obtain ⟨nd', hx', hk', _⟩ := T.internals q (by omega) hq
    have viaChild : ∀ {d h}, isChild s q d h → p.toNat ≤ h.toNat → weight s p ≤ weight s q := fun hc hle => by
      have hl := T.child_lt hc
      exact (ih _ hl.2.1 hle (by omega) rfl).trans (T.weight_child_lt hc).le
    have left : isChild s q false nd'.left := ⟨nd', hx', hk', rfl⟩
    have right : isChild s q true nd'.right := ⟨nd', hx', hk', rfl⟩
    by_cases hl : p.toNat ≤ nd'.left.toNat
    · exact viaChild left hl
    by_cases hr : p.toNat ≤ nd'.right.toNat
    · exact viaChild right hr
    have wl : weight s nd.left ≤ weight s nd'.left :=
      G.weight_child_le T (c := false) ⟨nd, hx, hk, rfl⟩ left hlt (by omega)
    have wr : weight s nd.right ≤ weight s nd'.right :=
      G.weight_child_le T (c := true) ⟨nd, hx, hk, rfl⟩ right hlt (by omega)
    rw [T.weight_internal hx hk, T.weight_internal hx' hk']
    omega

/-- Of two nodes the one of lower key was merged no later: it has a parent no younger than the other's. -/
theorem GreedyMerge.older_parent (G : GreedyMerge s) (T : TreePresent s n) (hb : keyBelow s h k)
    (hk : isChild s q d k) : ∃ p c, isChild s p c h ∧ p.toNat ≤ q.toNat := by
  by_contra! hno
  obtain ⟨hn, _, hq⟩ := T.child_lt hk
  by_cases hlt : h.toNat < q.toNat
  · have queued : queuedAt s q h := ⟨hlt, fun p c hp hc => absurd (hno p c hc) (by omega)⟩
    exact keyBelow_asymm hb (G.child_below hk queued fun c hc => absurd (hno q c hc) (lt_irrefl _))
  · have hh : h.toNat < s.nalloc.toNat := by
      obtain ⟨_, _, hx, _⟩ := hb
      exact nodeAt_lt hx
    have heavy : weight s q ≤ weight s h := G.weight_mono T hn (by omega) hh
    have light := T.weight_child_lt hk
    have := weight_le_of_keyBelow hb
    omega

/-- The path to a child goes through its parent. -/
theorem TreePresent.follow_child (T : TreePresent s n) (hc : isChild s p c h) {bs : List Bool}
    (hf : follow s s.root bs = some h) : ∃ bs', bs = bs' ++ [c] ∧ follow s s.root bs' = some p := by
  obtain ⟨bs', hp⟩ := T.reached (T.child_lt hc).2.2
  exact ⟨bs', T.follow_inj hf (follow_snoc.mpr ⟨p, hp, hc⟩), hp⟩

/-- Of two nodes the one of lower key is no less deep. -/
theorem GreedyMerge.path_le (G : GreedyMerge s) (T : TreePresent s n) {bs bs' : List Bool} (hb : keyBelow s h k)
    (hf : follow s s.root bs = some h) (hf' : follow s s.root bs' = some k) : bs'.length ≤ bs.length := by
  induction bs' using List.reverseRecOn generalizing h k bs with
  | nil => exact Nat.zero_le _
  | append_singleton bs' d ih =>
    obtain ⟨q, hq, hkq⟩ := follow_snoc.mp hf'
    obtain ⟨p, c, hhp, hpq⟩ := G.older_parent T hb hkq
    obtain ⟨bs, rfl, hp⟩ := T.follow_child hhp hf
    obtain ⟨hn, _, hpa⟩ := T.child_lt hhp
    obtain ⟨_, _, hqa⟩ := T.child_lt hkq
    have shorter : bs'.length ≤ bs.length := by
      rcases Nat.eq_or_lt_of_le hpq with heq | hlt
      · cases BitVec.eq_of_toNat_eq heq
        rw [T.follow_inj hq hp]
      · exact ih (keyBelow_of_weight_le T hpa hqa (G.weight_mono T hn hpq hqa) hlt) hp hq
    simpa using shorter

end

theorem ne_zero_of_toNat_pos {c : Count} (hc : 0 < c.toNat) : c ≠ 0 := by
  rintro rfl
  exact lt_irrefl _ hc

/-- A counted symbol has a Leaf in the tree of the counters, and its code there. -/
theorem HuffmanTreeOf.coded_leaf {s t u : State} (H : HuffmanTreeOf s t) (C : TableOf t u) {x : Symbol}
    (hx : 0 < (readTable s.freq x).toNat) :
    ∃ l nd bs, t.nodeAt l = some nd ∧ nd.freq.toNat = (readTable s.freq x).toNat ∧ follow t t.root bs = some l ∧
      (readTable u.clen x).toNat = max 1 bs.length := by
  obtain ⟨l, nd, hl, hk, rfl⟩ := H.leaves.present x (ne_zero_of_toNat_pos hx)
  obtain ⟨_, hfreq⟩ := H.leaves.counted l nd hl hk
  obtain ⟨l', nd', bs, hl', hk', hsym, hf, hcode⟩ := (C.codes _ (C.leaves l nd hl hk)).exists_path
  cases H.tree.leaf_unique hl hl' hk hk' hsym.symm
  exact ⟨l, nd, bs, hl, hfreq, hf, by rw [← code_length, hcode, H.tree.codeAt_length_eq hf]⟩

theorem HuffmanTreeOf.clen_le {s t u : State} (H : HuffmanTreeOf s t) (C : TableOf t u) {x y : Symbol}
    (hlt : (readTable s.freq y).toNat < (readTable s.freq x).toNat) (hpos : 0 < (readTable s.freq y).toNat) :
    (readTable u.clen x).toNat ≤ (readTable u.clen y).toNat := by
  obtain ⟨l, nd, bs, hl, hfreq, hf, hlen⟩ := H.coded_leaf C (hpos.trans hlt)
  obtain ⟨l', nd', bs', hl', hfreq', hf', hlen'⟩ := H.coded_leaf C hpos
  have below : keyBelow t l' l := ⟨nd', nd, hl', hl, .inl (by omega)⟩
  rw [hlen, hlen']
  exact max_le_max_left 1 (H.greedy.path_le H.tree below hf' hf)

theorem distinct_pos {s : State} {x : Symbol} (hx : 0 < (readTable s.freq x).toNat) : 1 ≤ s.distinct :=
  List.length_pos_of_mem (List.mem_filter.mpr ⟨mem_symbols x, bne_iff_ne.mpr (ne_zero_of_toNat_pos hx)⟩)

/-- Settles O34: BUILD makes the tree of the counters, which merges greedily, and GEN gives each Leaf the length of its
path. -/
theorem higherCountsHaveNoLongerCodes : Obligations.HigherCountsHaveNoLongerCodes := by
  intro s t u hm ha hq hs hb hg x y hlt hpos
  obtain ⟨r, k, m, hb', H⟩ := exec_build_makes hm ha hq ⟨distinct_pos hpos, hs⟩
  cases hb.symm.trans hb'
  have H' := H.answer []
  obtain ⟨_, _, hg', C⟩ := genAssignsThePaths _ _ (by exact hm) H'.tree
  cases hg.symm.trans hg'
  exact H'.clen_le C hlt hpos

/-! ### RDCODE (R146) -/

theorem bitWord_toNat (b : Bool) : (bitWord b).toNat = b.toNat := by cases b <;> rfl

theorem code_getElem? {s : State} {x : Symbol} {i : Nat} {b : Bool} (h : (s.code x)[i]? = some b) :
    b = (readTable s.cbits x).getLsbD i := by
  rw [State.code, List.getElem?_map, Option.map_eq_some_iff] at h
  obtain ⟨j, hj, rfl⟩ := h
  obtain ⟨_, rfl⟩ := List.getElem?_eq_some_iff.mp hj
  rw [List.getElem_range]

theorem exec_rdcode_permitted {s : State} (x : Symbol) (hm : s.mode ≠ .fatal) :
    exec (.rdcode x) s = .next { s with out := s.out ++ codeTokens s x ++ [.st 0] } := by
  rw [List.append_assoc]
  exact exec_of_ok (i := .rdcode x) (s' := s) (bne_iff_ne.mpr hm) rfl

theorem codeTokens_eq (s : State) (x : Symbol) :
    codeTokens s x = .data ((readTable s.clen x).setWidth 32) :: ((s.code x).map bitWord).map .data := by
  rw [codeTokens, List.map_map]
  rfl

/-- Settles O35: the words after the length are those of the symbol's code, bit by bit. -/
theorem rdcodeReadsACode : Obligations.RdcodeReadsACode := by
  refine ⟨fun x => decode_encode (.rdcode x), fun s x => ⟨fun hm => ⟨(s.code x).map bitWord, ?_, ?_, ?_⟩, fun hm => ?_⟩⟩
  · rw [exec_rdcode_permitted x hm, codeTokens_eq]
  · rw [List.length_map, code_length]
  · intro i w hw
    rw [List.getElem?_map, Option.map_eq_some_iff] at hw
    obtain ⟨b, hb, rfl⟩ := hw
    rw [bitWord_toNat, code_getElem? hb]
  · exact exec_wrong_mode (by rw [hm]; rfl)

end Sys2Proof.Machine
end

