-- ==== Sys2Proof/Proofs/Encoder.lean ====
section
/-! PROOFS. 44_encoder.md: EBEGIN, ENC and EEND (R155 to R157), the EncodedStream of a committed encode frame (R158 to
R160), and why a frame that is aborted or cut has no result. -/

namespace Sys2Proof.Machine

/-! ### EBEGIN, ENC, EEND (R155 to R157) -/

/-- A command that R214 permits in one mode raises `IllegalCommand` in every other one. -/
theorem exec_outside_only {i : Instr} {m : Mode} {s : State} (hi : modesOf i = [m]) (hm : s.mode ≠ m) :
    exec i s = .next (raise .illegalCommand s) := by
  rw [exec_eq_command, hi]
  exact command_wrong_mode (mt List.mem_singleton.mp hm)

/-- A command of the ENCODE rows of R214 is permitted in ENCODE. -/
theorem permits_of_encode {i : Instr} {m : Mode} (hi : modesOf i = encodeOnly) (hm : m = .encode) :
    permits i m = true := by
  rw [← mem_modesOf, hi, hm]
  exact List.mem_singleton_self _

theorem exec_ebegin_idle {s : State} (hm : s.mode = .idle) :
    exec .ebegin s = .next (answer [] { s with mode := .encode }) :=
  exec_of_ok (i := .ebegin) (permits_of_idle rfl hm) rfl

theorem exec_enc_coded {s : State} {x : Symbol} (hm : s.mode = .encode) (hx : readTable s.clen x ≠ 0) :
    exec (.enc x) s = .next (answer ((s.code x).map .bit) s) :=
  exec_of_ok (permits_of_encode rfl hm) (encBody_ok.mpr ⟨hx, rfl, rfl⟩)

theorem encBody_of_no_entry {s : State} {x : Symbol} (hx : readTable s.clen x = 0) :
    encBody x s = .error (.raised .unknownSymbol) := by
  have hreq := require_not (c := readTable s.clen x ≠ 0) (not_not.mpr hx) .unknownSymbol
  rw [encBody, hreq, proc_bind_error]

theorem exec_eend_encode {s : State} (hm : s.mode = .encode) :
    exec .eend s = .next (answer [] { s with mode := .idle }) :=
  exec_of_ok (i := .eend) (permits_of_encode rfl hm) rfl

/-- Settles O36: the pseudocode ends with the mode set, whatever the table and the tree are. -/
theorem ebeginOpensAFrame : Obligations.EbeginOpensAFrame :=
  ⟨decode_encode .ebegin, fun _ => ⟨exec_ebegin_idle, exec_outside_only rfl⟩⟩

/-- Settles O37: the tokens are the bits of the symbol's code, which has an entry or has none. -/
theorem encEmitsTheCode : Obligations.EncEmitsTheCode := by
  refine ⟨fun x => decode_encode (.enc x), fun s x => ⟨fun hm hx => ?_, fun hm hx => ?_, exec_outside_only rfl⟩⟩
  · refine ⟨s.code x, ?_, code_length s x, fun _ _ => code_getElem?⟩
    rw [List.append_assoc]
    exact exec_enc_coded hm hx
  · exact exec_of_raised (permits_of_encode rfl hm) (encBody_of_no_entry hx)

/-- Settles O38: the pseudocode ends with the mode set back. -/
theorem eendClosesTheFrame : Obligations.EendClosesTheFrame :=
  ⟨decode_encode .eend, fun _ => ⟨exec_eend_encode, exec_outside_only rfl⟩⟩

/-! ### A committed frame (R158, R159) -/

/-- The exchange of a command that answers with `toks` and `ST(0)`. -/
def answered (i : Instr) (toks : List Token) : Exchange := ⟨.cmd (encode i), toks ++ [.st 0]⟩

@[simp] theorem answered_event (i : Instr) (toks : List Token) : (answered i toks).event = .cmd (encode i) := rfl

@[simp] theorem answered_accepted (i : Instr) (toks : List Token) : (answered i toks).accepted = true := by
  simp [answered, Exchange.accepted]

/-- A run of an answered command and then of other events. -/
theorem runEvents_answered {i : Instr} {es : List Event} {s s' u : State} {toks : List Token} {t : List Exchange}
    (hx : exec i s = .next (answer toks s')) (hout : s'.out = s.out) (h : runEvents es (answer toks s') = some (t, u)) :
    runEvents (.cmd (encode i) :: es) s = some (answered i toks :: t, u) := by
  refine runEvents_cons.mpr ⟨_, t, (runEvent_encode i s).trans hx, h, ?_⟩
  have htoks : tokensSince s (answer toks s') = toks ++ [.st 0] := by simp [tokensSince, hout]
  rw [htoks]
  rfl

/-- A frame is closed by the first closing command, if everything up to it was answered `ST(0)`. -/
theorem untilClosed_of_accepted {close : Instr} {t t' : List Exchange} {toks : List Token} (ht : AllAccepted t)
    (hno : .cmd (encode close) ∉ t.map (·.event)) : untilClosed close (t ++ answered close toks :: t') = some t := by
  induction t with
  | nil => simp [untilClosed]
  | cons y t ih =>
    obtain ⟨hy, ht⟩ := List.forall_mem_cons.mp ht
    obtain ⟨hne, hno⟩ := not_or.mp (mt List.mem_cons.mpr hno)
    simp [untilClosed, hy, Ne.symm hne, ih ht hno]

theorem committedFrame_of_accepted {opening close : Instr} {t t' : List Exchange} {toks toks' : List Token}
    (ht : AllAccepted t) (hno : .cmd (encode close) ∉ t.map (·.event)) :
    committedFrame opening close (answered opening toks :: (t ++ answered close toks' :: t')) = some t := by
  simp [committedFrame, untilClosed_of_accepted ht hno]

theorem cmd_encode_mem_asEvents {i : Instr} {cs : List Instr} : .cmd (encode i) ∈ asEvents cs ↔ i ∈ cs :=
  List.mem_map_of_injective fun _ _ h => encode_injective (Event.cmd.inj h)

/-! ### The commands of an encode frame (R158) -/

/-- What an encode frame may hold without an error: ENC of a symbol with a code, NOP, and read-outs, RDNODE of an
allocated node among them. -/
def FrameHolds (s : State) : Instr → Prop
  | .enc x => readTable s.clen x ≠ 0
  | .rdnode h => ∃ nd, s.nodeAt h = some nd
  | i => readsOnly i = true

/-- What a command of an encode frame adds to the EncodedStream. -/
def streamPart (s : State) : Instr → List Bool
  | .enc x => s.code x
  | _ => []

theorem streamPart_readsOnly {s : State} {i : Instr} (hi : readsOnly i = true) : streamPart s i = [] := by
  cases i with
  | enc => cases hi
  | _ => rfl

/-- Read-outs and NOP are permitted in every mode but FATAL (60_exceptions.md R214). -/
theorem permits_of_readsOnly {i : Instr} {m : Mode} (hi : readsOnly i = true) (hm : m ≠ .fatal) :
    permits i m = true := by
  cases i with
  | rdstat => rfl
  | nop | rdfreq | rdnode | rdcode => exact bne_iff_ne.mpr hm
  | _ => cases hi

/-- The bits of an EncodedStream are the payloads of its `BIT` tokens. -/
theorem filterMap_bit?_map_bit (bs : List Bool) : (bs.map Token.bit).filterMap Token.bit? = bs := by
  rw [List.filterMap_map]
  exact List.filterMap_some

/-- Read-out data is no part of an EncodedStream. -/
theorem filterMap_bit?_map_data (ws : List (BitVec 32)) : (ws.map Token.data).filterMap Token.bit? = [] := by
  simp [Token.bit?]

/-- Such a command answers and only emits, and the bits it emits are its part of the EncodedStream. -/
theorem FrameHolds.answers {s : State} {i : Instr} (F : FrameHolds s i) (hm : s.mode = .encode) :
    ∃ toks, exec i s = .next (answer toks s) ∧ toks.filterMap Token.bit? = streamPart s i := by
  have permitted : readsOnly i = true → permits i s.mode = true := fun hi => permits_of_readsOnly hi (by simp [hm])
  cases i with
  | enc x => exact ⟨_, exec_enc_coded hm F, filterMap_bit?_map_bit (s.code x)⟩
  | rdnode h =>
    obtain ⟨nd, hx⟩ := F
    exact ⟨_, exec_of_ok (permitted rfl) (rdnodeBody_ok.mpr ⟨nd, hx, rfl, rfl⟩), rfl⟩
  | nop | rdstat | rdfreq => exact ⟨_, exec_of_ok (permitted rfl) rfl, rfl⟩
  | rdcode x =>
    refine ⟨_, exec_of_ok (permitted rfl) rfl, ?_⟩
    rw [codeTokens_eq]
    exact filterMap_bit?_map_data (_ :: _)
  | _ => cases F

/-- The commands of a frame leave what the next ones look at alone, so they run one after the other. -/
theorem runEvents_frame {s : State} {cs : List Instr} (hm : s.mode = .encode) (hcs : ∀ i ∈ cs, FrameHolds s i) :
    ∃ t toks, runEvents (asEvents cs) s = some (t, emit toks s) ∧ AllAccepted t ∧
      (t.flatMap fun x => x.response.filterMap Token.bit?) = cs.flatMap (streamPart s) := by
  induction cs generalizing s with
  | nil => exact ⟨[], [], by simp [asEvents, runEvents, emit], List.forall_mem_nil _, rfl⟩
  | cons i cs ih =>
    obtain ⟨hi, hcs⟩ := List.forall_mem_cons.mp hcs
    obtain ⟨toks, hx, hbits⟩ := hi.answers hm
    obtain ⟨t, toks', hrun, hacc, hstream⟩ := ih (s := answer toks s) hm hcs
    have hout : emit toks' (answer toks s) = emit (toks ++ [.st 0] ++ toks') s := by simp [emit, answer]
    refine ⟨answered i toks :: t, _, hout ▸ runEvents_answered hx rfl hrun, ?_, ?_⟩
    · exact List.forall_mem_cons.mpr ⟨answered_accepted i toks, hacc⟩
    · have hpart : (answered i toks).response.filterMap Token.bit? = streamPart s i := by
        rw [answered, List.filterMap_append, hbits]
        exact List.append_nil _
      rw [List.flatMap_cons, List.flatMap_cons, hstream, hpart]
      rfl

/-- An encode frame commits, and its EncodedStream is made of its commands' parts. -/
theorem runEvents_encode_frame {s : State} {cs : List Instr} (hm : s.mode = .idle)
    (hcs : ∀ i ∈ cs, FrameHolds s i) :
    ∃ t u, runEvents (asEvents (.ebegin :: cs ++ [.eend])) s = some (t, u) ∧
      encodedStream t = some (cs.flatMap (streamPart s)) ∧ u = { s with out := u.out } := by
  obtain ⟨t, toks, hrun, hacc, hstream⟩ := runEvents_frame (s := answer [] { s with mode := .encode }) rfl hcs
  have hclose := runEvents_answered (es := [])
    (exec_eend_encode (s := emit toks (answer [] { s with mode := .encode })) rfl) rfl rfl
  have hopen := runEvents_answered (exec_ebegin_idle hm) rfl (runEvents_append hrun hclose)
  have hevents : asEvents (.ebegin :: cs ++ [.eend]) =
      .cmd (encode .ebegin) :: (asEvents cs ++ [.cmd (encode .eend)]) := by simp [asEvents]
  have hno : .cmd (encode .eend) ∉ t.map (·.event) := by
    rw [runEvents_events hrun, cmd_encode_mem_asEvents]
    exact fun he => nomatch hcs _ he
  refine ⟨_, _, hevents ▸ hopen, ?_, ?_⟩
  · rw [encodedStream, committedFrame_of_accepted hacc hno, Option.map_some, hstream]
    rfl
  · rw [← hm]
    rfl

/-- Read-outs add nothing to the stream. -/
theorem flatMap_streamPart_filter (s : State) (cs : List Instr) :
    (cs.filter fun i => !readsOnly i).flatMap (streamPart s) = cs.flatMap (streamPart s) := by
  induction cs with
  | nil => rfl
  | cons i cs ih =>
    cases hr : readsOnly i with
    | true => simp [hr, ih, streamPart_readsOnly hr]
    | false => simp [hr, ih]

section
variable {s : State} {cs : List Instr} {input : List Symbol}
  (hcs : cs.filter (fun i => !readsOnly i) = input.map .enc)
include hcs

/-- A command of the frame reads out, or is ENC of a symbol of the input. -/
theorem frameHolds_of_filter (hin : ∀ x ∈ input, readTable s.clen x ≠ 0)
    (hnode : ∀ h, .rdnode h ∈ cs → ∃ nd, s.nodeAt h = some nd) : ∀ i ∈ cs, FrameHolds s i := by
  intro i hi
  cases hr : readsOnly i with
  | true =>
    cases i with
    | rdnode h => exact hnode h hi
    | enc => cases hr
    | _ => exact hr
  | false =>
    have hmem : i ∈ input.map .enc := hcs ▸ List.mem_filter.mpr ⟨hi, by simp [hr]⟩
    obtain ⟨x, hx, rfl⟩ := List.mem_map.mp hmem
    exact hin x hx

/-- The parts of the frame's commands are the codes of the input's symbols, in order. -/
theorem flatMap_streamPart : cs.flatMap (streamPart s) = input.flatMap s.code := by
  calc cs.flatMap (streamPart s) = (input.map .enc).flatMap (streamPart s) := by rw [← flatMap_streamPart_filter, hcs]
    _ = input.flatMap s.code := List.flatMap_map _ _ _

end

theorem length_flatMap_code (s : State) (input : List Symbol) :
    (input.flatMap s.code).length = (input.map fun x => (readTable s.clen x).toNat).sum := by
  simp only [List.length_flatMap, code_length]

/-! ### A broken frame (R160, R173) -/

/-- The exchange breaks an open frame: a reset, a command cut by one, or a command answered with an error. -/
def Breaks (x : Exchange) : Prop :=
  x.event = .rst ∨ (∃ w k, x.event = .cut w k) ∨ ∃ c, x.response.getLast? = some (.st c) ∧ c ≠ 0

theorem Breaks.not_accepted {x : Exchange} (B : Breaks x) : x.accepted = false := by
  obtain ⟨e, toks⟩ := x
  cases e with
  | rst | cut => rfl
  | cmd w =>
    obtain h | ⟨_, _, h⟩ | ⟨c, hc, hne⟩ := B
    · cases h
    · cases h
    · have hlast : toks.getLast? ≠ some (.st 0) := fun h => hne (Token.st.inj (Option.some.inj (hc.symm.trans h)))
      exact beq_eq_false_iff_ne.mpr hlast

/-- A command whose last token is an error's code raised. -/
theorem exec_of_error_answer {i : Instr} {s t : State} {c : StatusCode} (h : exec i s = .next t)
    (hlast : (tokensSince s t).getLast? = some (.st c)) (hc : c ≠ 0) :
    ∃ e ∈ errorsOf i, t = raise e s ∧ (permits i s.mode = true ∨ e = .illegalCommand) := by
  rcases exec_answers_or_raises h with ⟨_, s', toks, hb, rfl⟩ | hr
  · have htoks : tokensSince s (answer toks s') = toks ++ [.st 0] := by simp [tokensSince, (bodyOf_ownedOnly hb).out]
    rw [htoks, List.getLast?_concat] at hlast
    cases hlast
    exact absurd rfl hc
  · exact hr

/-- A recoverable error closes an open frame (60_exceptions.md R212). -/
theorem raise_closes_frame {e : Error} {s : State} (hm : s.mode = .encode ∨ s.mode = .decode) (he : e.fatal = false) :
    (raise e s).mode = .idle := by
  rw [raise_in_frame hm he]

/-- A word answered with an error in an open frame closes it: no command raises a fatal error there. -/
theorem runWord_closes_frame {w : Word} {s t : State} {c : StatusCode} (h : runWord w s = .next t)
    (hlast : (tokensSince s t).getLast? = some (.st c)) (hc : c ≠ 0) (hm : s.mode = .encode ∨ s.mode = .decode) :
    t.mode = .idle := by
  rcases runWord_next h with ⟨i, _, hx⟩ | ⟨_, rfl⟩
  · obtain ⟨e, he, rfl, hp⟩ := exec_of_error_answer hx hlast hc
    exact raise_closes_frame hm (not_fatal_of_outside_builder he hp (.inr hm))
  · exact raise_closes_frame hm rfl

theorem Breaks.closes_frame {e : Event} {s t : State} (B : Breaks ⟨e, tokensSince s t⟩) (h : runEvent e s = .next t)
    (hm : s.mode = .encode ∨ s.mode = .decode) : t.mode = .idle := by
  cases e with
  | rst => cases h; rfl
  | cut w k => obtain ⟨_, _, rfl⟩ := cutWord_next h; rfl
  | cmd w =>
    obtain h' | ⟨_, _, h'⟩ | ⟨c, hlast, hc⟩ := B
    · cases h'
    · cases h'
    · exact runWord_closes_frame h hlast hc hm

/-- Settles O39: the commands of a frame only emit, so the stream is made of their parts; a breaking event is not
accepted, so no frame is committed across it. -/
theorem streamIsTheConcatenationOfCodes : Obligations.StreamIsTheConcatenationOfCodes := by
  refine ⟨fun s cs input hm hin hcs hnode => ?_, fun before later e toks s v w u t t' hbefore he _ hbreak => ?_⟩
  · obtain ⟨t, u, hrun, hstream, hframe⟩ := runEvents_encode_frame hm (frameHolds_of_filter hcs hin hnode)
    rw [flatMap_streamPart hcs] at hstream
    exact ⟨t, u, _, hrun, hstream, rfl, length_flatMap_code s input, hframe⟩
  · obtain ⟨w', _, hstep, hnil, heq⟩ := runEvents_cons.mp he
    cases hnil
    cases heq
    have B : Breaks ⟨e, tokensSince v w⟩ := hbreak
    have hevents := runEvents_events hbefore
    refine ⟨B.closes_frame hstep, fun hno => ?_, fun hno => ?_⟩
    · rw [encodedStream, committedFrame_broken B.not_accepted (hevents ▸ hno), Option.map_none]
    · rw [decodedOutput, committedFrame_broken B.not_accepted (hevents ▸ hno), Option.map_none]

end Sys2Proof.Machine
end

