-- ==== Sys2Proof/Proofs/Decoder.lean ====
section
/-! PROOFS. 45_decoder.md: DBEGIN, DEC and DEND (R170 to R172, R175, R176), and what a decode frame makes of a string of
codes (R171, R173). -/

namespace Sys2Proof.Machine

/-! ### DBEGIN and DEND (R170, R172) -/

/-- A command of the DECODE rows of R214 is permitted in DECODE. -/
theorem permits_of_decode {i : Instr} {m : Mode} (hi : modesOf i = decodeOnly) (hm : m = .decode) :
    permits i m = true := by
  rw [← mem_modesOf, hi, hm]
  exact List.mem_singleton_self _

theorem dbeginBody_of_no_tree {s : State} (hr : s.root = NIL) : dbeginBody s = .error (.raised .corruptStream) := by
  rw [dbeginBody, require_not (not_not.mpr hr), proc_bind_error]

theorem dendBody_inside {s : State} (hc : s.cur ≠ s.root) : dendBody s = .error (.raised .corruptStream) := by
  rw [dendBody, require_not hc, proc_bind_error]

/-- Settles O40: the root is present, it is absent, or the mode is wrong. -/
theorem dbeginStartsAtTheRoot : Obligations.DbeginStartsAtTheRoot :=
  ⟨decode_encode .dbegin, fun _ =>
    ⟨fun hm hr => exec_of_ok (i := .dbegin) (permits_of_idle rfl hm) (dbeginBody_ok.mpr ⟨hr, rfl, rfl⟩),
      fun hm hr => exec_of_raised (permits_of_idle rfl hm) (dbeginBody_of_no_tree hr), exec_outside_idle rfl⟩⟩

/-- Settles O42: the cursor is at the root, it is inside the tree, or the mode is wrong. -/
theorem dendTestsTheCursor : Obligations.DendTestsTheCursor :=
  ⟨decode_encode .dend, fun _ =>
    ⟨fun hm hc => exec_of_ok (i := .dend) (permits_of_decode rfl hm) (dendBody_ok.mpr ⟨hc, rfl, rfl⟩),
      fun hm hc => exec_of_raised (permits_of_decode rfl hm) (dendBody_inside hc), exec_outside_only rfl⟩⟩

/-! ### DEC (R171, R175, R176) -/

theorem recognizedBit_operand (b : Bool) : recognizedBit (if b then 1 else 0) = some b :=
  (recognizedBit_eq_some _ b).mpr rfl

/-- The operands 0 and 1 stand for the edges to the left and to the right child. -/
theorem exists_recognizedBit {v : BitVec 8} (hv : v = 0 ∨ v = 1) :
    ∃ b, recognizedBit v = some b ∧ ∀ nd : Node, nd.child b = if v = 0 then nd.left else nd.right := by
  rcases hv with rfl | rfl
  · exact ⟨LEFT_BIT, rfl, fun _ => rfl⟩
  · exact ⟨RIGHT_BIT, rfl, fun _ => rfl⟩

section
variable {s : State} {v : BitVec 8} {b : Bool} {nd m : Node}

theorem decBody_to_leaf (hv : recognizedBit v = some b) (hx : s.nodeAt s.cur = some nd) (hk : nd.kind = .internal)
    (hc : s.nodeAt (nd.child b) = some m) (hmk : m.kind = .leaf) :
    decBody v s = .ok ({ s with cur := s.root }, [.sym m.sym]) :=
  decBody_ok.mpr ⟨b, nd, hv, hx, .inr ⟨m, hk, hc, .inl ⟨hmk, rfl, rfl⟩⟩⟩

theorem decBody_to_internal (hv : recognizedBit v = some b) (hx : s.nodeAt s.cur = some nd) (hk : nd.kind = .internal)
    (hc : s.nodeAt (nd.child b) = some m) (hmk : m.kind = .internal) :
    decBody v s = .ok ({ s with cur := nd.child b }, []) :=
  decBody_ok.mpr ⟨b, nd, hv, hx, .inr ⟨m, hk, hc, .inr ⟨hmk, rfl, rfl⟩⟩⟩

theorem decBody_at_leaf (hv : recognizedBit v = some LEFT_BIT) (hx : s.nodeAt s.cur = some nd) (hk : nd.kind = .leaf) :
    decBody v s = .ok (s, [.sym nd.sym]) :=
  decBody_ok.mpr ⟨LEFT_BIT, nd, hv, hx, .inl ⟨hk, rfl, rfl, rfl⟩⟩

theorem decBody_right_at_leaf (hv : recognizedBit v = some RIGHT_BIT) (hx : s.nodeAt s.cur = some nd)
    (hk : nd.kind = .leaf) : decBody v s = .error (.raised .corruptStream) := by
  simp only [decBody, hv, moveCursor, (readNode_eq_ok s s.cur nd).mpr hx, proc_bind_ok, hk]
  rfl

theorem decBody_unrecognized (hv : 2 ≤ v.toNat) : decBody v s = .error (.raised .corruptStream) := by
  have h0 : v ≠ 0#8 := by rintro rfl; cases hv
  have h1 : v ≠ 1#8 := by rintro rfl; revert hv; decide
  rw [decBody, recognizedBit, if_neg h0, if_neg h1]

end

/-- Settles O41: the node at the cursor is Internal, with a Leaf or an Internal node at the end of the edge, or it is a
Leaf, where only the left bit is a code; a bit value that is not recognized looks at no node. -/
theorem decWalksTheTree : Obligations.DecWalksTheTree := by
  refine ⟨fun v => decode_encode (.dec v), fun s v => ?_⟩
  have permitted : s.mode = .decode → permits (.dec v) s.mode = true := permits_of_decode rfl
  refine ⟨fun nd m hm hv hx hk hc => ?_, fun nd hm hx hk => ⟨fun hv => ?_, fun hv => ?_⟩, fun hm hv => ?_,
    exec_outside_only rfl⟩
  · obtain ⟨b, hb, hchild⟩ := exists_recognizedBit hv
    rw [← hchild nd] at hc ⊢
    exact ⟨fun hmk => exec_of_ok (permitted hm) (decBody_to_leaf hb hx hk hc hmk),
      fun hmk => exec_of_ok (permitted hm) (decBody_to_internal hb hx hk hc hmk)⟩
  · exact exec_of_ok (permitted hm) (decBody_at_leaf (hv ▸ rfl) hx hk)
  · exact exec_of_raised (permitted hm) (decBody_right_at_leaf (hv ▸ rfl) hx hk)
  · exact exec_of_raised (permitted hm) (decBody_unrecognized hv)

/-- With two or more leaves the root is an Internal node (10_state.md R30 (a), (c)). -/
theorem TreePresent.root_internal {s : State} {n : Nat} (T : TreePresent s n) (hn : 2 ≤ n) :
    ∃ nd, s.nodeAt s.root = some nd ∧ nd.kind = .internal := by
  have hroot := T.rootLast
  have hsize := T.size
  obtain ⟨nd, hx, hk, _⟩ := T.internals s.root (by omega) T.root_lt
  exact ⟨nd, hx, hk⟩

theorem TreePresent.child_allocated {s : State} {n : Nat} (T : TreePresent s n) {p : Handle} {nd : Node}
    (hx : s.nodeAt p = some nd) (hk : nd.kind = .internal) (b : Bool) : ∃ m, s.nodeAt (nd.child b) = some m := by
  obtain ⟨x, y, hl, hr, _⟩ := T.sums p nd hx hk
  cases b
  · exact ⟨x, hl⟩
  · exact ⟨y, hr⟩

/-- Settles O43: the cursor is on an Internal node, the root included, and both its children are allocated. -/
theorem everyBitParsesInALargeTree : Obligations.EveryBitParsesInALargeTree := by
  intro s n b S hm T hn
  have hcur : ∃ nd, s.nodeAt s.cur = some nd ∧ nd.kind = .internal := by
    obtain ⟨_, hroot | hinner⟩ := (if_pos hm).mp S.cursor
    · rw [hroot]
      exact T.root_internal hn
    · exact hinner
  obtain ⟨nd, hx, hk⟩ := hcur
  obtain ⟨m, hc⟩ := T.child_allocated hx hk b
  have hb := recognizedBit_operand b
  have hp := permits_of_decode (i := .dec (if b then 1 else 0)) rfl hm
  cases hmk : m.kind with
  | leaf => exact ⟨_, [.sym m.sym], exec_of_ok hp (decBody_to_leaf hb hx hk hc hmk), by simp, hm⟩
  | internal => exact ⟨_, [], exec_of_ok hp (decBody_to_internal hb hx hk hc hmk), by simp, hm⟩

/-! ### Runs in which every command is accepted -/

theorem AllAccepted.append {t t' : List Exchange} (ht : AllAccepted t) (ht' : AllAccepted t') : AllAccepted (t ++ t') :=
  List.forall_mem_append.mpr ⟨ht, ht'⟩

/-- The commands `cs` run from `s` to `u` with the transcript `t`, and each is answered `ST(0)`. -/
structure AcceptedRun (cs : List Instr) (s : State) (t : List Exchange) (u : State) : Prop where
  run : runEvents (asEvents cs) s = some (t, u)
  accepted : AllAccepted t

section
variable {i opening close : Instr} {cs cs' : List Instr} {s s' v w u : State} {t t' : List Exchange}
  {toks toks' : List Token}

theorem AcceptedRun.nil (s : State) : AcceptedRun [] s [] s := ⟨rfl, List.forall_mem_nil _⟩

theorem AcceptedRun.append (h : AcceptedRun cs s t v) (h' : AcceptedRun cs' v t' u) :
    AcceptedRun (cs ++ cs') s (t ++ t') u := by
  refine ⟨?_, h.accepted.append h'.accepted⟩
  rw [asEvents, List.map_append]
  exact runEvents_append h.run h'.run

/-- A permitted command whose pseudocode ends. -/
theorem AcceptedRun.single (hp : permits i s.mode = true) (hb : bodyOf i s = .ok (s', toks)) :
    AcceptedRun [i] s [answered i toks] (answer toks s') :=
  ⟨runEvents_answered (exec_of_ok hp hb) (bodyOf_ownedOnly hb).out rfl,
    List.forall_mem_singleton.mpr (answered_accepted i toks)⟩

/-- An opening command, the commands of a frame and the closing command make a committed frame. -/
theorem AcceptedRun.frame (ho : AcceptedRun [opening] s [answered opening toks] v) (h : AcceptedRun cs v t w)
    (hc : AcceptedRun [close] w [answered close toks'] u) (hno : close ∉ cs) :
    ∃ t', AcceptedRun (opening :: cs ++ [close]) s t' u ∧ committedFrame opening close t' = some t := by
  have hevents : .cmd (encode close) ∉ t.map (·.event) := by
    rwa [runEvents_events h.run, cmd_encode_mem_asEvents]
  refine ⟨_, (ho.append h).append hc, ?_⟩
  rw [List.append_assoc]
  exact committedFrame_of_accepted h.accepted hevents

end

/-! ### Decoding a string of bits (R171) -/

/-- The symbols emitted in a transcript. -/
def symbolsOf (t : List Exchange) : List Symbol := t.flatMap fun x => x.response.filterMap Token.sym?

theorem symbolsOf_append (t t' : List Exchange) : symbolsOf (t ++ t') = symbolsOf t ++ symbolsOf t' :=
  List.flatMap_append

/-- `s` in an open decode frame, with the cursor at `h` and the output `l`. -/
def cursorAt (s : State) (h : Handle) (l : List Token) : State := { s with mode := .decode, cur := h, out := l }

/-- In the tree of `s` the bits `bs` are accepted, lead the cursor from `h` to `h'`, and emit the symbols `ys`, whatever
was emitted before. -/
def Decodes (s : State) (h h' : Handle) (bs : List Bool) (ys : List Symbol) : Prop :=
  ∀ l, ∃ t l', AcceptedRun (decCommands bs) (cursorAt s h l) t (cursorAt s h' l') ∧ symbolsOf t = ys

section
variable {s : State} {h h' h'' c d : Handle} {b b' : Bool} {bs bs' : List Bool} {ys ys' : List Symbol} {nd : Node}

theorem Decodes.nil (s : State) (h : Handle) : Decodes s h h [] [] := fun l => ⟨[], l, .nil _, rfl⟩

theorem Decodes.append (D : Decodes s h h' bs ys) (D' : Decodes s h' h'' bs' ys') :
    Decodes s h h'' (bs ++ bs') (ys ++ ys') := by
  intro l
  obtain ⟨t, l', hrun, rfl⟩ := D l
  obtain ⟨t', l'', hrun', rfl⟩ := D' l'
  refine ⟨t ++ t', l'', ?_, symbolsOf_append t t'⟩
  rw [decCommands, List.map_append]
  exact hrun.append hrun'

/-- One bit that DEC accepts at `h` in the tree of `s`. -/
theorem Decodes.of_decBody {toks : List Token}
    (hb : ∀ l, decBody (if b then 1 else 0) (cursorAt s h l) = .ok (cursorAt s h' l, toks)) :
    Decodes s h h' [b] (toks.filterMap Token.sym?) := by
  intro l
  refine ⟨_, _, .single (i := .dec (if b then 1 else 0)) rfl (hb l), ?_⟩
  simp [symbolsOf, answered, Token.sym?]

theorem Decodes.edge (hc : isChild s h b c) (hd : isChild s c b' d) : Decodes s h c [b] [] := by
  obtain ⟨nd, hx, hk, rfl⟩ := hc
  obtain ⟨m, hm, hmk, _⟩ := hd
  exact .of_decBody (toks := []) fun _ => decBody_to_internal (recognizedBit_operand b) hx hk hm hmk

theorem Decodes.edge_to_leaf (hc : isChild s h b c) (hl : s.nodeAt c = some nd) (hlk : nd.kind = .leaf) :
    Decodes s h s.root [b] [nd.sym] := by
  obtain ⟨p, hx, hk, rfl⟩ := hc
  exact .of_decBody (toks := [.sym nd.sym]) fun _ => decBody_to_leaf (recognizedBit_operand b) hx hk hl hlk

/-- At a Leaf root the cursor stays (R176). -/
theorem Decodes.leaf_root (hl : s.nodeAt h = some nd) (hlk : nd.kind = .leaf) : Decodes s h h [LEFT_BIT] [nd.sym] :=
  .of_decBody (toks := [.sym nd.sym]) fun _ => decBody_at_leaf rfl hl hlk

/-- A path to a Leaf emits the Leaf's symbol at its last edge. -/
theorem Decodes.path (hl : s.nodeAt c = some nd) (hlk : nd.kind = .leaf) (hf : follow s h (b :: bs) = some c) :
    Decodes s h s.root (b :: bs) [nd.sym] := by
  induction bs generalizing h b with
  | nil =>
    obtain ⟨c', hc, hend⟩ := follow_cons.mp hf
    cases hend
    exact .edge_to_leaf hc hl hlk
  | cons b' bs ih =>
    obtain ⟨c', hc, hrest⟩ := follow_cons.mp hf
    obtain ⟨d, hd, _⟩ := follow_cons.mp hrest
    exact (Decodes.edge hc hd).append (ih hrest)

/-- The code of a symbol gives the symbol and leads back to the root. -/
theorem Decodes.code {x : Symbol} (hx : IsCode s x bs) : Decodes s s.root s.root bs [x] := by
  obtain ⟨l, nd, hl, hlk, rfl, hcode⟩ := hx
  by_cases hroot : l = s.root
  · rw [if_pos hroot] at hcode
    rw [hcode, ← hroot]
    exact .leaf_root hl hlk
  · rw [if_neg hroot] at hcode
    cases bs with
    | nil => cases hcode; exact absurd rfl hroot
    | cons b bs => exact .path hl hlk hcode

theorem Decodes.codes {code : Symbol → List Bool} {input : List Symbol} (hcode : ∀ x ∈ input, IsCode s x (code x)) :
    Decodes s s.root s.root (input.flatMap code) input := by
  induction input with
  | nil => exact .nil s s.root
  | cons x xs ih =>
    obtain ⟨hx, hxs⟩ := List.forall_mem_cons.mp hcode
    exact (Decodes.code hx).append (ih hxs)

end

theorem dend_not_mem_decCommands (bs : List Bool) : .dend ∉ decCommands bs := by simp [decCommands]

/-- A decode frame over the codes of an input is committed, and its output is the input. -/
theorem runEvents_decode_frame {s : State} {code : Symbol → List Bool} {input : List Symbol} (hm : s.mode = .idle)
    (hcur : s.cur = NIL) (hroot : s.root ≠ NIL) (hcode : ∀ x ∈ input, IsCode s x (code x)) :
    ∃ t u, AcceptedRun (decompressCommands (input.flatMap code)) s t u ∧ decodedOutput t = some input ∧
      u = { s with out := u.out } := by
  have hopen := AcceptedRun.single (i := .dbegin) (permits_of_idle rfl hm) (dbeginBody_ok.mpr ⟨hroot, rfl, rfl⟩)
  obtain ⟨t, l, hrun, hsymbols⟩ := Decodes.codes hcode (s.out ++ [.st 0])
  have hclose := AcceptedRun.single (i := .dend) (s := cursorAt s s.root l) rfl (dendBody_ok.mpr ⟨rfl, rfl, rfl⟩)
  obtain ⟨t', hrun', hframe⟩ := hopen.frame hrun hclose (dend_not_mem_decCommands _)
  refine ⟨t', _, hrun', ?_, ?_⟩
  · rw [decodedOutput, hframe, Option.map_some]
    exact congrArg some hsymbols
  · rw [← hm, ← hcur]
    rfl

/-- Settles O44: each code is a path to its symbol's Leaf, so its bits emit that symbol and bring the cursor back to the
root, where the next code starts and where DEND closes the frame. -/
theorem decoderMirrorsTheTable : Obligations.DecoderMirrorsTheTable := by
  intro s n input hm hcur T C hin
  obtain ⟨t, u, hrun, hout, hframe⟩ :=
    runEvents_decode_frame hm hcur T.root_ne_nil fun x hx => C.codes x (hin x hx)
  exact ⟨t, u, hrun.run, hout, hframe⟩

end Sys2Proof.Machine
end

