-- ==== Sys2Proof/Proofs/RoundTrip.lean ====
section
/-! PROOFS. 45_decoder.md R174: the counting part of COMPRESS leaves the tree of the input's counts and its code table,
the encode frame emits the input's codes, and any block whose tree has the same nodes decodes them. -/

namespace Sys2Proof.Machine

/-! ### The same nodes, the same codes -/

section
variable {s t u v : State}

theorem follow_congr (hnode : ∀ h, t.nodeAt h = s.nodeAt h) (h : Handle) (bs : List Bool) :
    follow t h bs = follow s h bs := by
  induction bs generalizing h with
  | nil => rfl
  | cons b bs ih => simp only [follow, hnode, ih]

theorem IsCode.congr {x : Symbol} {code : List Bool} (hc : IsCode s x code) (hroot : t.root = s.root)
    (hnode : ∀ h, t.nodeAt h = s.nodeAt h) : IsCode t x code := by
  obtain ⟨l, nd, hl, hk, hsym, hcode⟩ := hc
  exact ⟨l, nd, (hnode l).trans hl, hk, hsym, by rwa [hroot, follow_congr hnode]⟩

theorem TreeKept.nodeAt (k : TreeKept s t) (h : Handle) : t.nodeAt h = s.nodeAt h := by
  obtain ⟨_, hnalloc, hnode⟩ := k
  rw [State.nodeAt, State.nodeAt, hnalloc, hnode]

theorem TableOf.congr (C : TableOf s u) (k : TreeKept s t) (k' : TableKept u v) : TableOf t v := by
  have C := C.of_kept k'
  exact ⟨fun x hx => (C.codes x hx).congr k.1 k.nodeAt, fun h nd hx => C.leaves h nd ((k.nodeAt h).symm.trans hx),
    C.unused⟩

/-- The tree of a block's counters is that of any block with the same counters and the same tree. -/
theorem HuffmanTreeOf.of_kept (H : HuffmanTreeOf s t) (hf : v.freq = s.freq) (k : TreeKept t u) :
    HuffmanTreeOf v u := by
  have H := H.of_freq hf
  obtain ⟨hroot, hnalloc, hnode⟩ := k
  cases t
  cases u
  subst hroot hnalloc hnode
  exact ⟨H.tree.of_kept ⟨rfl, rfl, rfl⟩, ⟨H.leaves.counted, H.leaves.present⟩, H.rootFreq, H.greedy⟩

end

/-! ### The counters of an input -/

/-- The counters hold the occurrences of each symbol in the input (40_frequency.md R104). -/
def CountsOf (f : Vector Count 256) (input : List Symbol) : Prop := ∀ x, (readTable f x).toNat = input.count x

section
variable {s : State} {input : List Symbol}

theorem CountsOf.ne_zero_iff {f : Vector Count 256} (N : CountsOf f input) (x : Symbol) :
    readTable f x ≠ 0 ↔ x ∈ input := by
  rw [← List.count_pos_iff, ← N x]
  exact ⟨fun hne => Nat.pos_of_ne_zero fun hz => hne (BitVec.eq_of_toNat_eq hz), ne_zero_of_toNat_pos⟩

theorem CountsOf.unique {f g : Vector Count 256} (N : CountsOf f input) (N' : CountsOf g input) : f = g :=
  table_ext f g fun x => BitVec.eq_of_toNat_eq ((N x).trans (N' x).symm)

/-- The distinct symbols of the counters are those of the input. -/
theorem CountsOf.distinct (N : CountsOf s.freq input) : s.distinct = input.dedup.length := by
  have hsame : ∀ x, x ∈ symbols.filter (fun x => readTable s.freq x != 0) ↔ x ∈ input.dedup := fun x => by
    rw [List.mem_filter, bne_iff_ne, N.ne_zero_iff, List.mem_dedup]
    exact and_iff_right (mem_symbols x)
  exact ((List.perm_ext_iff_of_nodup (symbols_nodup.filter _) input.nodup_dedup).mpr hsame).length_eq

theorem CountsOf.buildFits (N : CountsOf s.freq input) (hne : input ≠ [])
    (hfit : 2 * input.dedup.length - 1 ≤ s.config.arenaSize) : BuildFits s := by
  rw [BuildFits, N.distinct]
  exact ⟨List.length_pos_iff.mpr (mt (List.dedup_eq_nil input).mp hne), hfit⟩

/-- FCLR and one COUNT per byte leave the counts of an input that no counter overflows on. -/
theorem acceptedRun_counting (hm : s.mode = .idle) (hlen : input.length ≤ 2 ^ 32 - 1) :
    ∃ t u, AcceptedRun (.fclr :: input.map .count) s t u ∧ u = { s with freq := u.freq, out := u.out } ∧
      CountsOf u.freq input := by
  have hclear := AcceptedRun.single (i := .fclr) (permits_of_idle rfl hm) rfl
  obtain ⟨t, u, hrun, run⟩ :=
    runEvents_counts (s := answer [] { s with freq := Vector.replicate 256 0 }) input hm
  have hzero : ∀ x, (readTable (Vector.replicate 256 (0 : Count)) x).toNat + input.count x = input.count x :=
    fun x => by simp
  have hacc := run.room fun x => (hzero x).trans_le (List.count_le_length.trans hlen)
  obtain ⟨hframe, hcount⟩ := run.grown hacc
  exact ⟨_, u, hclear.append ⟨hrun, hacc⟩, hframe, fun x => (hcount x).trans (hzero x)⟩

end

/-! ### Compressing -/

/-- An idle block without a tree. -/
structure Vacant (s : State) : Prop where
  mode : s.mode = .idle
  cursor : s.cur = NIL
  tree : TreeAbsent s
  queue : s.q = []

/-- An idle block that holds the counts of the input and their tree. -/
structure Built (input : List Symbol) (s : State) : Prop where
  mode : s.mode = .idle
  cursor : s.cur = NIL
  counts : CountsOf s.freq input
  fits : BuildFits s
  tree : HuffmanTreeOf s s

/-- An idle block that holds the counts of the input, their tree and its code table. -/
structure Compressed (input : List Symbol) (s : State) : Prop extends Built input s where
  table : TableOf s s

section
variable {s u : State} {input : List Symbol}

theorem SafeState.vacant (S : SafeState s) (hm : s.mode = .idle) (hr : s.root = NIL) : Vacant s :=
  ⟨hm, S.control.cursor (by simp [hm]), S.tree.absent hr, S.control.queue⟩

theorem resetBlock_vacant (s : State) : Vacant (resetBlock s) := ⟨rfl, rfl, ⟨rfl, rfl⟩, rfl⟩

/-- Counting makes no tree. -/
theorem Vacant.of_counters (V : Vacant s) (k : u = { s with freq := u.freq, out := u.out }) : Vacant u := by
  rw [k]
  exact ⟨V.mode, V.cursor, V.tree, V.queue⟩

/-- The counts of an input determine the codes (42_tree_builder.md R127). -/
theorem Built.isCode_congr (B : Built input s) (B' : Built input u) {x : Symbol} {code : List Bool}
    (hc : IsCode s x code) : IsCode u x code := by
  have H := B'.tree.of_freq (B.counts.unique B'.counts)
  exact hc.congr (H.root_eq B.tree) (H.nodeAt_eq B.tree)

theorem Compressed.coded (K : Compressed input s) : ∀ x ∈ input, readTable s.clen x ≠ 0 := by
  intro x hx
  obtain ⟨l, nd, hl, hk, rfl⟩ := K.tree.leaves.present x ((K.counts.ne_zero_iff x).mpr hx)
  exact K.table.leaves l nd hl hk

theorem Compressed.isCode (K : Compressed input s) : ∀ x ∈ input, IsCode s x (s.code x) :=
  fun x hx => K.table.codes x (K.coded x hx)

/-- The output is no part of the block. -/
theorem Compressed.of_output (K : Compressed input s) (k : u = { s with out := u.out }) : Compressed input u := by
  rw [k]
  exact ⟨⟨K.mode, K.cursor, K.counts, K.fits, K.tree.of_kept rfl ⟨rfl, rfl, rfl⟩⟩,
    K.table.congr ⟨rfl, rfl, rfl⟩ ⟨rfl, rfl⟩⟩

theorem Vacant.acceptedRun_build (V : Vacant s) (N : CountsOf s.freq input) (hf : BuildFits s) :
    ∃ t u, AcceptedRun [.build] s t u ∧ Built input u := by
  obtain ⟨r, n, m, hb, H⟩ := buildBody_makes V.tree V.queue hf
  exact ⟨_, _, .single (i := .build) (permits_of_idle rfl V.mode) hb, V.mode, V.cursor, N, hf,
    (H.answer []).of_freq rfl⟩

theorem Built.acceptedRun_gen (B : Built input s) : ∃ t u, AcceptedRun [.gen] s t u ∧ Compressed input u := by
  obtain ⟨v, hg, _⟩ := genBody_gives B.tree.tree
  have C := genBody_tableOf B.tree.tree hg
  obtain ⟨_, hframe⟩ := genBody_ok hg
  refine ⟨_, _, .single (i := .gen) (permits_of_idle rfl B.mode) hg, ?_⟩
  rw [hframe] at C ⊢
  exact ⟨⟨B.mode, B.cursor, B.counts, B.fits, B.tree.of_kept rfl ⟨rfl, rfl, rfl⟩⟩, C.congr ⟨rfl, rfl, rfl⟩ ⟨rfl, rfl⟩⟩

/-- The counting part of COMPRESS (30_encoding.md R86). -/
theorem acceptedRun_compress (V : Vacant s) (hne : input ≠ []) (hlen : input.length ≤ 2 ^ 32 - 1)
    (hfit : 2 * input.dedup.length - 1 ≤ s.config.arenaSize) :
    ∃ t u, AcceptedRun (.fclr :: input.map .count ++ [.build, .gen]) s t u ∧ Compressed input u := by
  obtain ⟨t, v, hcount, hframe, N⟩ := acceptedRun_counting V.mode hlen
  have hfits : BuildFits v := N.buildFits hne (by rw [hframe]; exact hfit)
  obtain ⟨t', w, hbuild, B⟩ := (V.of_counters hframe).acceptedRun_build N hfits
  obtain ⟨t'', u, hgen, K⟩ := B.acceptedRun_gen
  exact ⟨_, u, hcount.append (hbuild.append hgen), K⟩

theorem eend_not_mem_encs (input : List Symbol) : .eend ∉ input.map Instr.enc := by simp

/-- The encode frame of COMPRESS emits the codes of the input (44_encoder.md R158). -/
theorem Compressed.acceptedRun_encode (K : Compressed input s) :
    ∃ t u, AcceptedRun (.ebegin :: input.map .enc ++ [.eend]) s t u ∧
      encodedStream t = some (input.flatMap s.code) ∧ u = { s with out := u.out } := by
  have hopen := AcceptedRun.single (i := .ebegin) (permits_of_idle rfl K.mode) rfl
  have holds : ∀ i ∈ input.map Instr.enc, FrameHolds (answer [] { s with mode := .encode }) i :=
    List.forall_mem_map.mpr K.coded
  obtain ⟨t, toks, hrun, hacc, hbits⟩ := runEvents_frame (s := answer [] { s with mode := .encode }) rfl holds
  have hclose := AcceptedRun.single (i := .eend) (s := emit toks (answer [] { s with mode := .encode })) rfl rfl
  obtain ⟨t', hrun', hframe⟩ := hopen.frame ⟨hrun, hacc⟩ hclose (eend_not_mem_encs input)
  refine ⟨t', _, hrun', ?_, ?_⟩
  · rw [encodedStream, hframe, Option.map_some, hbits, List.flatMap_map]
    rfl
  · rw [← K.mode]
    rfl

end

/-- Settles O45: the counting part leaves the tree and its table, which the encode frame keeps, so the stream is made of
codes of the tree that is still present. -/
theorem roundTrip : Obligations.RoundTrip := by
  intro s input S hm hr _ hne hlen hfit
  obtain ⟨t0, s0, run0, K0⟩ := acceptedRun_compress (S.vacant hm hr) hne hlen hfit
  obtain ⟨t1, s1, run1, hstream, hframe⟩ := K0.acceptedRun_encode
  have hcode : s1.code = s0.code := by rw [hframe]; rfl
  have K1 := K0.of_output hframe
  obtain ⟨t2, s2, run2, hout, _⟩ :=
    runEvents_decode_frame K1.mode K1.cursor K1.tree.tree.root_ne_nil K1.isCode
  rw [hcode] at run2
  exact ⟨t0, s0, t1, s1, _, t2, s2, run0.run, run1.run, hstream, run2.run, hout,
    (run0.accepted.append run1.accepted).append run2.accepted⟩

/-! ### A later session (R241, R247) -/

/-- One LDF for each of the symbols `xs` loads its entry of the table `f`. -/
theorem acceptedRun_reload (f : Vector Count 256) (xs : List Symbol) {s : State} (hm : s.mode = .idle) :
    ∃ t u, AcceptedRun (xs.map fun x => .ldf x (readTable f x)) s t u ∧
      u = { s with freq := u.freq, out := u.out } ∧
      ∀ y, readTable u.freq y = if y ∈ xs then readTable f y else readTable s.freq y := by
  induction xs generalizing s with
  | nil => exact ⟨[], s, .nil s, rfl, fun _ => rfl⟩
  | cons x xs ih =>
    have hload := AcceptedRun.single (i := .ldf x (readTable f x)) (permits_of_idle rfl hm) rfl
    obtain ⟨t, u, hrun, hframe, hread⟩ := ih (s := answer [] { s with freq := writeTable s.freq x (readTable f x) }) hm
    refine ⟨_, u, hload.append hrun, hframe, fun y => ?_⟩
    rw [hread y, answer_freq, readTable_writeTable]
    by_cases hy : y = x <;> simp [hy]

/-- RELEASE is accepted in IDLE and leaves the arena size alone. -/
theorem acceptedRun_release {s : State} (hm : s.mode = .idle) :
    ∃ t u, AcceptedRun [.release] s t u ∧ u.config = s.config := by
  refine ⟨_, _, .single (i := .release) (permits_of_idle rfl hm) rfl, ?_⟩
  rw [answer_config, releaseTree]
  split <;> rfl

theorem runEvents_rst (s : State) : runEvents [.rst] s = some ([⟨.rst, []⟩], resetBlock s) := by
  simp [runEvents, runEvent, tokensSince]

/-- After reset, the 256 counters of a session and a BUILD make a tree of the same counts. -/
theorem Built.acceptedRun_rebuild {s r : State} {input : List Symbol} (B : Built input s)
    (hconfig : r.config = s.config) :
    ∃ t u, AcceptedRun (symbols.map (fun x => .ldf x (readTable s.freq x)) ++ [.build]) (resetBlock r) t u ∧
      Built input u := by
  obtain ⟨t, v, hload, hframe, hread⟩ := acceptedRun_reload s.freq symbols (s := resetBlock r) rfl
  have hfreq : s.freq = v.freq := table_ext _ _ fun y => by rw [hread y, if_pos (mem_symbols y)]
  have hsize : s.config = v.config := by rw [hframe]; exact hconfig.symm
  obtain ⟨t', u, hbuild, B'⟩ := ((resetBlock_vacant r).of_counters hframe).acceptedRun_build (hfreq ▸ B.counts)
    ((buildFits_congr hsize hfreq).mp B.fits)
  exact ⟨_, u, hload.append hbuild, B'⟩

/-- Settles O46: the counters determine the tree, so the codes of the first session are codes of the tree built after
the reload. -/
theorem roundTripAfterReload : Obligations.RoundTripAfterReload := by
  intro s input S hm hr _ hne hlen hfit
  obtain ⟨t0, s0, run0, K0⟩ := acceptedRun_compress (S.vacant hm hr) hne hlen hfit
  obtain ⟨t1, s1, run1, hstream, hframe⟩ := K0.acceptedRun_encode
  have hcode : s1.code = s0.code := by rw [hframe]; rfl
  have K1 := K0.of_output hframe
  obtain ⟨t2, s2, run2, hconfig⟩ := acceptedRun_release K1.mode
  obtain ⟨t4, s4, run4, B⟩ := K1.acceptedRun_rebuild hconfig
  obtain ⟨t5, s5, run5, hout, _⟩ := runEvents_decode_frame B.mode B.cursor B.tree.tree.root_ne_nil
    fun x hx => K1.isCode_congr B (K1.isCode x hx)
  rw [hcode] at run5
  exact ⟨t0, s0, t1, s1, _, t2, s2, _, t4, s4, t5, s5, run0.run, run1.run, hstream, run2.run, runEvents_rst s2,
    run4.run, run5.run, hout,
    (((run0.accepted.append run1.accepted).append run2.accepted).append run4.accepted).append run5.accepted⟩

end Sys2Proof.Machine
end

