-- ==== Sys2Proof/Proofs/TreeLifecycle.lean ====
section
/-! PROOFS. 46_tree_lifecycle.md: RELEASE discards the tree (R190), and changes nothing where there is none (R192). -/

namespace Sys2Proof.Machine

theorem releaseTree_of_tree {s : State} (hr : s.root ≠ NIL) : releaseTree s = { s with root := NIL, nalloc := 0 } :=
  if_neg hr

theorem releaseTree_of_no_tree {s : State} (hr : s.root = NIL) : releaseTree s = s := if_pos hr

theorem exec_release_idle {s : State} (hm : s.mode = .idle) : exec .release s = .next (answer [] (releaseTree s)) :=
  exec_of_ok (i := .release) (permits_of_idle rfl hm) rfl

/-- Settles O30: the root is present, it is absent, or the mode is wrong. -/
theorem releaseDiscardsTheTree : Obligations.ReleaseDiscardsTheTree := by
  refine ⟨decode_encode .release, fun s => ⟨fun hm hr => ?_, fun hm hr => ?_, exec_outside_idle rfl⟩⟩
  · rw [exec_release_idle hm, releaseTree_of_tree hr]
    rfl
  · rw [exec_release_idle hm, releaseTree_of_no_tree hr]
    rfl

end Sys2Proof.Machine
end

