-- ==== Sys2Proof/Proofs/System.lean ====
section
/-! PROOFS. 47_system.md: NOP (R200), RDSTAT and the fields of the two status words (R201), CLRERR (R202). -/

namespace Sys2Proof.Machine

/-! ### NOP (R200) -/

theorem decode_eq_nop_iff (w : Word) : decode w = .ok .nop ↔ w = 0x000000000000#48 :=
  ⟨fun h => (encode_of_decode h).symm, fun h => h ▸ decode_encode .nop⟩

/-- Settles O13: the pseudocode ends in the state it began in, and FATAL is the one mode that does not permit it. -/
theorem nopDoesNothing : Obligations.NopDoesNothing :=
  ⟨decode_eq_nop_iff, fun s =>
    ⟨fun hm => exec_of_ok (i := .nop) (s' := s) (bne_iff_ne.mpr hm) rfl, fun hm => exec_wrong_mode (by rw [hm]; rfl)⟩⟩

/-! ### The status words (10_state.md R24, R25) -/

/-- The entries of a symbol-indexed table are the ones its symbols read. -/
theorem any_table_iff {α : Type} (m : Vector α 256) (p : α → Bool) :
    m.toList.any p = true ↔ ∃ x, p (readTable m x) = true := by
  simp only [List.any_eq_true, Vector.mem_toList_iff, Vector.mem_iff_getElem]
  constructor
  · rintro ⟨_, ⟨i, hi, rfl⟩, hp⟩
    have hindex : (BitVec.ofNat 8 i).toNat = i := Nat.mod_eq_of_lt hi
    exact ⟨BitVec.ofNat 8 i, by simpa only [readTable, hindex] using hp⟩
  · rintro ⟨x, hp⟩
    exact ⟨_, ⟨x.toNat, x.isLt, rfl⟩, hp⟩

theorem tableFlag_iff (s : State) : s.tableFlag = true ↔ ∃ x, readTable s.clen x ≠ 0 := by
  simp only [State.tableFlag, any_table_iff, bne_iff_ne]

theorem treeFlag_iff (s : State) : s.treeFlag = true ↔ s.root ≠ NIL := bne_iff_ne

section
variable (s : State)

theorem status0_mode : s.status0.extractLsb' 0 2 = s.mode.bits := BitVec.extractLsb'_append_eq_right

theorem status0_flags : s.status0.getLsbD 2 = s.treeFlag ∧ s.status0.getLsbD 3 = s.tableFlag := by
  have hbits : ∀ i, s.status0.getLsbD i = BitVec.getLsbD (w := 6 + 9 + 9 + 4 + 1 + 1 + 2) (0#6 ++ s.nalloc ++ s.root ++
    s.err ++ BitVec.ofBool s.tableFlag ++ BitVec.ofBool s.treeFlag ++ s.mode.bits) i := fun _ => rfl
  simp only [hbits, BitVec.getLsbD_append]
  simp

/-- Above `MODE` and the two flags stand `ERR`, `ROOT`, `NALLOC` and zeros. -/
theorem status0_above_flags (start len : Nat) :
    s.status0.extractLsb' (4 + start) len = (0#6 ++ s.nalloc ++ s.root ++ s.err).extractLsb' start len := by
  have hstart : 4 + start = 2 + (1 + (1 + start)) := by omega
  rw [hstart]
  exact ((extractLsb'_append_high _ s.mode.bits _ len).trans (extractLsb'_append_high _ _ _ len)).trans
    (extractLsb'_append_high _ _ start len)

theorem status0_err : s.status0.extractLsb' 4 4 = s.err :=
  (status0_above_flags s 0 4).trans BitVec.extractLsb'_append_eq_right

theorem status0_root : s.status0.extractLsb' 8 9 = s.root :=
  calc s.status0.extractLsb' 8 9 = (0#6 ++ s.nalloc ++ s.root ++ s.err).extractLsb' 4 9 := status0_above_flags s 4 9
    _ = (0#6 ++ s.nalloc ++ s.root).extractLsb' 0 9 := extractLsb'_append_high _ s.err 0 9
    _ = s.root := BitVec.extractLsb'_append_eq_right

theorem status0_nalloc : s.status0.extractLsb' 17 9 = s.nalloc :=
  calc s.status0.extractLsb' 17 9 = (0#6 ++ s.nalloc ++ s.root ++ s.err).extractLsb' 13 9 := status0_above_flags s 13 9
    _ = (0#6 ++ s.nalloc ++ s.root).extractLsb' 9 9 := extractLsb'_append_high _ s.err 9 9
    _ = (0#6 ++ s.nalloc).extractLsb' 0 9 := extractLsb'_append_high _ s.root 0 9
    _ = s.nalloc := BitVec.extractLsb'_append_eq_right

theorem status0_zero : s.status0.extractLsb' 26 6 = 0 :=
  calc s.status0.extractLsb' 26 6 = (0#6 ++ s.nalloc ++ s.root ++ s.err).extractLsb' 22 6 := status0_above_flags s 22 6
    _ = (0#6 ++ s.nalloc ++ s.root).extractLsb' 18 6 := extractLsb'_append_high _ s.err 18 6
    _ = (0#6 ++ s.nalloc).extractLsb' 9 6 := extractLsb'_append_high _ s.root 9 6
    _ = (0#6).extractLsb' 0 6 := extractLsb'_append_high _ s.nalloc 0 6
    _ = 0 := rfl

theorem status1_cur : s.status1.extractLsb' 0 9 = s.cur := BitVec.extractLsb'_append_eq_right

theorem status1_zero : s.status1.extractLsb' 9 23 = 0 := extractLsb'_append_high 0#23 s.cur 0 23

end

/-- Settles O14: the pseudocode ends in the state it began in with the two words, whose fields the lemmas above give. -/
theorem rdstatReadsTheStatusWords : Obligations.RdstatReadsTheStatusWords := by
  refine ⟨decode_encode .rdstat, fun s => ⟨s.status0, s.status1, exec_of_ok (i := .rdstat) (s' := s) rfl rfl,
    status0_mode s, ?_, ?_, status0_err s, status0_root s, status0_nalloc s, status0_zero s, status1_cur s,
    status1_zero s⟩⟩
  · rw [(status0_flags s).1, treeFlag_iff]
  · rw [(status0_flags s).2, tableFlag_iff]

/-! ### CLRERR (R202) -/

/-- Settles O15: the pseudocode ends with `ERR` cleared, in the one mode that permits it. -/
theorem clrerrClearsErr : Obligations.ClrerrClearsErr :=
  ⟨decode_encode .clrerr, fun s =>
    ⟨fun hm => exec_of_ok (i := .clrerr) (s' := { s with err := 0 }) (permits_of_idle rfl hm) rfl,
      exec_outside_idle rfl⟩⟩

end Sys2Proof.Machine
end

