-- ==== Sys2Proof/Proofs/Exceptions.lean ====
section
/-! PROOFS. 60_exceptions.md: the errors and the commands that raise them (R210, R211), `raise` (R212, R213), the modes
(R214, R215), and the wait between two commands (R220). -/

namespace Sys2Proof.Machine

/-! ### The codes (R210) -/

theorem Error.fatal_iff (e : Error) : e.fatal = true ↔ e = .allocationFailure ∨ e = .emptyQueue := by
  cases e <;> decide

theorem Error.fatal_iff_code (e : Error) : e.fatal = true ↔ e.code = 2 ∨ e.code = 5 := by cases e <;> decide

theorem Error.code_ne_zero (e : Error) : e.code ≠ 0 := by cases e <;> decide

theorem Error.eq_illegalCommand_of_code {e : Error} (h : e.code = 7) : e = .illegalCommand := by
  cases e with
  | illegalCommand => rfl
  | _ => cases h

/-! ### What a command answers (R211, R212) -/

/-- A command whose pseudocode ends appends its own tokens and `ST(0)`. -/
theorem answer_out_of_body {i : Instr} {s s' : State} {toks : List Token} (h : bodyOf i s = .ok (s', toks)) :
    (answer toks s').out = s.out ++ toks ++ [.st 0] := by
  rw [answer_out, (bodyOf_ownedOnly h).out, List.append_assoc]

/-- A command answers `ST(0)`, or raises an error of its row. -/
theorem exec_succeeds_or_raises {i : Instr} {s t : State} (h : exec i s = .next t) :
    (∃ toks, t.out = s.out ++ toks ++ [.st 0]) ∨ ∃ e ∈ errorsOf i, t = raise e s := by
  rcases exec_answers_or_raises h with ⟨_, s', toks, hb, rfl⟩ | ⟨e, he, ht, _⟩
  · exact .inl ⟨toks, answer_out_of_body hb⟩
  · exact .inr ⟨e, he, ht⟩

/-- Settles O47: the codes are read off the table, and the errors of a command are those of its row. -/
theorem commandsRaiseOnlyTheirErrors : Obligations.CommandsRaiseOnlyTheirErrors :=
  ⟨⟨rfl, rfl, rfl, rfl, rfl, rfl, rfl, Error.fatal_iff⟩, fun _ _ _ => exec_succeeds_or_raises⟩

/-! ### `raise` (R212) -/

/-- `raise` writes the record, the mode, the tree's registers, the queue, the cursor and `OUT`, and nothing else. -/
theorem raise_frame (e : Error) (s : State) :
    raise e s = { s with
      err := if s.err = 0 then e.code else s.err
      mode := (raise e s).mode, root := (raise e s).root, nalloc := (raise e s).nalloc, q := (raise e s).q
      cur := (raise e s).cur
      out := s.out ++ [.st e.code] } := by
  rcases raise_cases e s with ⟨_, h⟩ | h | h <;> (rw [h]; rfl)

/-- Settles O48: a command raises from the state it began in, and the mode and the error's class decide the rest. -/
theorem raiseRecordsAbortsAndAnswers : Obligations.RaiseRecordsAbortsAndAnswers := by
  refine ⟨fun i s t h => (exec_succeeds_or_raises h).imp_right fun ⟨e, _, ht⟩ => ⟨e, ht⟩, fun e s =>
    ⟨raise_frame e s, fun hm => ?_, fun hm he => ?_, fun ha hq => ?_⟩⟩
  · rw [raise_in_fatal hm]
    exact ⟨hm, rfl, rfl, rfl, rfl⟩
  · rw [raise_fatal hm (e.fatal_iff.mpr he)]
    exact ⟨rfl, rfl, rfl, rfl, rfl⟩
  · have hrec : e.fatal = false := Bool.eq_false_iff.mpr fun hf => (e.fatal_iff.mp hf).elim ha hq
    obtain ⟨_, hqueue, _, hnalloc, hroot, _⟩ := raise_builderKept s hrec
    refine ⟨hroot, hnalloc, hqueue, fun hm => ?_, fun hm => ?_⟩
    · rw [raise_in_frame hm hrec]
      exact ⟨rfl, rfl⟩
    · rw [raise_in_idle hm hrec]
      exact ⟨hm, rfl⟩

/-! ### The mode error (R214) -/

/-- Of its own, pseudocode raises `IllegalCommand` only in BUILD over a tree and in RDNODE of an unallocated handle. -/
theorem bodyOf_raised_illegalCommand {i : Instr} {s : State} (h : bodyOf i s = .error (.raised .illegalCommand)) :
    (i = .build ∧ s.root ≠ NIL) ∨ ∃ k, i = .rdnode k ∧ s.nalloc.toNat ≤ k.toNat := by
  cases i with
  | nop | rdstat | clrerr | fclr | ldf | rdfreq | release | rdcode | ebegin | eend => cases h
  | count => cases countBody_raised h
  | build =>
    rcases buildBody_raised h with ⟨hr, _⟩ | ⟨_, _, he⟩ | ⟨_, _, he | he⟩
    · exact .inl ⟨rfl, hr⟩
    · cases he
    · cases he
    · cases he
  | rdnode k =>
    refine .inr ⟨k, rfl, Nat.le_of_not_lt fun hlt => ?_⟩
    rw [bodyOf, rdnodeBody, require_of hlt, proc_bind_ok] at h
    rcases (proc_bind_eq_error _ _ _).mp h with h | ⟨_, _, h⟩
    · cases ((readNode_eq_error _ _ _).mp h).2
    · cases h
  | gen => obtain ⟨f, hf⟩ := genBody_error h; cases hf
  | enc => cases encBody_raised h
  | dbegin => cases dbeginBody_raised h
  | dec => cases decBody_raised h
  | dend => cases dendBody_raised h

theorem status_eq_of_append {l l' : List Token} {c c' : StatusCode} (h : l ++ [.st c] = l' ++ [.st c']) : c = c' :=
  Token.st.inj (List.singleton_inj.mp (List.append_inj' h rfl).2)

/-- Settles O49: a permitted command that ends as `raise IllegalCommand` answers `ST(7)`, so its pseudocode raised that
error. -/
theorem wrongModeIsIllegal : Obligations.WrongModeIsIllegal := by
  refine fun i s => ⟨exec_wrong_mode, fun hp h => ?_⟩
  rcases exec_next h with ⟨_, s', toks, hb, ht⟩ | ⟨_, e, hb, ht⟩ | ⟨hno, _⟩
  · have hout := congrArg State.out ht
    rw [raise_out, answer_out_of_body hb] at hout
    cases status_eq_of_append hout
  · have hout := congrArg State.out ht
    rw [raise_out, raise_out] at hout
    obtain rfl := Error.eq_illegalCommand_of_code (status_eq_of_append hout).symm
    exact bodyOf_raised_illegalCommand hb
  · rw [hp] at hno
    cases hno

/-! ### The mode transitions (R215) -/

/-- How a command `i` with status `c` moves the mode from `m` to `m'`. -/
def ModeMoves (i : Instr) (c : StatusCode) (m m' : Mode) : Prop :=
  (m = .idle → m' =
    if c = 0 then (if i = .ebegin then .encode else if i = .dbegin then .decode else .idle)
    else if c = 2 ∨ c = 5 then .fatal else .idle) ∧
  (m = .encode → m' = if c = 0 ∧ i ≠ .eend then .encode else .idle) ∧
  (m = .decode → m' = if c = 0 ∧ i ≠ .dend then .decode else .idle) ∧
  (m = .fatal → m' = .fatal) ∧
  (m ≠ .idle → c ≠ 2 ∧ c ≠ 5)

/-- The mode in which a command's pseudocode ends: the four commands that open and close frames set it. -/
def modeAfter : Instr → Mode → Mode
  | .ebegin, _ => .encode
  | .dbegin, _ => .decode
  | .eend, _ | .dend, _ => .idle
  | _, m => m

theorem bodyOf_mode {i : Instr} {s t : State} {toks : List Token} (h : bodyOf i s = .ok (t, toks)) :
    t.mode = modeAfter i s.mode := by
  by_cases hu : unitOf i = .frontEnd
  · cases i with
    | nop | rdstat | clrerr | ebegin | eend => cases h; rfl
    | dbegin => obtain ⟨_, _, rfl⟩ := dbeginBody_ok.mp h; rfl
    | dend => obtain ⟨_, _, rfl⟩ := dendBody_ok.mp h; rfl
    | _ => cases hu
  · rw [((bodyOf_ownedOnly h).mode_err hu).1]
    cases i with
    | nop | rdstat | clrerr | ebegin | eend | dbegin | dend => exact absurd rfl hu
    | _ => rfl

/-- A command that opens and closes no frame may stay in its mode with status 0. -/
theorem ModeMoves.stay {i : Instr} (hopen : i ≠ .ebegin ∧ i ≠ .dbegin) (hclose : i ≠ .eend ∧ i ≠ .dend) (m : Mode) :
    ModeMoves i 0 m m := by
  cases m <;> simp [ModeMoves, hopen, hclose]

theorem modeMoves_answer {i : Instr} {m : Mode} (hp : permits i m = true) : ModeMoves i 0 m (modeAfter i m) := by
  cases i with
  | ebegin | dbegin =>
    obtain rfl : m = .idle := by simpa [permits] using hp
    simp [ModeMoves, modeAfter]
  | eend =>
    obtain rfl : m = .encode := by simpa [permits] using hp
    simp [ModeMoves, modeAfter]
  | dend =>
    obtain rfl : m = .decode := by simpa [permits] using hp
    simp [ModeMoves, modeAfter]
  | _ => exact .stay (by simp) (by simp) m

/-- Outside IDLE a command raises no fatal error: BUILD is not permitted there. -/
theorem recoverable_outside_idle {i : Instr} {m : Mode} {e : Error} (he : e ∈ errorsOf i)
    (hp : permits i m = true ∨ e = .illegalCommand) (hm : m ≠ .idle) : e.fatal = false := by
  by_cases hi : i = .build
  · subst hi
    rcases hp with hp | rfl
    · exact absurd (by simpa [permits] using hp) hm
    · rfl
  · exact recoverable_of_ne_build hi e he

theorem modeMoves_raise {i : Instr} {e : Error} {s : State} (h : s.mode ≠ .idle → e.fatal = false) :
    ModeMoves i e.code s.mode (raise e s).mode := by
  have hc := e.code_ne_zero
  refine ⟨fun hm => ?_, fun hm => ?_, fun hm => ?_, fun hm => ?_, fun hm => ?_⟩
  · rw [if_neg hc]
    simp only [← e.fatal_iff_code]
    cases he : e.fatal with
    | true => rw [raise_fatal (by simp [hm]) he]; rfl
    | false => rw [raise_in_idle hm he]; exact hm
  · rw [if_neg fun hz => hc hz.1]
    exact raise_closes_frame (.inl hm) (h (by simp [hm]))
  · rw [if_neg fun hz => hc hz.1]
    exact raise_closes_frame (.inr hm) (h (by simp [hm]))
  · rw [raise_in_fatal hm]
    exact hm
  · refine not_or.mp fun hcode => ?_
    rw [← e.fatal_iff_code, h hm] at hcode
    cases hcode

/-- Settles O50: the pseudocode sets the mode in the four commands of frames, `raise` sets it by the error's class, and
`rst` leads to IDLE. -/
theorem modeTransitions : Obligations.ModeTransitions := by
  refine ⟨fun i s t h => ?_, fun s rest hp => ⟨_, step_event hp, rfl⟩⟩
  rcases exec_answers_or_raises h with ⟨hp, s', toks, hb, rfl⟩ | ⟨e, he, rfl, hp⟩
  · refine ⟨toks, 0, answer_out_of_body hb, ?_⟩
    rw [answer_mode, bodyOf_mode hb]
    exact modeMoves_answer hp
  · exact ⟨[], e.code, by simp, modeMoves_raise (recoverable_outside_idle he hp)⟩

/-! ### FATAL (R213) -/

theorem not_permitted_in_fatal {i : Instr} (hi : i ≠ .rdstat) : permits i .fatal = false := by
  cases i with
  | rdstat => exact absurd rfl hi
  | _ => rfl

/-- Settles O51: FATAL permits RDSTAT alone, and `raise` in FATAL with an error on record only answers. -/
theorem fatalRefusesAllButRdstat : Obligations.FatalRefusesAllButRdstat := by
  intro i s hm herr hi
  have hrecord : recordError s.err .illegalCommand = s.err := if_neg herr
  rw [exec_wrong_mode (by rw [hm]; exact not_permitted_in_fatal hi), raise_in_fatal hm, hrecord]
  rfl

/-! ### Between commands (R220) -/

/-- Settles O8: with no event the step answers the state it began in. -/
theorem blockWaitsForTheHost : Obligations.BlockWaitsForTheHost := fun _ => step_waits

end Sys2Proof.Machine
end

