-- ==== Sys2Proof/Proofs/ResetAndHazards.lean ====
section
/-! PROOFS. 70_reset_and_hazards.md: reset between commands and inside one (R240), and the outcome every step has from
a safe state (R251). -/

namespace Sys2Proof.Machine

/-! ### Reset (R240) -/

/-- Settles O10: the event is `resetBlock`. -/
theorem resetEventRestoresResetValues : Obligations.ResetEventRestoresResetValues := fun _ _ => step_event

/-- An accepted word appends tokens and then one status token, whether or not it is reserved. -/
theorem runWord_out {w : Word} {s u : State} (h : runWord w s = .next u) :
    ∃ toks c, u.out = s.out ++ toks ++ [.st c] := by
  rcases runWord_next h with ⟨i, _, hx⟩ | ⟨_, rfl⟩
  · obtain ⟨toks, c, hout, _⟩ := responsesHaveTheirShape i s u hx
    exact ⟨toks, c, hout⟩
  · exact ⟨[], 7, by rw [raise_out, List.append_nil]; rfl⟩

/-- A cut command emits the first `k` of its own tokens, and every element is at its reset value. -/
theorem cutWord_of_out {w : Word} {k : Nat} {s u : State} {toks : List Token} {c : StatusCode}
    (h : runWord w s = .next u) (hout : u.out = s.out ++ toks ++ [.st c]) :
    cutWord w k s = .next (emit (toks.take k) (resetBlock s)) := by
  have hsince : tokensSince s u = toks ++ [.st c] := by
    rw [tokensSince, hout, List.append_assoc, List.drop_left]
  simp only [cutWord, h, hsince, List.dropLast_concat]

/-- Settles O11: the host took the first `k` of the command's own tokens, or all of them if there are fewer. -/
theorem resetCutsACommand : Obligations.ResetCutsACommand := by
  intro s w k rest u hp hu
  obtain ⟨toks, c, hout⟩ := runWord_out hu
  refine ⟨toks.take k, toks.drop k, c, ?_, List.length_take_le k toks, ?_, ?_⟩
  · rw [List.append_assoc s.out, List.take_append_drop]
    exact hout
  · rcases le_total toks.length k with hk | hk
    · exact .inl (List.drop_eq_nil_of_le hk)
    · exact .inr (List.length_take_of_le hk)
  · exact (step_event hp).trans (cutWord_of_out hu hout)

/-! ### Pseudocode that never stops the model -/

/-- The pseudocode ends or raises; it meets no fault. -/
def NeverStops {α : Type} (p : Proc α) : Prop := ∀ f, p ≠ .error (.faulted f)

section
variable {α β : Type}

theorem NeverStops.ok (a : α) : NeverStops (.ok a : Proc α) := nofun

theorem NeverStops.raised (e : Error) : NeverStops (.error (.raised e) : Proc α) := nofun

theorem NeverStops.bind {p : Proc α} {g : α → Proc β} (hp : NeverStops p)
    (hg : ∀ a, p = .ok a → NeverStops (g a)) : NeverStops (p >>= g) := by
  intro f h
  rcases (proc_bind_eq_error _ _ _).mp h with h | ⟨a, ha, h⟩
  · exact hp f h
  · exact hg a ha f h

/-- After a `require` the condition holds. -/
theorem NeverStops.require_bind {c : Prop} [Decidable c] {e : Error} {g : Unit → Proc β}
    (hg : c → NeverStops (g ())) : NeverStops (require c e >>= g) := by
  by_cases hc : c
  · rw [require_of hc, proc_bind_ok]
    exact hg hc
  · rw [require_not hc, proc_bind_error]
    exact .raised e

/-- A read of a listed node is no fault. -/
theorem NeverStops.readNode_bind {s : State} {h : Handle} {nd : Node} {g : Node → Proc β} (hx : s.nodeAt h = some nd)
    (hg : NeverStops (g nd)) : NeverStops (readNode s h >>= g) := by
  rw [(readNode_eq_ok s h nd).mpr hx, proc_bind_ok]
  exact hg

end

section
variable {s : State}

/-- BUILD refuses a tree and an empty table, makes the tree if it fits the arena, and else raises. -/
theorem buildBody_neverStops (I : TreeInv s) (hq : s.q = []) : NeverStops (buildBody s) := by
  by_cases hr : s.root = NIL
  · have ha := I.absent hr
    rcases Nat.eq_zero_or_pos s.distinct with hd | hd
    · rw [buildBody_of_no_symbol hr hd]
      exact .raised _
    · rcases Nat.lt_or_ge s.config.arenaSize (2 * s.distinct - 1) with hfull | hfit
      · rw [buildBody_full ha hq hd hfull]
        exact .raised _
      · obtain ⟨_, _, _, hb, _⟩ := buildBody_makes ha hq ⟨hd, hfit⟩
        rw [hb]
        exact .ok _
  · rw [buildBody_of_tree hr]
    exact .raised _

theorem rdnodeBody_neverStops (I : TreeInv s) (h : Handle) : NeverStops (rdnodeBody h s) :=
  .require_bind fun hlt => by
    obtain ⟨n, T⟩ := I.present hlt
    obtain ⟨nd, hx⟩ := T.allocated hlt
    exact .readNode_bind hx (.ok _)

/-- GEN's walk stays in the tree, and no path of a tree is longer than `MAXLEN`. -/
theorem genBody_neverStops (I : TreeInv s) : NeverStops (genBody s) := by
  rcases I with ⟨hr, _⟩ | ⟨n, T⟩
  · rw [genBody_of_no_tree hr]
    exact .ok _
  · obtain ⟨t, hg, _⟩ := genBody_gives T
    rw [hg]
    exact .ok _

/-- The cursor is on a node of the tree, and so are the children of an Internal node. -/
theorem moveCursor_neverStops (I : TreeInv s) (hcur : s.cur.toNat < s.nalloc.toNat) (b : Bool) :
    NeverStops (moveCursor b s) := by
  obtain ⟨n, T⟩ := I.present hcur
  obtain ⟨nd, hx⟩ := T.allocated hcur
  refine .readNode_bind hx ?_
  cases hk : nd.kind with
  | leaf => exact .require_bind fun _ => .ok _
  | internal =>
    obtain ⟨m, hm⟩ := T.child_allocated hx hk b
    refine .readNode_bind hm ?_
    cases m.kind <;> exact .ok _

theorem decBody_neverStops (S : SafeState s) (hm : s.mode = .decode) (v : BitVec 8) : NeverStops (decBody v s) := by
  unfold decBody
  cases recognizedBit v with
  | none => exact .raised _
  | some b => exact moveCursor_neverStops S.tree ((if_pos hm).mp S.cursor).1 b

/-- In a safe state no command's pseudocode meets a fault. -/
theorem bodyOf_neverStops {i : Instr} (S : SafeState s) (hp : permits i s.mode = true) : NeverStops (bodyOf i s) := by
  cases i with
  | nop | rdstat | clrerr | fclr | ldf | rdfreq | release | rdcode | ebegin | eend => exact .ok _
  | count | enc | dbegin | dend => exact .require_bind fun _ => .ok _
  | build => exact buildBody_neverStops S.tree S.control.queue
  | rdnode h => exact rdnodeBody_neverStops S.tree h
  | gen => exact genBody_neverStops S.tree
  | dec v => exact decBody_neverStops S (by simpa [permits] using hp) v

/-! ### Every step has an outcome (R251) -/

theorem exec_has_outcome (S : SafeState s) (i : Instr) : ∃ t, exec i s = .next t := by
  rw [exec_eq_command]
  cases h : command (modesOf i) (bodyOf i) s with
  | next t => exact ⟨t, rfl⟩
  | fault f =>
    obtain ⟨hm, hb⟩ := command_fault h
    exact absurd hb (bodyOf_neverStops S ((mem_modesOf _ _).mp hm) f)
  | refused r => exact absurd h command_not_refused

theorem runWord_has_outcome (S : SafeState s) (w : Word) : ∃ t, runWord w s = .next t := by
  cases hd : decode w with
  | ok i => rw [runWord_of_decode hd]; exact exec_has_outcome S i
  | error e => exact ⟨raise .illegalCommand s, by simp only [runWord, hd]⟩

theorem runEvent_has_outcome (S : SafeState s) (e : Event) : ∃ t, runEvent e s = .next t := by
  cases e with
  | cmd w => exact runWord_has_outcome S w
  | rst => exact ⟨_, rfl⟩
  | cut w k =>
    obtain ⟨u, hu⟩ := runWord_has_outcome S w
    obtain ⟨toks, c, hout⟩ := runWord_out hu
    exact ⟨_, cutWord_of_out hu hout⟩

end

/-- Settles O60: the block waits, or the event has an outcome, since in a safe state every node a command reads is
allocated and every path of the tree fits the bound of GEN. -/
theorem safeStatesAlwaysStep : Obligations.SafeStatesAlwaysStep := by
  intro s S
  cases hp : s.pending with
  | nil => exact ⟨s, step_waits hp⟩
  | cons e rest =>
    rw [step_event hp]
    exact runEvent_has_outcome (S.of_host rfl) e

end Sys2Proof.Machine
end
